-- ==== Sys2Proof/Config.lean ====
section
/-! DEFINITION. Config: what a build of the CORE fixes (spec/00_scope.md rule R6) and the values the spec leaves
open. The four sizing parameters are a `Build`, which a state carries, so that what is said of every state is said
of every build within the constraints. The open parameters `TRI_BOUND` and `GALOIS_ELTS_ALL`, and the answers of the
randomness source, rest on opaque constants: nothing in Lean can evaluate one or prove a value of it. -/

namespace Sys2Proof

/-- The sizing parameters of a build, within the constraints of rule R6 (spec/92 D6, D7; log entry 1). -/
structure Build where
  /-- `WIDEW`, the width in bits of a wide register -/
  wideW : Nat
  /-- `NMAX`, the largest ring dimension a context accepts -/
  nMax : Nat
  /-- `VCAPMAX`, the largest capacity of one vector buffer -/
  vcapMax : Nat
  /-- `NPRIMEMAX`, the largest `numPrimes` of a CrtContext -/
  nPrimeMax : Nat
  /-- the constraints of rule R6 -/
  legal : (128 ≤ wideW ∧ wideW ≤ 4096 ∧ wideW % 64 = 0) ∧
    (2 ≤ nMax ∧ nMax ≤ 2 ^ 20 ∧ 2 ^ nMax.log2 = nMax) ∧
    (nMax * (wideW / 64) ≤ vcapMax ∧ vcapMax ≤ 2 ^ 24) ∧ 1 ≤ nPrimeMax ∧ nPrimeMax ≤ 255
  deriving DecidableEq, Repr

/-- The build with the defaults of rule R6. -/
def Build.default : Build :=
  { wideW := 1024, nMax := 4096, vcapMax := 65536, nPrimeMax := 16, legal := by decide }

/-- The number of 64-bit limbs of a wide register, `L` of rule R75 (rules R26, R75). -/
def Build.wideLimbs (b : Build) : Nat := b.wideW / 64

namespace Config

/-- The largest `WIDEW` a build may have (rule R6). -/
abbrev wideMax : Nat := 4096

/-- The free value behind `TRI_BOUND`, which the spec leaves OPEN (spec/92_eei_decisions.md D33). -/
opaque triBoundFree : Build → Nat

/-- `TRI_BOUND`: any number with `0 ≤ TRI_BOUND < 2^62` (rule R6), and none in particular (log entry 5). -/
def triBound (b : Build) : Nat := triBoundFree b % 2 ^ 62

/-- The free value behind `GALOIS_ELTS_ALL`, which the spec leaves OPEN (spec/92_eei_decisions.md D32). -/
opaque galoisEltsFree : Build → Nat → List (BitVec 64)

/-- `GALOIS_ELTS_ALL`, a function from the ring dimension to a list of machine integers: fixed at `N = 8` only
(rule R276), elsewhere any list of at most `VCAPMAX` of them (spec/92 parameter table, spec/93 U4; log entry 6). -/
def galoisEltsAll (b : Build) (n : Nat) : List (BitVec 64) :=
  if n = 8 then [15, 3, 11, 9, 9] else (galoisEltsFree b n).take b.vcapMax

/-- What the randomness source answers (rules R46 and R320): one free number for each draw (counted by
`State.draws`) and each sample of it. The samplers fold it into the set their rule gives (log entry 4). -/
opaque freeDraw : Nat → Nat → Nat

end Config

end Sys2Proof
end

