-- ==== Sys2Proof/Word.lean ====
section
/-! DEFINITION. Word: the data widths of the CORE (spec/00_scope.md rules R6 and R7). -/

namespace Sys2Proof

/-- A machine integer: a 64-bit pattern (rule R7), the content of a scalar register, of a buffer element
and of every host register. -/
abbrev Word := BitVec 64

/-- The content of a wide register. `WIDEW` is a parameter of the build, so the pattern is as wide as the widest
build's and a wide integer (rule R7) is its low `WIDEW` bits; the bits above are 0 (log entry 16). -/
abbrev Wide := BitVec Config.wideMax

/-- A command word (rule R100). -/
abbrev CmdWord := BitVec 32

end Sys2Proof
end

