-- ==== Sys2Proof/Syntax.lean ====
section
/-! DEFINITION. Syntax: the 53 commands of the opcode table (spec/30_encoding.md rule R104), one
constructor a row, with its operands in the table's order. A register operand is a number of its class
(rule R105), so a term of this type never names a register that does not exist. -/

namespace Sys2Proof

/-- A scalar register operand, `x0` to `x15` (class `x` of rule R105). -/
abbrev XReg := Fin 16

/-- A wide register operand, `w0` to `w3` (class `w` of rule R105). -/
abbrev WReg := Fin 4

/-- A vector buffer operand, `v0` to `v7` (class `v` of rule R105). -/
abbrev VReg := Fin 8

/-- A command of `MCK-1` (rule R104). -/
inductive Instr where
  -- family 0, housekeeping
  | nop
  | li (rd : XReg) (imm : BitVec 16)
  | lsi (rd : XReg) (imm : BitVec 16)
  | mov (rd ra : XReg)
  | wmov (rd ra : WReg)
  | wsetx (rd : WReg) (ra : XReg)
  | wgetx (rd : XReg) (ra : WReg)
  | vmov (rd ra : VReg)
  -- family 1, NumberTheory
  | ntModinv (rd ra rb : WReg)
  | ntModexp (rd ra rb rc : WReg)
  | ntIsprime (rd : XReg) (ra : WReg)
  | ntRoot (rd ra rb : WReg)
  | ntFindgen (rd ra : WReg)
  -- family 2, RingLweZp64
  | zpInit (ra : XReg)
  | zpAdd (rd ra rb : XReg)
  | zpSub (rd ra rb : XReg)
  | zpMul (rd ra rb : XReg)
  | zpExp (rd ra rb : XReg)
  | zpInv (rd ra : XReg)
  | zpRoot (rd ra : XReg)
  | zpGen (rd : XReg)
  -- family 3, NttContext
  | nttInit (ra rb : XReg)
  | nttRaw (rd : VReg) (sel : Bool)
  | nttFwd (rd : VReg)
  | nttInv (rd : VReg)
  | nttPmul (rd ra rb : VReg)
  -- family 4, CrtContext
  | crtInit (ra rb rc : XReg)
  | crtEnc (rd : VReg) (ra : WReg)
  | crtDec (rd : WReg) (ra : VReg)
  | crtPrimes (rd : VReg)
  | crtMod (rd : WReg)
  -- family 5, GaloisTool
  | galInit (ra : XReg)
  | galElt (rd ra : XReg)
  | galElts (rd ra : VReg)
  | galIdx (rd ra : XReg)
  | galAll (rd : VReg)
  -- family 6, Polynomial
  | polyAdd (rd ra rb : VReg) (rc : XReg)
  | polySub (rd ra rb : VReg) (rc : XReg)
  | polyMul (rd ra rb : VReg) (rc : XReg)
  | polyMuln (rd ra rb : VReg)
  | polyMulc (rd ra rb : VReg)
  | polyEq (rd : XReg) (ra rb : VReg)
  -- family 7, RandomSample
  | rndHwt (rd : VReg) (ra rb : XReg)
  | rndTri (rd : VReg) (ra : XReg)
  | rndUni (rd : VReg) (ra rb rc : XReg)
  -- family 8, DynArray
  | vsize (rd : XReg) (ra : VReg)
  | vcap (rd : XReg) (ra : VReg)
  | vempty (rd : XReg) (ra : VReg)
  | vresize (rd : VReg) (ra : XReg)
  | vreserve (rd : VReg) (ra : XReg)
  | vshrink (rd : VReg)
  | vat (rd : XReg) (ra : VReg) (rb : XReg)
  | vset (rd : VReg) (ra rb : XReg)
  deriving DecidableEq, Repr

end Sys2Proof
end

