-- ==== Sys2Proof/WellFormed.lean ====
section
/-! DEFINITION. WellFormed: which field values a command word may hold (spec/30_encoding.md rules R101,
R102, R105, R106). The check is made on the raw fields of a word, before an `Instr` exists: an `Instr`
holds register numbers of its classes and is well-formed by its type (log entry 13). -/

namespace Sys2Proof

/-- The raw fields of a command word (rule R101). Format I's `imm16` is `rb`, `rc` and `imm8` together. -/
structure Fields where
  op : BitVec 8
  rd : BitVec 4
  ra : BitVec 4
  rb : BitVec 4
  rc : BitVec 4
  imm8 : BitVec 8
  deriving DecidableEq, Repr

/-- The class of a 4-bit field (rule R104): a register class, must-be-zero, or, in format I, a part of
the immediate, where any value stands. -/
inductive FieldClass where
  | x | w | v | zero | imm
  deriving DecidableEq, Repr

/-- What bits 7:0 may hold: zero, the one bit `sel` of `NTT.RAW`, or a part of format I's immediate. -/
inductive ImmClass where
  | zero | sel | imm
  deriving DecidableEq, Repr

/-- The shape of one opcode's word: the class of each field (the columns of rule R104). -/
structure Shape where
  rd : FieldClass
  ra : FieldClass
  rb : FieldClass
  rc : FieldClass
  imm : ImmClass
  deriving DecidableEq, Repr

/-- Why a word is not a command. Every one of them is the same fault, `ILLEGAL_COMMAND` (rule R107). -/
inductive Illegal where
  /-- no row of the table has this opcode -/
  | unassignedOpcode
  /-- bits 23:20 hold a value outside their class -/
  | badRd
  /-- bits 19:16 hold a value outside their class -/
  | badRa
  /-- bits 15:12 hold a value outside their class -/
  | badRb
  /-- bits 11:8 hold a value outside their class -/
  | badRc
  /-- bits 7:0 hold a value outside their class -/
  | badImm
  deriving DecidableEq, Repr

/-- The values a field of each class may take (rules R105, R106). -/
def FieldClass.allows : FieldClass → BitVec 4 → Bool
  | .x, _ => true
  | .w, b => b.toNat < 4
  | .v, b => b.toNat < 8
  | .zero, b => b == 0
  | .imm, _ => true

/-- The values bits 7:0 may take (rule R106: bits 7:1 of `NTT.RAW` are zero). -/
def ImmClass.allows : ImmClass → BitVec 8 → Bool
  | .zero, b => b == 0
  | .sel, b => b.toNat < 2
  | .imm, _ => true

/-- The first field that breaks its class, by name; `none` when the fields are well-formed. -/
def Shape.firstBad (sh : Shape) (f : Fields) : Option Illegal :=
  if !sh.rd.allows f.rd then some .badRd
  else if !sh.ra.allows f.ra then some .badRa
  else if !sh.rb.allows f.rb then some .badRb
  else if !sh.rc.allows f.rc then some .badRc
  else if !sh.imm.allows f.imm8 then some .badImm
  else none

/-- The fields of a word are well-formed for a shape: every field is in its class (rule R106). -/
def Shape.wellFormed (sh : Shape) (f : Fields) : Bool := sh.firstBad f == none

end Sys2Proof
end

