-- ==== Sys2Proof/Decode.lean ====
section
/-! DEFINITION. Decode: from a command word to a command and back (spec/30_encoding.md rules R100 to
R108). `decode` is total on all 2^32 words; a word it rejects gets the name of what is wrong with it. -/

namespace Sys2Proof

/-- The raw fields of a command word (rule R108). -/
def Fields.ofWord (c : CmdWord) : Fields :=
  { op := c.extractLsb' 24 8, rd := c.extractLsb' 20 4, ra := c.extractLsb' 16 4,
    rb := c.extractLsb' 12 4, rc := c.extractLsb' 8 4, imm8 := c.extractLsb' 0 8 }

/-- The word with these raw fields (rule R101). -/
def Fields.toWord (f : Fields) : CmdWord := f.op ++ f.rd ++ f.ra ++ f.rb ++ f.rc ++ f.imm8

/-- `imm16`, bits 15:0 of a word (rule R108). -/
def Fields.imm16 (f : Fields) : BitVec 16 := f.rb ++ f.rc ++ f.imm8

/-- The scalar register a class `x` field names (rule R105). -/
def xOf (b : BitVec 4) : XReg := b.toFin

/-- The wide register a class `w` field names; its two high bits are zero when this is read (rule R106). -/
def wOf (b : BitVec 4) : WReg := Fin.ofNat 4 b.toNat

/-- The vector buffer a class `v` field names; its high bit is zero when this is read (rule R106). -/
def vOf (b : BitVec 4) : VReg := Fin.ofNat 8 b.toNat

/-- The field that names a scalar register. -/
def xBits (r : XReg) : BitVec 4 := BitVec.ofFin r

/-- The field that names a wide register. -/
def wBits (r : WReg) : BitVec 4 := BitVec.ofNat 4 r.val

/-- The field that names a vector buffer. -/
def vBits (r : VReg) : BitVec 4 := BitVec.ofNat 4 r.val

/-- The shape of an assigned opcode's word (the class columns of rule R104); `none` for the others
(rule R107). -/
def shapeOf (op : BitVec 8) : Option Shape :=
  match op.toNat with
  | 0x00 => some ⟨.zero, .zero, .zero, .zero, .zero⟩ -- NOP
  | 0x01 => some ⟨.x, .zero, .imm, .imm, .imm⟩ -- LI
  | 0x02 => some ⟨.x, .zero, .imm, .imm, .imm⟩ -- LSI
  | 0x03 => some ⟨.x, .x, .zero, .zero, .zero⟩ -- MOV
  | 0x04 => some ⟨.w, .w, .zero, .zero, .zero⟩ -- WMOV
  | 0x05 => some ⟨.w, .x, .zero, .zero, .zero⟩ -- WSETX
  | 0x06 => some ⟨.x, .w, .zero, .zero, .zero⟩ -- WGETX
  | 0x07 => some ⟨.v, .v, .zero, .zero, .zero⟩ -- VMOV
  | 0x10 => some ⟨.w, .w, .w, .zero, .zero⟩ -- NT.MODINV
  | 0x11 => some ⟨.w, .w, .w, .w, .zero⟩ -- NT.MODEXP
  | 0x12 => some ⟨.x, .w, .zero, .zero, .zero⟩ -- NT.ISPRIME
  | 0x13 => some ⟨.w, .w, .w, .zero, .zero⟩ -- NT.ROOT
  | 0x14 => some ⟨.w, .w, .zero, .zero, .zero⟩ -- NT.FINDGEN
  | 0x20 => some ⟨.zero, .x, .zero, .zero, .zero⟩ -- ZP.INIT
  | 0x21 => some ⟨.x, .x, .x, .zero, .zero⟩ -- ZP.ADD
  | 0x22 => some ⟨.x, .x, .x, .zero, .zero⟩ -- ZP.SUB
  | 0x23 => some ⟨.x, .x, .x, .zero, .zero⟩ -- ZP.MUL
  | 0x24 => some ⟨.x, .x, .x, .zero, .zero⟩ -- ZP.EXP
  | 0x25 => some ⟨.x, .x, .zero, .zero, .zero⟩ -- ZP.INV
  | 0x26 => some ⟨.x, .x, .zero, .zero, .zero⟩ -- ZP.ROOT
  | 0x27 => some ⟨.x, .zero, .zero, .zero, .zero⟩ -- ZP.GEN
  | 0x30 => some ⟨.zero, .x, .x, .zero, .zero⟩ -- NTT.INIT
  | 0x31 => some ⟨.v, .zero, .zero, .zero, .sel⟩ -- NTT.RAW
  | 0x32 => some ⟨.v, .zero, .zero, .zero, .zero⟩ -- NTT.FWD
  | 0x33 => some ⟨.v, .zero, .zero, .zero, .zero⟩ -- NTT.INV
  | 0x34 => some ⟨.v, .v, .v, .zero, .zero⟩ -- NTT.PMUL
  | 0x40 => some ⟨.zero, .x, .x, .x, .zero⟩ -- CRT.INIT
  | 0x41 => some ⟨.v, .w, .zero, .zero, .zero⟩ -- CRT.ENC
  | 0x42 => some ⟨.w, .v, .zero, .zero, .zero⟩ -- CRT.DEC
  | 0x43 => some ⟨.v, .zero, .zero, .zero, .zero⟩ -- CRT.PRIMES
  | 0x44 => some ⟨.w, .zero, .zero, .zero, .zero⟩ -- CRT.MOD
  | 0x50 => some ⟨.zero, .x, .zero, .zero, .zero⟩ -- GAL.INIT
  | 0x51 => some ⟨.x, .x, .zero, .zero, .zero⟩ -- GAL.ELT
  | 0x52 => some ⟨.v, .v, .zero, .zero, .zero⟩ -- GAL.ELTS
  | 0x53 => some ⟨.x, .x, .zero, .zero, .zero⟩ -- GAL.IDX
  | 0x54 => some ⟨.v, .zero, .zero, .zero, .zero⟩ -- GAL.ALL
  | 0x60 => some ⟨.v, .v, .v, .x, .zero⟩ -- POLY.ADD
  | 0x61 => some ⟨.v, .v, .v, .x, .zero⟩ -- POLY.SUB
  | 0x62 => some ⟨.v, .v, .v, .x, .zero⟩ -- POLY.MUL
  | 0x63 => some ⟨.v, .v, .v, .zero, .zero⟩ -- POLY.MULN
  | 0x64 => some ⟨.v, .v, .v, .zero, .zero⟩ -- POLY.MULC
  | 0x65 => some ⟨.x, .v, .v, .zero, .zero⟩ -- POLY.EQ
  | 0x70 => some ⟨.v, .x, .x, .zero, .zero⟩ -- RND.HWT
  | 0x71 => some ⟨.v, .x, .zero, .zero, .zero⟩ -- RND.TRI
  | 0x72 => some ⟨.v, .x, .x, .x, .zero⟩ -- RND.UNI
  | 0x80 => some ⟨.x, .v, .zero, .zero, .zero⟩ -- VSIZE
  | 0x81 => some ⟨.x, .v, .zero, .zero, .zero⟩ -- VCAP
  | 0x82 => some ⟨.x, .v, .zero, .zero, .zero⟩ -- VEMPTY
  | 0x83 => some ⟨.v, .x, .zero, .zero, .zero⟩ -- VRESIZE
  | 0x84 => some ⟨.v, .x, .zero, .zero, .zero⟩ -- VRESERVE
  | 0x85 => some ⟨.v, .zero, .zero, .zero, .zero⟩ -- VSHRINK
  | 0x86 => some ⟨.x, .v, .x, .zero, .zero⟩ -- VAT
  | 0x87 => some ⟨.v, .x, .x, .zero, .zero⟩ -- VSET
  | _ => none

/-- The command of an assigned opcode, its operands taken from well-formed fields (rule R104). -/
def build (f : Fields) : Option Instr :=
  match f.op.toNat with
  | 0x00 => some .nop
  | 0x01 => some (.li (xOf f.rd) f.imm16)
  | 0x02 => some (.lsi (xOf f.rd) f.imm16)
  | 0x03 => some (.mov (xOf f.rd) (xOf f.ra))
  | 0x04 => some (.wmov (wOf f.rd) (wOf f.ra))
  | 0x05 => some (.wsetx (wOf f.rd) (xOf f.ra))
  | 0x06 => some (.wgetx (xOf f.rd) (wOf f.ra))
  | 0x07 => some (.vmov (vOf f.rd) (vOf f.ra))
  | 0x10 => some (.ntModinv (wOf f.rd) (wOf f.ra) (wOf f.rb))
  | 0x11 => some (.ntModexp (wOf f.rd) (wOf f.ra) (wOf f.rb) (wOf f.rc))
  | 0x12 => some (.ntIsprime (xOf f.rd) (wOf f.ra))
  | 0x13 => some (.ntRoot (wOf f.rd) (wOf f.ra) (wOf f.rb))
  | 0x14 => some (.ntFindgen (wOf f.rd) (wOf f.ra))
  | 0x20 => some (.zpInit (xOf f.ra))
  | 0x21 => some (.zpAdd (xOf f.rd) (xOf f.ra) (xOf f.rb))
  | 0x22 => some (.zpSub (xOf f.rd) (xOf f.ra) (xOf f.rb))
  | 0x23 => some (.zpMul (xOf f.rd) (xOf f.ra) (xOf f.rb))
  | 0x24 => some (.zpExp (xOf f.rd) (xOf f.ra) (xOf f.rb))
  | 0x25 => some (.zpInv (xOf f.rd) (xOf f.ra))
  | 0x26 => some (.zpRoot (xOf f.rd) (xOf f.ra))
  | 0x27 => some (.zpGen (xOf f.rd))
  | 0x30 => some (.nttInit (xOf f.ra) (xOf f.rb))
  | 0x31 => some (.nttRaw (vOf f.rd) (f.imm8.getLsbD 0))
  | 0x32 => some (.nttFwd (vOf f.rd))
  | 0x33 => some (.nttInv (vOf f.rd))
  | 0x34 => some (.nttPmul (vOf f.rd) (vOf f.ra) (vOf f.rb))
  | 0x40 => some (.crtInit (xOf f.ra) (xOf f.rb) (xOf f.rc))
  | 0x41 => some (.crtEnc (vOf f.rd) (wOf f.ra))
  | 0x42 => some (.crtDec (wOf f.rd) (vOf f.ra))
  | 0x43 => some (.crtPrimes (vOf f.rd))
  | 0x44 => some (.crtMod (wOf f.rd))
  | 0x50 => some (.galInit (xOf f.ra))
  | 0x51 => some (.galElt (xOf f.rd) (xOf f.ra))
  | 0x52 => some (.galElts (vOf f.rd) (vOf f.ra))
  | 0x53 => some (.galIdx (xOf f.rd) (xOf f.ra))
  | 0x54 => some (.galAll (vOf f.rd))
  | 0x60 => some (.polyAdd (vOf f.rd) (vOf f.ra) (vOf f.rb) (xOf f.rc))
  | 0x61 => some (.polySub (vOf f.rd) (vOf f.ra) (vOf f.rb) (xOf f.rc))
  | 0x62 => some (.polyMul (vOf f.rd) (vOf f.ra) (vOf f.rb) (xOf f.rc))
  | 0x63 => some (.polyMuln (vOf f.rd) (vOf f.ra) (vOf f.rb))
  | 0x64 => some (.polyMulc (vOf f.rd) (vOf f.ra) (vOf f.rb))
  | 0x65 => some (.polyEq (xOf f.rd) (vOf f.ra) (vOf f.rb))
  | 0x70 => some (.rndHwt (vOf f.rd) (xOf f.ra) (xOf f.rb))
  | 0x71 => some (.rndTri (vOf f.rd) (xOf f.ra))
  | 0x72 => some (.rndUni (vOf f.rd) (xOf f.ra) (xOf f.rb) (xOf f.rc))
  | 0x80 => some (.vsize (xOf f.rd) (vOf f.ra))
  | 0x81 => some (.vcap (xOf f.rd) (vOf f.ra))
  | 0x82 => some (.vempty (xOf f.rd) (vOf f.ra))
  | 0x83 => some (.vresize (vOf f.rd) (xOf f.ra))
  | 0x84 => some (.vreserve (vOf f.rd) (xOf f.ra))
  | 0x85 => some (.vshrink (vOf f.rd))
  | 0x86 => some (.vat (xOf f.rd) (vOf f.ra) (xOf f.rb))
  | 0x87 => some (.vset (vOf f.rd) (xOf f.ra) (xOf f.rb))
  | _ => none

/-- The command with these raw fields, or the name of what makes the word illegal (rules R107, R108). -/
def decodeFields (f : Fields) : Except Illegal Instr :=
  match shapeOf f.op, build f with
  | some sh, some i =>
    match sh.firstBad f with
    | none => .ok i
    | some bad => .error bad
  | _, _ => .error .unassignedOpcode

/-- Decoding, the first thing every command does (rule R108). It reads no state. -/
def decode (c : CmdWord) : Except Illegal Instr := decodeFields (Fields.ofWord c)

/-- The raw fields of a command (rules R101, R102, R104): an unused field is zero. -/
def Instr.fields : Instr → Fields
  | .nop => ⟨0x00, 0, 0, 0, 0, 0⟩
  | .li rd imm => ⟨0x01, xBits rd, 0, imm.extractLsb' 12 4, imm.extractLsb' 8 4, imm.extractLsb' 0 8⟩
  | .lsi rd imm => ⟨0x02, xBits rd, 0, imm.extractLsb' 12 4, imm.extractLsb' 8 4, imm.extractLsb' 0 8⟩
  | .mov rd ra => ⟨0x03, xBits rd, xBits ra, 0, 0, 0⟩
  | .wmov rd ra => ⟨0x04, wBits rd, wBits ra, 0, 0, 0⟩
  | .wsetx rd ra => ⟨0x05, wBits rd, xBits ra, 0, 0, 0⟩
  | .wgetx rd ra => ⟨0x06, xBits rd, wBits ra, 0, 0, 0⟩
  | .vmov rd ra => ⟨0x07, vBits rd, vBits ra, 0, 0, 0⟩
  | .ntModinv rd ra rb => ⟨0x10, wBits rd, wBits ra, wBits rb, 0, 0⟩
  | .ntModexp rd ra rb rc => ⟨0x11, wBits rd, wBits ra, wBits rb, wBits rc, 0⟩
  | .ntIsprime rd ra => ⟨0x12, xBits rd, wBits ra, 0, 0, 0⟩
  | .ntRoot rd ra rb => ⟨0x13, wBits rd, wBits ra, wBits rb, 0, 0⟩
  | .ntFindgen rd ra => ⟨0x14, wBits rd, wBits ra, 0, 0, 0⟩
  | .zpInit ra => ⟨0x20, 0, xBits ra, 0, 0, 0⟩
  | .zpAdd rd ra rb => ⟨0x21, xBits rd, xBits ra, xBits rb, 0, 0⟩
  | .zpSub rd ra rb => ⟨0x22, xBits rd, xBits ra, xBits rb, 0, 0⟩
  | .zpMul rd ra rb => ⟨0x23, xBits rd, xBits ra, xBits rb, 0, 0⟩
  | .zpExp rd ra rb => ⟨0x24, xBits rd, xBits ra, xBits rb, 0, 0⟩
  | .zpInv rd ra => ⟨0x25, xBits rd, xBits ra, 0, 0, 0⟩
  | .zpRoot rd ra => ⟨0x26, xBits rd, xBits ra, 0, 0, 0⟩
  | .zpGen rd => ⟨0x27, xBits rd, 0, 0, 0, 0⟩
  | .nttInit ra rb => ⟨0x30, 0, xBits ra, xBits rb, 0, 0⟩
  | .nttRaw rd sel => ⟨0x31, vBits rd, 0, 0, 0, if sel then 1 else 0⟩
  | .nttFwd rd => ⟨0x32, vBits rd, 0, 0, 0, 0⟩
  | .nttInv rd => ⟨0x33, vBits rd, 0, 0, 0, 0⟩
  | .nttPmul rd ra rb => ⟨0x34, vBits rd, vBits ra, vBits rb, 0, 0⟩
  | .crtInit ra rb rc => ⟨0x40, 0, xBits ra, xBits rb, xBits rc, 0⟩
  | .crtEnc rd ra => ⟨0x41, vBits rd, wBits ra, 0, 0, 0⟩
  | .crtDec rd ra => ⟨0x42, wBits rd, vBits ra, 0, 0, 0⟩
  | .crtPrimes rd => ⟨0x43, vBits rd, 0, 0, 0, 0⟩
  | .crtMod rd => ⟨0x44, wBits rd, 0, 0, 0, 0⟩
  | .galInit ra => ⟨0x50, 0, xBits ra, 0, 0, 0⟩
  | .galElt rd ra => ⟨0x51, xBits rd, xBits ra, 0, 0, 0⟩
  | .galElts rd ra => ⟨0x52, vBits rd, vBits ra, 0, 0, 0⟩
  | .galIdx rd ra => ⟨0x53, xBits rd, xBits ra, 0, 0, 0⟩
  | .galAll rd => ⟨0x54, vBits rd, 0, 0, 0, 0⟩
  | .polyAdd rd ra rb rc => ⟨0x60, vBits rd, vBits ra, vBits rb, xBits rc, 0⟩
  | .polySub rd ra rb rc => ⟨0x61, vBits rd, vBits ra, vBits rb, xBits rc, 0⟩
  | .polyMul rd ra rb rc => ⟨0x62, vBits rd, vBits ra, vBits rb, xBits rc, 0⟩
  | .polyMuln rd ra rb => ⟨0x63, vBits rd, vBits ra, vBits rb, 0, 0⟩
  | .polyMulc rd ra rb => ⟨0x64, vBits rd, vBits ra, vBits rb, 0, 0⟩
  | .polyEq rd ra rb => ⟨0x65, xBits rd, vBits ra, vBits rb, 0, 0⟩
  | .rndHwt rd ra rb => ⟨0x70, vBits rd, xBits ra, xBits rb, 0, 0⟩
  | .rndTri rd ra => ⟨0x71, vBits rd, xBits ra, 0, 0, 0⟩
  | .rndUni rd ra rb rc => ⟨0x72, vBits rd, xBits ra, xBits rb, xBits rc, 0⟩
  | .vsize rd ra => ⟨0x80, xBits rd, vBits ra, 0, 0, 0⟩
  | .vcap rd ra => ⟨0x81, xBits rd, vBits ra, 0, 0, 0⟩
  | .vempty rd ra => ⟨0x82, xBits rd, vBits ra, 0, 0, 0⟩
  | .vresize rd ra => ⟨0x83, vBits rd, xBits ra, 0, 0, 0⟩
  | .vreserve rd ra => ⟨0x84, vBits rd, xBits ra, 0, 0, 0⟩
  | .vshrink rd => ⟨0x85, vBits rd, 0, 0, 0, 0⟩
  | .vat rd ra rb => ⟨0x86, xBits rd, vBits ra, xBits rb, 0, 0⟩
  | .vset rd ra rb => ⟨0x87, vBits rd, xBits ra, xBits rb, 0, 0⟩

/-- The word of a command (rules R101 to R104). -/
def encode (i : Instr) : CmdWord := i.fields.toWord

/-- One row of the opcode table (rule R104): a word `c` is the command of the row exactly when
`c AND mask = value`. -/
structure TableRow where
  mnemonic : String
  value : CmdWord
  mask : CmdWord
  deriving DecidableEq, Repr

/-- The word is the command of this row (rule R104). -/
def TableRow.covers (r : TableRow) (c : CmdWord) : Bool := c &&& r.mask == r.value

/-- Family 0 of the opcode table, housekeeping (rules R103, R104). -/
def tableHousekeeping : List TableRow :=
  [⟨"NOP", 0x00000000, 0xFFFFFFFF⟩,
   ⟨"LI", 0x01000000, 0xFF0F0000⟩,
   ⟨"LSI", 0x02000000, 0xFF0F0000⟩,
   ⟨"MOV", 0x03000000, 0xFF00FFFF⟩,
   ⟨"WMOV", 0x04000000, 0xFFCCFFFF⟩,
   ⟨"WSETX", 0x05000000, 0xFFC0FFFF⟩,
   ⟨"WGETX", 0x06000000, 0xFF0CFFFF⟩,
   ⟨"VMOV", 0x07000000, 0xFF88FFFF⟩]

/-- Family 1 of the opcode table, NumberTheory (rules R103, R104). -/
def tableNumberTheory : List TableRow :=
  [⟨"NT.MODINV", 0x10000000, 0xFFCCCFFF⟩,
   ⟨"NT.MODEXP", 0x11000000, 0xFFCCCCFF⟩,
   ⟨"NT.ISPRIME", 0x12000000, 0xFF0CFFFF⟩,
   ⟨"NT.ROOT", 0x13000000, 0xFFCCCFFF⟩,
   ⟨"NT.FINDGEN", 0x14000000, 0xFFCCFFFF⟩]

/-- Family 2 of the opcode table, RingLweZp64 (rules R103, R104). -/
def tableRingLweZp64 : List TableRow :=
  [⟨"ZP.INIT", 0x20000000, 0xFFF0FFFF⟩,
   ⟨"ZP.ADD", 0x21000000, 0xFF000FFF⟩,
   ⟨"ZP.SUB", 0x22000000, 0xFF000FFF⟩,
   ⟨"ZP.MUL", 0x23000000, 0xFF000FFF⟩,
   ⟨"ZP.EXP", 0x24000000, 0xFF000FFF⟩,
   ⟨"ZP.INV", 0x25000000, 0xFF00FFFF⟩,
   ⟨"ZP.ROOT", 0x26000000, 0xFF00FFFF⟩,
   ⟨"ZP.GEN", 0x27000000, 0xFF0FFFFF⟩]

/-- Family 3 of the opcode table, NttContext (rules R103, R104). -/
def tableNttContext : List TableRow :=
  [⟨"NTT.INIT", 0x30000000, 0xFFF00FFF⟩,
   ⟨"NTT.RAW", 0x31000000, 0xFF8FFFFE⟩,
   ⟨"NTT.FWD", 0x32000000, 0xFF8FFFFF⟩,
   ⟨"NTT.INV", 0x33000000, 0xFF8FFFFF⟩,
   ⟨"NTT.PMUL", 0x34000000, 0xFF888FFF⟩]

/-- Family 4 of the opcode table, CrtContext (rules R103, R104). -/
def tableCrtContext : List TableRow :=
  [⟨"CRT.INIT", 0x40000000, 0xFFF000FF⟩,
   ⟨"CRT.ENC", 0x41000000, 0xFF8CFFFF⟩,
   ⟨"CRT.DEC", 0x42000000, 0xFFC8FFFF⟩,
   ⟨"CRT.PRIMES", 0x43000000, 0xFF8FFFFF⟩,
   ⟨"CRT.MOD", 0x44000000, 0xFFCFFFFF⟩]

/-- Family 5 of the opcode table, GaloisTool (rules R103, R104). -/
def tableGaloisTool : List TableRow :=
  [⟨"GAL.INIT", 0x50000000, 0xFFF0FFFF⟩,
   ⟨"GAL.ELT", 0x51000000, 0xFF00FFFF⟩,
   ⟨"GAL.ELTS", 0x52000000, 0xFF88FFFF⟩,
   ⟨"GAL.IDX", 0x53000000, 0xFF00FFFF⟩,
   ⟨"GAL.ALL", 0x54000000, 0xFF8FFFFF⟩]

/-- Family 6 of the opcode table, Polynomial (rules R103, R104). -/
def tablePolynomial : List TableRow :=
  [⟨"POLY.ADD", 0x60000000, 0xFF8880FF⟩,
   ⟨"POLY.SUB", 0x61000000, 0xFF8880FF⟩,
   ⟨"POLY.MUL", 0x62000000, 0xFF8880FF⟩,
   ⟨"POLY.MULN", 0x63000000, 0xFF888FFF⟩,
   ⟨"POLY.MULC", 0x64000000, 0xFF888FFF⟩,
   ⟨"POLY.EQ", 0x65000000, 0xFF088FFF⟩]

/-- Family 7 of the opcode table, RandomSample (rules R103, R104). -/
def tableRandomSample : List TableRow :=
  [⟨"RND.HWT", 0x70000000, 0xFF800FFF⟩,
   ⟨"RND.TRI", 0x71000000, 0xFF80FFFF⟩,
   ⟨"RND.UNI", 0x72000000, 0xFF8000FF⟩]

/-- Family 8 of the opcode table, DynArray (rules R103, R104). -/
def tableDynArray : List TableRow :=
  [⟨"VSIZE", 0x80000000, 0xFF08FFFF⟩,
   ⟨"VCAP", 0x81000000, 0xFF08FFFF⟩,
   ⟨"VEMPTY", 0x82000000, 0xFF08FFFF⟩,
   ⟨"VRESIZE", 0x83000000, 0xFF80FFFF⟩,
   ⟨"VRESERVE", 0x84000000, 0xFF80FFFF⟩,
   ⟨"VSHRINK", 0x85000000, 0xFF8FFFFF⟩,
   ⟨"VAT", 0x86000000, 0xFF080FFF⟩,
   ⟨"VSET", 0x87000000, 0xFF800FFF⟩]

/-- The opcode table of rule R104, 53 rows, in its order. -/
def opcodeTable : List TableRow :=
  tableHousekeeping ++ tableNumberTheory ++ tableRingLweZp64 ++ tableNttContext ++ tableCrtContext
    ++ tableGaloisTool ++ tablePolynomial ++ tableRandomSample ++ tableDynArray

/-- The instruction the decoder reads from an instruction of `nbits` bits whose bits are `w`, bit 0 the
least significant; every bit above them is 0. A command is one 32-bit word with no byte order of its own
(rule R100), so the bits are the command word. -/
def decodeTableWord (nbits w : Nat) : Option Instr :=
  match decode (BitVec.ofNat 32 (w % 2 ^ nbits)) with
  | .ok i => some i
  | .error _ => none

end Sys2Proof
end

