-- ==== Sys2Proof/Machine/State.lean ====
section
/-! DEFINITION. State: every piece of state the spec gives the CORE (spec/10_state.md), the host's
actions that have not been taken up yet, and the machine right after reset (rule R48). -/

namespace Sys2Proof.Machine

/-- The run state (rule R35). A command is one atomic step, so `busy` is never entered by a step: it is
the state of a command that waits for a randomness source that does not answer (rule R423; log entry 4). -/
inductive RunState where
  | idle
  | busy
  | faulted
  deriving DecidableEq, Repr

/-- The causes of a command fault, in the order of their codes 1 to 12; the list is closed (rule R371). -/
inductive FaultCause where
  | illegalCommand
  | noContext
  | badParameter
  | modulusNotPrime
  | noPrimeFound
  | noRoot
  | notInvertible
  | lengthMismatch
  | indexOutOfRange
  | capacityExceeded
  | wideOverflow
  | badOperand
  deriving DecidableEq, Repr

/-- A rejection: the cause a command raises and its information word (rules R9, R372, R373). -/
structure Exn where
  cause : FaultCause
  info : Word
  deriving DecidableEq, Repr

/-- A vector buffer (rule R28): its elements below `size`, oldest index first, and its capacity. The
storage at `[size, cap)` is never observable and is not kept (rule R29). -/
structure Buffer where
  elems : List Word
  cap : Nat
  deriving DecidableEq, Repr

/-- The logical size of a buffer (rule R28). -/
def Buffer.size (b : Buffer) : Nat := b.elems.length

/-- The data memory: the eight vector buffers, region 2 of the host register space (rules R70, R78). -/
abbrev Memory := Vector Buffer 8

/-- The form every reachable data memory has: `size ≤ cap ≤ VCAPMAX` in each buffer (rule R29). The
elements of a buffer are a list indexed from 0, so equal memories are equal data. -/
abbrev Memory.wf (m : Memory) (b : Build) : Prop :=
  ∀ i : Fin 8, m[i].size ≤ m[i].cap ∧ m[i].cap ≤ b.vcapMax

/-- The fields of a valid `ZP` slot (rule R42). -/
structure ZpCtx where
  p : Word
  bits : Word
  deriving DecidableEq, Repr

/-- The fields of a valid `NTT` slot (rule R43). -/
structure NttCtx where
  n : Word
  p : Word
  psi : Word
  psiinv : Word
  ninv : Word
  rou : List Word
  rouinv : List Word
  deriving DecidableEq, Repr

/-- The fields of a valid `CRT` slot (rule R44): `bigM` is `CRT.M`, `mi` the list `CRT.Mi`. -/
structure CrtCtx where
  numPrimes : Word
  primeSize : Word
  degree : Word
  limbs : Word
  primes : List Word
  miInv : List Word
  bigM : Wide
  mi : List Wide
  deriving DecidableEq, Repr

/-- The field of a valid `GAL` slot (rule R45). -/
structure GalCtx where
  n : Word
  deriving DecidableEq, Repr

/-- What the host does to the CORE (rule R430): a command on the command port (rule R100), a read or a
write of one register number on the host port (rule R72), or the reset signal (rule R410). The
acknowledge is a write (rule R374). -/
inductive HostAction where
  | command (c : CmdWord)
  | read (a : BitVec 32)
  | write (a : BitVec 32) (v : Word)
  | rst
  deriving DecidableEq, Repr

/-- What the host port answered last (rules R72, R77): nothing yet, the word read, a write taken (or
ignored), or `herr = 1` for a refused access, which carries no data (spec/93 U9). -/
inductive HostAnswer where
  | none
  | data (v : Word)
  | done
  | refused
  deriving DecidableEq, Repr

/-- Why the machine stops. There is no constructor: a command that fails a check is rejected and the CORE
goes to FAULTED, which is a next state (rules R370, R372), a refused host access answers `herr` (rule
R77), and the CORE never ends a run by itself (rule R430). -/
inductive Fault where
  deriving DecidableEq, Repr

/-- Why the model gives an instruction no meaning. -/
inductive Refusal where
  /-- Raised by an arm of `exec` whose instruction has no meaning yet; no arm raises it now. Safe: the model
  stops where the CORE goes on. -/
  | notModelled (mnemonic : String)
  deriving DecidableEq, Repr

/-- The state of the CORE and of what stands at its ports. -/
structure State where
  /-- the parameters of the build (rule R6), which no command, host access or reset changes (rule R412) -/
  build : Build
  /-- scalar registers `x0` to `x15` (rule R20) -/
  x : Vector Word 16
  /-- wide registers `w0` to `w3` (rule R25) -/
  w : Vector Wide 4
  /-- vector buffers `v0` to `v7`, the data memory (rule R28) -/
  v : Memory
  /-- the run state (rule R35); `STATUS.FAULTED` and the outputs `busy` and `fault` are views of it -/
  run : RunState
  /-- `CSEQ`, the number of commands retired (rule R36) -/
  cseq : Word
  /-- `FCAUSE` (rule R38) -/
  fcause : Word
  /-- `FINFO` (rule R38) -/
  finfo : Word
  /-- `FCMD` (rule R38) -/
  fcmd : Word
  /-- slot `ZP`; its `valid` bit is `isSome` (rules R41, R42) -/
  zp : Option ZpCtx
  /-- slot `NTT` (rules R41, R43) -/
  ntt : Option NttCtx
  /-- slot `CRT` (rules R41, R44) -/
  crt : Option CrtCtx
  /-- slot `GAL` (rules R41, R45) -/
  gal : Option GalCtx
  /-- the model's own: the host's actions that the CORE has not taken up yet, oldest first (rule R430) -/
  host : List HostAction
  /-- the host port's last answer, `herr` among it (rule R77) -/
  answer : HostAnswer
  /-- the model's own: how many sampler commands have retired, which picks the source's next answers (rule
  R320; log entry 4) -/
  draws : Nat
  deriving DecidableEq, Repr

/-- A build of the CORE right after reset (rules R48, R411): every register 0, every buffer empty, IDLE, every
slot invalid. Nothing stands at the ports, and no draw has been made (log entries 2, 3 and 4). -/
def State.resetOf (b : Build) : State :=
  { build := b
    x := Vector.replicate 16 0
    w := Vector.replicate 4 0
    v := Vector.replicate 8 ⟨[], 0⟩
    run := .idle
    cseq := 0
    fcause := 0
    finfo := 0
    fcmd := 0
    zp := none
    ntt := none
    crt := none
    gal := none
    host := []
    answer := .none
    draws := 0 }

/-- The machine right after reset, with the defaults of rule R6 as its parameters (log entry 1). -/
def State.reset : State := State.resetOf Build.default

end Sys2Proof.Machine
end

