-- ==== Sys2Proof/Machine/Operands.lean ====
section
/-! DEFINITION. Operands: how a bit pattern is read as a number and a number kept as a pattern
(spec/00_scope.md rules R7, R8; spec/30_encoding.md rule R105; spec/20_memory.md rule R73). -/

namespace Sys2Proof.Machine

/-- `sint(v)`: the machine integer a 64-bit pattern stands for (rule R7). -/
def sint (v : Word) : Int := v.toInt

/-- `u64(n)`: the 64-bit pattern of `n` modulo 2^64 (rule R7). -/
def u64 (n : Int) : Word := BitVec.ofInt 64 n

/-- The wide integer a wide register's pattern stands for: its low `WIDEW` bits in two's complement (rule R7). -/
def wideInt (b : Build) (v : Wide) : Int := (v.setWidth b.wideW).toInt

/-- The pattern of a wide integer (rule R7). -/
def ofWideInt (b : Build) (n : Int) : Wide := (BitVec.ofInt b.wideW n).setWidth Config.wideMax

/-- The pattern of a number that is not negative and fits, as the constants of the `CRT` slot do (rule R44). -/
def ofWideNat (n : Nat) : Wide := BitVec.ofNat Config.wideMax n

/-- The range of a wide integer, `[−2^(WIDEW−1), 2^(WIDEW−1))` (rule R25). -/
def fitsWide (b : Build) (n : Int) : Bool :=
  decide (-(2 ^ (b.wideW - 1) : Int) ≤ n ∧ n < (2 ^ (b.wideW - 1) : Int))

/-- The range of a machine integer, `[−2^63, 2^63)` (rule R7). -/
def fitsMachine (n : Int) : Bool := decide (-(2 ^ 63 : Int) ≤ n ∧ n < (2 ^ 63 : Int))

/-- `sext_16(imm16)` (rule R105), as a 64-bit pattern. -/
def sext16 (imm : BitVec 16) : Word := imm.signExtend 64

/-- A machine integer carried to the wide side, sign-extended to `WIDEW` bits (rule R135). -/
def widen (b : Build) (v : Word) : Wide := (v.signExtend b.wideW).setWidth Config.wideMax

/-- `fmod(a, m)` for `m ≥ 1`: the residue of `a` in `[0, m)` (rule R8). -/
def fmod (a m : Int) : Int := a % m

/-- A number is a power of two, `2^0` among them (rules R214, R242, R272). -/
def isPowerOfTwo (n : Nat) : Bool := n != 0 && 2 ^ n.log2 == n

/-- `floor(log2 n) + 1` for `n ≥ 1`, the bit length of a number (rules R183, R248). -/
def bitLength (n : Nat) : Nat := n.log2 + 1

/-- Limb `l` of a wide pattern, bits `[64·l+63 : 64·l]` (rule R26). -/
def limb (v : Wide) (l : Nat) : Word := v.extractLsb' (64 * l) 64

/-- A wide pattern with limb `l` replaced (rule R26). -/
def setLimb (v : Wide) (l : Nat) (d : Word) : Wide :=
  (v &&& ~~~((BitVec.allOnes 64).setWidth Config.wideMax <<< (64 * l))) |||
    (d.setWidth Config.wideMax <<< (64 * l))

/-- The low `count` limbs of a natural number, least significant first (rules R73, R297). -/
def limbsOf (count n : Nat) : List Int :=
  (List.range count).map fun l => ((n / 2 ^ (64 * l) % 2 ^ 64 : Nat) : Int)

end Sys2Proof.Machine
end

