-- ==== Sys2Proof/Machine/Flags.lean ====
section
/-! DEFINITION. Flags: the CORE has no condition code and no flag of any kind (spec/10_state.md rule R39),
so no command writes one. What stands in for a flag is a Boolean in a scalar register. -/

namespace Sys2Proof.Machine

/-- A Boolean result: 1 or 0 in a scalar register (rule R39). -/
def boolWord (b : Bool) : Word := if b then 1 else 0

end Sys2Proof.Machine
end

