-- ==== Sys2Proof/Machine/Ops.lean ====
section
/-! DEFINITION. Ops: the operations every command shares: reading and writing a register or a buffer,
checking an operand, retiring, taking a command fault and returning from it. -/

namespace Sys2Proof.Machine

/-- Write a scalar register; `x0` is an ordinary one (rules R20, R21). -/
def State.writeX (s : State) (r : XReg) (d : Word) : State := { s with x := s.x.set r.val d r.isLt }

/-- The machine integer in a scalar register (rules R7, R20). -/
def State.xInt (s : State) (r : XReg) : Int := sint s.x[r]

/-- Write a wide register (rule R25). -/
def State.writeW (s : State) (r : WReg) (d : Wide) : State := { s with w := s.w.set r.val d r.isLt }

/-- The wide integer in a wide register (rules R7, R25). -/
def State.wInt (s : State) (r : WReg) : Int := wideInt s.build s.w[r]

/-- Write a vector buffer, its size and capacity with it (rule R28). -/
def State.writeV (s : State) (r : VReg) (b : Buffer) : State := { s with v := s.v.set r.val b r.isLt }

/-- `elems(i)`: the signed element values of a buffer (rule R9). -/
def State.elems (s : State) (r : VReg) : List Int := s.v[r].elems.map sint

/-- Element `k` of a buffer, which exists below its size only (rules R29, R30). -/
def Buffer.read (b : Buffer) (k : Nat) : Option Word := b.elems[k]?

/-- Write element `k` of a buffer; at or above its size nothing is written (rules R29, R30). -/
def Buffer.write (b : Buffer) (k : Nat) (d : Word) : Buffer := { b with elems := b.elems.set k d }

/-- `require C else F(info)` (rule R9). -/
def require (c : Prop) [Decidable c] (cause : FaultCause) (info : Word := 0) : Except Exn Unit :=
  if c then .ok () else .error ⟨cause, info⟩

/-- The fields of a slot, or `NO_CONTEXT` with the slot's index (rules R180, R210, R240, R270, R373). -/
def needSlot {α : Type} (slot : Option α) (index : Word) : Except Exn α :=
  match slot with
  | some c => .ok c
  | none => .error ⟨.noContext, index⟩

/-- `VecAssign(i, L)` (rule R31): the buffer's contents become `L`; its capacity never shrinks. -/
def vecAssign (s : State) (r : VReg) (l : List Int) : Except Exn State := do
  require (l.length ≤ s.build.vcapMax) .capacityExceeded (u64 l.length)
  return s.writeV r ⟨l.map u64, max s.v[r].cap l.length⟩

/-- Write an integer to a wide register, or `WIDE_OVERFLOW` when it does not fit (rules R9, R25). -/
def storeWide (s : State) (r : WReg) (n : Int) : Except Exn State := do
  require (fitsWide s.build n) .wideOverflow
  return s.writeW r (ofWideInt s.build n)

/-- A command that completes without fault retires (rule R36). -/
def State.retire (s : State) : State := { s with cseq := s.cseq + 1 }

/-- The cause code of a fault (rule R371). -/
def FaultCause.code : FaultCause → Word
  | .illegalCommand => 1
  | .noContext => 2
  | .badParameter => 3
  | .modulusNotPrime => 4
  | .noPrimeFound => 5
  | .noRoot => 6
  | .notInvertible => 7
  | .lengthMismatch => 8
  | .indexOutOfRange => 9
  | .capacityExceeded => 10
  | .wideOverflow => 11
  | .badOperand => 12

/-- Fault entry (rule R372): the command word `c` is rejected with `e`. The fault record and the run state
are written and nothing else changes, `CSEQ` among it. -/
def State.raise (s : State) (c : CmdWord) (e : Exn) : State :=
  { s with fcause := e.cause.code, finfo := e.info, fcmd := c.setWidth 64, run := .faulted }

/-- The acknowledge, the return from a fault (rule R374). While the CORE is not FAULTED it is ignored. -/
def State.acknowledge (s : State) : State :=
  match s.run with
  | .faulted => { s with fcause := 0, finfo := 0, fcmd := 0, run := .idle }
  | _ => s

/-- The end of a command (rules R10, R36, R370, R372). `r` is the state with the command's writes, or the
first check that failed: the command retires, or it is rejected and has changed nothing. -/
def finish (i : Instr) (s : State) (r : Except Exn State) : Host.Outcome State Fault Refusal :=
  match r with
  | .ok t => .next t.retire
  | .error e => .next (s.raise (encode i) e)

end Sys2Proof.Machine
end

