-- ==== Sys2Proof/Machine/Primes.lean ====
section
/-! DEFINITION. Primes: powers modulo `m` (spec/41_numbertheory.md rules R152, R161), the exact primality
answer of rule R153 and the factoring of rule R154. Trial division settles every number; a certificate
search stands before it so that a large number is settled fast, and an answer it gives rests on a checked
certificate. Laws/Primes.lean proves that the answers are the exact ones. Each recursion counts down a
bound. -/

namespace Sys2Proof.Machine

/-- The square-and-multiply loop of rule R161 on `(acc, s, e)`. -/
def powLoop : Nat → Nat → Nat → Nat → Nat → Nat
  | 0, acc, _, _, _ => acc
  | fuel + 1, acc, s, e, m =>
    if e = 0 then acc else powLoop fuel (if e % 2 = 1 then acc * s % m else acc) (s * s % m) (e / 2) m

/-- `b^e mod m` on natural numbers (rules R152, R161). -/
def powMod (b e m : Nat) : Nat := powLoop (e.log2 + 1) (1 % m) (b % m) e m

/-- The least divisor of `n` that is at least `d`, or `n` itself when none is at most its square root. -/
def leastFactorFrom : Nat → Nat → Nat → Nat
  | 0, _, n => n
  | fuel + 1, d, n => if n < d * d then n else if n % d = 0 then d else leastFactorFrom fuel (d + 1) n

/-- The least divisor above 1 of a number `n ≥ 2`, by trial division. -/
def leastFactor (n : Nat) : Nat := leastFactorFrom n 2 n

/-- The prime factors of `n`, with repeats: the least one, then those of the quotient. -/
def factorLoop : Nat → Nat → List Nat
  | 0, _ => []
  | fuel + 1, n => if n < 2 then [] else leastFactor n :: factorLoop fuel (n / leastFactor n)

/-- The least divisor of `n` among the next numbers from `d`. -/
def smallDivisor : Nat → Nat → Nat → Option Nat
  | 0, _, _ => none
  | fuel + 1, d, n => if n % d = 0 then some d else smallDivisor fuel (d + 1) n

/-- Pollard's rho: a divisor of `n` other than 1 and `n`, when the walk `z ↦ z² + c` meets one. -/
def rhoDivisor (c n : Nat) : Nat → Nat → Nat → Option Nat
  | 0, _, _ => none
  | fuel + 1, x, y =>
    let x' := (x * x + c) % n
    let y' := (y * y + c) % n
    let y'' := (y' * y' + c) % n
    let g := Nat.gcd (x' + n - y'') n
    if g = 1 then rhoDivisor c n fuel x' y'' else if g = n then none else some g

/-- A number to split `n` by; whoever uses it checks that it divides. -/
def someDivisor (n : Nat) : Nat :=
  match smallDivisor 200 2 n with
  | some d => d
  | none =>
    match rhoDivisor 1 n 20000 2 2 with
    | some d => d
    | none => (rhoDivisor 3 n 20000 2 2).getD 1

/-- A witness of Lucas's criterion for `n`, `qs` the prime factors of `n − 1`: a number of order `n − 1`. -/
def lucasWitness (n : Nat) (qs : List Nat) : Nat → Nat → Bool
  | 0, _ => false
  | fuel + 1, a =>
    (powMod a (n - 1) n == 1 && qs.all fun q => powMod a ((n - 1) / q) n != 1) ||
      lucasWitness n qs fuel (a + 1)

/-- The prime factors of `n` with repeats, each with a certificate that it is prime; `none` when the search
did not find them. -/
def certifiedFactors : Nat → Nat → Option (List Nat)
  | 0, _ => none
  | fuel + 1, n =>
    if n < 4096 then some (factorLoop n n)
    else if powMod 2 (n - 1) n = 1 ∧
        (certifiedFactors fuel (n - 1)).any (fun qs => lucasWitness n qs 100 2) then some [n]
    else
      let d := someDivisor n
      if 1 < d ∧ d < n ∧ n % d = 0 then
        match certifiedFactors fuel d, certifiedFactors fuel (n / d) with
        | some a, some b => some (a ++ b)
        | _, _ => none
      else none

/-- How deep the certificate search goes. -/
def certificateDepth (n : Nat) : Nat := 2 * n.log2 + 2

/-- The prime factors of a number, with repeats (rule R154: "factoring p−1"). -/
def primeFactors (n : Nat) : List Nat := (certifiedFactors (certificateDepth n) n).getD (factorLoop n n)

/-- `isPrime(n)`, the exact answer (rule R153): `n ≥ 2` and no divisor lies strictly between 1 and `n`. A
number above 2 that breaks Fermat's congruence to base 2 is composite. -/
def isPrime (n : Int) : Bool :=
  let m := n.toNat
  if m < 2 then false
  else if 2 < m ∧ powMod 2 (m - 1) m ≠ 1 then false
  else
    match certifiedFactors (certificateDepth m) m with
    | some l => l == [m]
    | none => leastFactor m == m

end Sys2Proof.Machine
end

