-- ==== Sys2Proof/Machine/Arith.lean ====
section
/-! DEFINITION. Arith: the functions of NumberTheory on unbounded integers (spec/41_numbertheory.md rules
R151, R152, R154, R155), which every family uses. Each recursion counts down a bound its loop cannot
reach. -/

namespace Sys2Proof.Machine

/-- The extended Euclidean loop of rule R161 on `(r0, r1)` and `(t0, t1)`: the last `r0` and `t0`. -/
def euclid : Nat → Nat → Nat → Int → Int → Nat × Int
  | 0, r0, _, t0, _ => (r0, t0)
  | fuel + 1, r0, r1, t0, t1 =>
    if r1 = 0 then (r0, t0) else euclid fuel r1 (r0 % r1) t1 (t0 - (r0 / r1 : Nat) * t1)

/-- `modInv(a, m)` (rule R151). -/
def modInv (a m : Int) : Except Exn Int := do
  require (1 ≤ m) .badOperand
  let g := euclid (m.toNat + 1) m.toNat (fmod a m).toNat 0 1
  require (g.1 = 1) .notInvertible
  return fmod g.2 m

/-- `modExp(b, e, m)` (rule R152). -/
def modExp (b e m : Int) : Except Exn Int := do
  require (1 ≤ m) .badOperand
  require (0 ≤ e) .badOperand
  return (powMod (fmod b m).toNat e.toNat m.toNat : Nat)

/-- `g` generates the units modulo the prime `p`: `g^((p−1)/q) ≠ 1` for every prime factor `q` of `p − 1`
(rule R154). -/
def isGenerator (p : Nat) (factors : List Nat) (g : Nat) : Bool :=
  factors.all fun q => powMod g ((p - 1) / q) p != 1

/-- The search of rule R154 from `g` upward, below `p`. -/
def generatorFrom (p : Nat) (factors : List Nat) : Nat → Nat → Except Exn Int
  | 0, _ => .error ⟨.noRoot, 0⟩
  | fuel + 1, g =>
    if p ≤ g then .error ⟨.noRoot, 0⟩
    else if isGenerator p factors g then .ok g
    else generatorFrom p factors fuel (g + 1)

/-- `findGenerator(p)`: the smallest generator in `[2, p)` (rule R154). -/
def findGenerator (p : Int) : Except Exn Int := do
  require (isPrime p) .modulusNotPrime
  generatorFrom p.toNat (primeFactors (p.toNat - 1)) p.toNat 2

/-- `rootOfUnity(n, p)` (rule R155): `g^((p−1)/n) mod p`, `g` the smallest generator. -/
def rootOfUnity (n p : Int) : Except Exn Int := do
  require (isPrime p) .modulusNotPrime
  require (1 ≤ n ∧ fmod (p - 1) n = 0) .noRoot
  let g ← findGenerator p
  modExp g ((p - 1) / n) p

end Sys2Proof.Machine
end

