-- ==== Sys2Proof/Machine/Zp.lean ====
section
/-! DEFINITION. Zp: family 2, one word-sized prime field (spec/42_zp64.md). Sums and products are of
mathematical integers, so none wraps before its reduction (rule R182). -/

namespace Sys2Proof.Machine

/-- The prime of the slot as an integer (rule R180). -/
def ZpCtx.modulus (c : ZpCtx) : Int := sint c.p

/-- `norm(a) = fmod(a, p)` (rule R181). -/
def norm (p a : Int) : Int := fmod a p

/-- The fields of a `ZP` slot built on the prime `p` (rules R42, R183). -/
def buildZp (p : Int) : ZpCtx := { p := u64 p, bits := u64 (bitLength p.toNat) }

/-- `ZP.INIT xa` (rule R183). -/
def execZpInit (ra : XReg) (s : State) : Host.Outcome State Fault Refusal :=
  finish (.zpInit ra) s do
    let p := s.xInt ra
    require (2 ≤ p) .badParameter 0
    require (isPrime p) .modulusNotPrime
    return { s with zp := some (buildZp p) }

/-- `ZP.ADD xd, xa, xb` (rule R184). -/
def execZpAdd (rd ra rb : XReg) (s : State) : Host.Outcome State Fault Refusal :=
  finish (.zpAdd rd ra rb) s do
    let p := (← needSlot s.zp 0).modulus
    return s.writeX rd (u64 (fmod (norm p (s.xInt ra) + norm p (s.xInt rb)) p))

/-- `ZP.SUB xd, xa, xb` (rule R185). -/
def execZpSub (rd ra rb : XReg) (s : State) : Host.Outcome State Fault Refusal :=
  finish (.zpSub rd ra rb) s do
    let p := (← needSlot s.zp 0).modulus
    return s.writeX rd (u64 (fmod (norm p (s.xInt ra) - norm p (s.xInt rb)) p))

/-- `ZP.MUL xd, xa, xb` (rule R186). -/
def execZpMul (rd ra rb : XReg) (s : State) : Host.Outcome State Fault Refusal :=
  finish (.zpMul rd ra rb) s do
    let p := (← needSlot s.zp 0).modulus
    return s.writeX rd (u64 (fmod (norm p (s.xInt ra) * norm p (s.xInt rb)) p))

/-- `ZP.EXP xd, xa, xb` (rule R187). -/
def execZpExp (rd ra rb : XReg) (s : State) : Host.Outcome State Fault Refusal :=
  finish (.zpExp rd ra rb) s do
    let p := (← needSlot s.zp 0).modulus
    let e := s.xInt rb
    require (0 ≤ e) .badOperand
    let t ← modExp (s.xInt ra) e p
    return s.writeX rd (u64 t)

/-- `ZP.INV xd, xa` (rule R188). -/
def execZpInv (rd ra : XReg) (s : State) : Host.Outcome State Fault Refusal :=
  finish (.zpInv rd ra) s do
    let p := (← needSlot s.zp 0).modulus
    let a := norm p (s.xInt ra)
    require (a ≠ 0) .notInvertible
    let t ← modInv a p
    return s.writeX rd (u64 t)

/-- `ZP.ROOT xd, xa` (rule R189). -/
def execZpRoot (rd ra : XReg) (s : State) : Host.Outcome State Fault Refusal :=
  finish (.zpRoot rd ra) s do
    let p := (← needSlot s.zp 0).modulus
    let n := s.xInt ra
    require (1 ≤ n ∧ fmod (p - 1) n = 0) .noRoot
    require (p ≠ 2) .noRoot
    let t ← rootOfUnity n p
    return s.writeX rd (u64 t)

/-- `ZP.GEN xd` (rule R190). -/
def execZpGen (rd : XReg) (s : State) : Host.Outcome State Fault Refusal :=
  finish (.zpGen rd) s do
    let p := (← needSlot s.zp 0).modulus
    require (p ≠ 2) .noRoot
    let t ← findGenerator p
    return s.writeX rd (u64 t)

end Sys2Proof.Machine
end

