-- ==== Sys2Proof/Machine/Ntt.lean ====
section
/-! DEFINITION. Ntt: family 3, the negacyclic number-theoretic transform (spec/43_ntt.md). -/

namespace Sys2Proof.Machine

/-- `[root^0 mod p, …, root^(n−1) mod p]`, a table in natural order (rule R212). -/
def powerTable (root p : Int) (n : Nat) : List Int :=
  (List.range n).map fun k => (powMod root.toNat k p.toNat : Nat)

/-- The fields of an `NTT` slot built on `(N, p)` (rules R211, R212, R214). -/
def buildNtt (n p : Int) : Except Exn NttCtx := do
  let psi ← rootOfUnity (2 * n) p
  let psiinv ← modInv psi p
  let ninv ← modInv n p
  return { n := u64 n, p := u64 p, psi := u64 psi, psiinv := u64 psiinv, ninv := u64 ninv,
           rou := (powerTable psi p n.toNat).map u64, rouinv := (powerTable psiinv p n.toNat).map u64 }

/-- `ω_T = T[1]² mod p`, and 1 when the table has one entry only (rule R213). -/
def omegaOf (p : Int) (table : List Int) : Int :=
  match table with
  | _ :: t1 :: _ => fmod (t1 * t1) p
  | _ => 1

/-- The value of the polynomial with coefficients `a`, constant term first, at `x` modulo `p`: the sum
`Σ norm(a[j]) · x^j` of rule R213 in Horner's order. -/
def polyAt (p x : Int) (a : List Int) : Int := a.foldr (fun c acc => fmod (norm p c + x * acc) p) 0

/-- `ntt(a, T)` (rule R213): output `k` is the value of `a` at `ω_T^k`, natural order in and out, unscaled. -/
def transform (p : Int) (table a : List Int) : List Int :=
  (List.range a.length).map fun k =>
    polyAt p (powMod (omegaOf p table).toNat k p.toNat : Nat) a

/-- Elementwise product modulo `p` of two vectors, operands normalized (rules R181, R186, R218). -/
def pointwise (p : Int) (a b : List Int) : List Int :=
  List.zipWith (fun u t => fmod (norm p u * norm p t) p) a b

/-- The prime of the slot as an integer (rule R210). -/
def NttCtx.modulus (c : NttCtx) : Int := sint c.p

/-- `nttForward` (rule R216): twist by `ψ^i`, then the transform over `rou`. -/
def nttForward (c : NttCtx) (a : List Int) : List Int :=
  transform c.modulus (c.rou.map sint) (pointwise c.modulus a (c.rou.map sint))

/-- `nttInverse` (rule R217): the transform over `rouinv`, then scale by `N⁻¹` and untwist by `ψ^(−i)`. -/
def nttInverse (c : NttCtx) (y : List Int) : List Int :=
  List.zipWith (fun u t => fmod (u * sint c.ninv * t) c.modulus)
    (transform c.modulus (c.rouinv.map sint) y) (c.rouinv.map sint)

/-- The length check of a vector source, `LENGTH_MISMATCH(size)` (rules R210, R291, R373). -/
def needSize (b : Buffer) (n : Nat) : Except Exn Unit := require (b.size = n) .lengthMismatch (u64 b.size)

/-- `NTT.INIT xa, xb` (rule R214). -/
def execNttInit (ra rb : XReg) (s : State) : Host.Outcome State Fault Refusal :=
  finish (.nttInit ra rb) s do
    let n := s.xInt ra
    let p := s.xInt rb
    require (1 ≤ n ∧ isPowerOfTwo n.toNat ∧ n ≤ s.build.nMax) .badParameter 0
    require (2 ≤ p) .badParameter 1
    require (isPrime p) .modulusNotPrime
    require (fmod (p - 1) (2 * n) = 0) .noRoot
    let c ← buildNtt n p
    return { s with ntt := some c }

/-- `NTT.RAW vd, sel` (rule R215). -/
def execNttRaw (rd : VReg) (sel : Bool) (s : State) : Host.Outcome State Fault Refusal :=
  finish (.nttRaw rd sel) s do
    let c ← needSlot s.ntt 1
    needSize s.v[rd] c.n.toNat
    let table := if sel then c.rouinv else c.rou
    vecAssign s rd (transform c.modulus (table.map sint) (s.elems rd))

/-- `NTT.FWD vd` (rule R216). -/
def execNttFwd (rd : VReg) (s : State) : Host.Outcome State Fault Refusal :=
  finish (.nttFwd rd) s do
    let c ← needSlot s.ntt 1
    needSize s.v[rd] c.n.toNat
    vecAssign s rd (nttForward c (s.elems rd))

/-- `NTT.INV vd` (rule R217). -/
def execNttInv (rd : VReg) (s : State) : Host.Outcome State Fault Refusal :=
  finish (.nttInv rd) s do
    let c ← needSlot s.ntt 1
    needSize s.v[rd] c.n.toNat
    vecAssign s rd (nttInverse c (s.elems rd))

/-- `NTT.PMUL vd, va, vb` (rule R218). -/
def execNttPmul (rd ra rb : VReg) (s : State) : Host.Outcome State Fault Refusal :=
  finish (.nttPmul rd ra rb) s do
    let c ← needSlot s.ntt 1
    needSize s.v[ra] c.n.toNat
    needSize s.v[rb] c.n.toNat
    vecAssign s rd (pointwise c.modulus (s.elems ra) (s.elems rb))

end Sys2Proof.Machine
end

