-- ==== Sys2Proof/Machine/Crt.lean ====
section
/-! DEFINITION. Crt: family 4, residues over a generated set of primes (spec/44_crt.md). -/

namespace Sys2Proof.Machine

/-- The least `k ≥ 1` with `k·2d + 1 > 2^s`, where the prime search starts (rule R241). -/
def searchStart (s d : Nat) : Nat := max 1 ((2 ^ s + (2 * d - 1)) / (2 * d))

/-- The prime search of rule R241 from `k` upward: `want` primes `k·2d + 1` below 2^63, `found` so far. -/
def searchPrimes (d want : Nat) : Nat → Nat → List Nat → Except Exn (List Nat)
  | 0, _, found => .error ⟨.noPrimeFound, u64 found.length⟩
  | fuel + 1, k, found =>
    if found.length < want then
      let c := k * 2 * d + 1
      if c < 2 ^ 63 then
        searchPrimes d want fuel (k + 1) (if isPrime c then found ++ [c] else found)
      else .error ⟨.noPrimeFound, u64 found.length⟩
    else .ok found

/-- The primes of a context with these parameters (rule R241). Every candidate is at least its `k`, so the
search ends before 2^63 candidates are tried. -/
def generatePrimes (n s d : Nat) : Except Exn (List Nat) := searchPrimes d n (2 ^ 63) (searchStart s d) []

/-- The fields of a `CRT` slot built on these parameters (rules R241, R242, R248). -/
def buildCrt (b : Build) (n s d : Int) : Except Exn CrtCtx := do
  let primes ← generatePrimes n.toNat s.toNat d.toNat
  let bigM := primes.foldr (· * ·) 1
  require (bigM < 2 ^ (b.wideW - 1)) .wideOverflow
  let miInv ← primes.mapM fun q => modInv (fmod ((bigM / q : Nat) : Int) q) q
  return { numPrimes := u64 n, primeSize := u64 s, degree := u64 d,
           limbs := u64 ((bitLength bigM + 63) / 64 : Nat)
           primes := primes.map fun q : Nat => u64 q, miInv := miInv.map u64,
           bigM := ofWideNat bigM, mi := primes.map fun q => ofWideNat (bigM / q : Nat) }

/-- `crt(value)`: one residue per prime, the floor modulo (rule R243). -/
def residues (c : CrtCtx) (value : Int) : List Int := c.primes.map fun q => fmod value (sint q)

/-- `Σ r[i] · Mi[i] · MiInv[i]`, exact (rule R244). -/
def crtSum : List Int → List Wide → List Word → Int
  | r :: rs, m :: ms, y :: ys => r * m.toNat * sint y + crtSum rs ms ys
  | _, _, _ => 0

/-- `reconstruct(residues)` (rule R244). -/
def reconstruct (c : CrtCtx) (r : List Int) : Int := fmod (crtSum r c.mi c.miInv) c.bigM.toNat

/-- `CRT.INIT xa, xb, xc` (rule R242). -/
def execCrtInit (ra rb rc : XReg) (s : State) : Host.Outcome State Fault Refusal :=
  finish (.crtInit ra rb rc) s do
    let n := s.xInt ra
    let size := s.xInt rb
    let d := s.xInt rc
    require (1 ≤ n ∧ n ≤ s.build.nPrimeMax) .badParameter 0
    require (0 ≤ size ∧ size ≤ 62) .badParameter 1
    require (1 ≤ d ∧ isPowerOfTwo d.toNat ∧ d ≤ s.build.nMax) .badParameter 2
    let c ← buildCrt s.build n size d
    return { s with crt := some c }

/-- `CRT.ENC vd, wa` (rule R243). -/
def execCrtEnc (rd : VReg) (ra : WReg) (s : State) : Host.Outcome State Fault Refusal :=
  finish (.crtEnc rd ra) s do
    let c ← needSlot s.crt 2
    vecAssign s rd (residues c (s.wInt ra))

/-- `CRT.DEC wd, va` (rule R244). -/
def execCrtDec (rd : WReg) (ra : VReg) (s : State) : Host.Outcome State Fault Refusal :=
  finish (.crtDec rd ra) s do
    let c ← needSlot s.crt 2
    needSize s.v[ra] c.numPrimes.toNat
    storeWide s rd (reconstruct c (s.elems ra))

/-- `CRT.PRIMES vd` (rule R245). -/
def execCrtPrimes (rd : VReg) (s : State) : Host.Outcome State Fault Refusal :=
  finish (.crtPrimes rd) s do
    let c ← needSlot s.crt 2
    vecAssign s rd (c.primes.map sint)

/-- `CRT.MOD wd` (rule R246). -/
def execCrtMod (rd : WReg) (s : State) : Host.Outcome State Fault Refusal :=
  finish (.crtMod rd) s do
    let c ← needSlot s.crt 2
    return s.writeW rd c.bigM

end Sys2Proof.Machine
end

