-- ==== Sys2Proof/Machine/DynArray.lean ====
section
/-! DEFINITION. DynArray: family 8, buffer extent and elements (spec/48_dynarray.md). -/

namespace Sys2Proof.Machine

/-- `resize(n)` on a buffer (rule R343): prior elements kept, new ones zero, capacity grown to `n` if below. -/
def Buffer.resize (b : Buffer) (n : Nat) : Buffer :=
  { elems := b.elems.take n ++ List.replicate (n - b.size) 0, cap := max b.cap n }

/-- `reserve(c)` on a buffer (rule R344). -/
def Buffer.reserve (b : Buffer) (c : Nat) : Buffer := { b with cap := max b.cap c }

/-- `shrinkToFit()` on a buffer (rule R345). -/
def Buffer.shrink (b : Buffer) : Buffer := { b with cap := b.size }

/-- The bounds rule for `VAT` and `VSET` (rule R346): the index, when `0 ≤ i < size`. -/
def boundedIndex (b : Buffer) (i : Word) : Except Exn Nat := do
  require (0 ≤ sint i ∧ sint i < b.size) .indexOutOfRange i
  return (sint i).toNat

/-- `VSIZE xd, va` (rule R340). -/
def execVsize (rd : XReg) (ra : VReg) (s : State) : Host.Outcome State Fault Refusal :=
  finish (.vsize rd ra) s (.ok (s.writeX rd (u64 s.v[ra].size)))

/-- `VCAP xd, va` (rule R341). -/
def execVcap (rd : XReg) (ra : VReg) (s : State) : Host.Outcome State Fault Refusal :=
  finish (.vcap rd ra) s (.ok (s.writeX rd (u64 s.v[ra].cap)))

/-- `VEMPTY xd, va` (rule R342). -/
def execVempty (rd : XReg) (ra : VReg) (s : State) : Host.Outcome State Fault Refusal :=
  finish (.vempty rd ra) s (.ok (s.writeX rd (boolWord (s.v[ra].size == 0))))

/-- `VRESIZE vd, xa` (rule R343). -/
def execVresize (rd : VReg) (ra : XReg) (s : State) : Host.Outcome State Fault Refusal :=
  finish (.vresize rd ra) s do
    let n := s.xInt ra
    require (0 ≤ n) .badOperand
    require (n ≤ s.build.vcapMax) .capacityExceeded (u64 n)
    return s.writeV rd (s.v[rd].resize n.toNat)

/-- `VRESERVE vd, xa` (rule R344). -/
def execVreserve (rd : VReg) (ra : XReg) (s : State) : Host.Outcome State Fault Refusal :=
  finish (.vreserve rd ra) s do
    let c := s.xInt ra
    require (0 ≤ c) .badOperand
    require (c ≤ s.build.vcapMax) .capacityExceeded (u64 c)
    return s.writeV rd (s.v[rd].reserve c.toNat)

/-- `VSHRINK vd` (rule R345). -/
def execVshrink (rd : VReg) (s : State) : Host.Outcome State Fault Refusal :=
  finish (.vshrink rd) s (.ok (s.writeV rd s.v[rd].shrink))

/-- `VAT xd, va, xb` (rule R347). -/
def execVat (rd : XReg) (ra : VReg) (rb : XReg) (s : State) : Host.Outcome State Fault Refusal :=
  finish (.vat rd ra rb) s do
    let k ← boundedIndex s.v[ra] s.x[rb]
    return s.writeX rd ((s.v[ra].read k).getD 0)

/-- `VSET vd, xa, xb` (rule R348). -/
def execVset (rd : VReg) (ra rb : XReg) (s : State) : Host.Outcome State Fault Refusal :=
  finish (.vset rd ra rb) s do
    let k ← boundedIndex s.v[rd] s.x[ra]
    return s.writeV rd (s.v[rd].write k s.x[rb])

end Sys2Proof.Machine
end

