-- ==== Sys2Proof/Machine/Galois.lean ====
section
/-! DEFINITION. Galois: family 5, rotation steps, Galois elements and storage indices
(spec/45_galois.md). -/

namespace Sys2Proof.Machine

/-- `GAL.N` as an integer (rule R270). -/
def GalCtx.dim (c : GalCtx) : Int := sint c.n

/-- `eltFromStep(step, N)` (rule R271): only the literal step 0 is the conjugation `2N − 1`. -/
def eltFromStep (step n : Int) : Except Exn Int :=
  if step = 0 then .ok (2 * n - 1) else modExp 3 (fmod step (n / 2)) (2 * n)

/-- `GAL.INIT xa` (rule R272). -/
def execGalInit (ra : XReg) (s : State) : Host.Outcome State Fault Refusal :=
  finish (.galInit ra) s do
    let n := s.xInt ra
    require (2 ≤ n ∧ isPowerOfTwo n.toNat ∧ n ≤ s.build.nMax) .badParameter 0
    return { s with gal := some ⟨u64 n⟩ }

/-- `GAL.ELT xd, xa` (rule R273). -/
def execGalElt (rd ra : XReg) (s : State) : Host.Outcome State Fault Refusal :=
  finish (.galElt rd ra) s do
    let c ← needSlot s.gal 3
    let e ← eltFromStep (s.xInt ra) c.dim
    return s.writeX rd (u64 e)

/-- `GAL.ELTS vd, va` (rule R274). -/
def execGalElts (rd ra : VReg) (s : State) : Host.Outcome State Fault Refusal :=
  finish (.galElts rd ra) s do
    let c ← needSlot s.gal 3
    let es ← (s.elems ra).mapM fun step => eltFromStep step c.dim
    vecAssign s rd es

/-- `GAL.IDX xd, xa` (rule R275). -/
def execGalIdx (rd ra : XReg) (s : State) : Host.Outcome State Fault Refusal :=
  finish (.galIdx rd ra) s do
    let c ← needSlot s.gal 3
    let e := s.xInt ra
    require (1 ≤ e ∧ e < 2 * c.dim ∧ e % 2 = 1) .indexOutOfRange s.x[ra]
    return s.writeX rd (u64 ((e - 1) / 2))

/-- `GAL.ALL vd` (rule R276): the parameter's list, which the spec fixes at `N = 8` only (log entry 6). -/
def execGalAll (rd : VReg) (s : State) : Host.Outcome State Fault Refusal :=
  finish (.galAll rd) s do
    let c ← needSlot s.gal 3
    vecAssign s rd ((Config.galoisEltsAll s.build c.n.toNat).map sint)

end Sys2Proof.Machine
end

