-- ==== Sys2Proof/Machine/Housekeeping.lean ====
section
/-! DEFINITION. Housekeeping: family 0 (spec/40_housekeeping.md). -/

namespace Sys2Proof.Machine

/-- `NOP` (rule R130). -/
def execNop (s : State) : Host.Outcome State Fault Refusal := finish .nop s (.ok s)

/-- `LI xd, imm` (rule R131). -/
def execLi (rd : XReg) (imm : BitVec 16) (s : State) : Host.Outcome State Fault Refusal :=
  finish (.li rd imm) s (.ok (s.writeX rd (sext16 imm)))

/-- `LSI xd, imm` (rule R132): the old pattern times 65536, plus the zero-extended immediate, modulo 2^64. -/
def execLsi (rd : XReg) (imm : BitVec 16) (s : State) : Host.Outcome State Fault Refusal :=
  finish (.lsi rd imm) s (.ok (s.writeX rd (u64 (s.x[rd].toNat * 65536 + imm.toNat))))

/-- `MOV xd, xa` (rule R133). -/
def execMov (rd ra : XReg) (s : State) : Host.Outcome State Fault Refusal :=
  finish (.mov rd ra) s (.ok (s.writeX rd s.x[ra]))

/-- `WMOV wd, wa` (rule R134). -/
def execWmov (rd ra : WReg) (s : State) : Host.Outcome State Fault Refusal :=
  finish (.wmov rd ra) s (.ok (s.writeW rd s.w[ra]))

/-- `WSETX wd, xa` (rule R135). -/
def execWsetx (rd : WReg) (ra : XReg) (s : State) : Host.Outcome State Fault Refusal :=
  finish (.wsetx rd ra) s (.ok (s.writeW rd (widen s.build s.x[ra])))

/-- `WGETX xd, wa` (rule R136). -/
def execWgetx (rd : XReg) (ra : WReg) (s : State) : Host.Outcome State Fault Refusal :=
  finish (.wgetx rd ra) s do
    require (fitsMachine (s.wInt ra)) .wideOverflow
    return s.writeX rd (u64 (s.wInt ra))

/-- `VMOV vd, va` (rule R137). -/
def execVmov (rd ra : VReg) (s : State) : Host.Outcome State Fault Refusal :=
  finish (.vmov rd ra) s (vecAssign s rd (s.elems ra))

end Sys2Proof.Machine
end

