-- ==== Sys2Proof/Machine/NumberTheory.lean ====
section
/-! DEFINITION. NumberTheory: family 1, the functions of Machine/Arith.lean on wide registers
(spec/41_numbertheory.md rules R156 to R160). -/

namespace Sys2Proof.Machine

/-- `NT.MODINV wd, wa, wb` (rule R156). -/
def execNtModinv (rd ra rb : WReg) (s : State) : Host.Outcome State Fault Refusal :=
  finish (.ntModinv rd ra rb) s do
    let t ← modInv (s.wInt ra) (s.wInt rb)
    storeWide s rd t

/-- `NT.MODEXP wd, wa, wb, wc` (rule R157). -/
def execNtModexp (rd ra rb rc : WReg) (s : State) : Host.Outcome State Fault Refusal :=
  finish (.ntModexp rd ra rb rc) s do
    let t ← modExp (s.wInt ra) (s.wInt rb) (s.wInt rc)
    storeWide s rd t

/-- `NT.ISPRIME xd, wa` (rule R158). -/
def execNtIsprime (rd : XReg) (ra : WReg) (s : State) : Host.Outcome State Fault Refusal :=
  finish (.ntIsprime rd ra) s (.ok (s.writeX rd (boolWord (isPrime (s.wInt ra)))))

/-- `NT.ROOT wd, wa, wb` (rule R159). -/
def execNtRoot (rd ra rb : WReg) (s : State) : Host.Outcome State Fault Refusal :=
  finish (.ntRoot rd ra rb) s do
    let t ← rootOfUnity (s.wInt ra) (s.wInt rb)
    storeWide s rd t

/-- `NT.FINDGEN wd, wa` (rule R160). -/
def execNtFindgen (rd ra : WReg) (s : State) : Host.Outcome State Fault Refusal :=
  finish (.ntFindgen rd ra) s do
    let t ← findGenerator (s.wInt ra)
    storeWide s rd t

end Sys2Proof.Machine
end

