-- ==== Sys2Proof/Machine/Poly.lean ====
section
/-! DEFINITION. Poly: family 6, coefficient vectors added, subtracted and multiplied in three ways
(spec/46_polynomial.md). -/

namespace Sys2Proof.Machine

/-- Coefficient `k` of a vector; the rules read it below its length only (rule R290). -/
def coeff (a : List Int) (k : Nat) : Int := a.getD k 0

/-- `negacyclicZ(a, b)[k]` of rule R292 for vectors of length `n`: the terms with `i + j = k`, less the
terms with `i + j = k + n`. -/
def negacyclicCoeff (n : Nat) (a b : List Int) (k : Nat) : Int :=
  ((List.range n).map fun i =>
    if i ≤ k then coeff a i * coeff b (k - i) else -(coeff a i * coeff b (k + n - i))).sum

/-- `negacyclicZ(a, b)`: the exact product modulo `x^n + 1` (rule R292). -/
def negacyclicZ (a b : List Int) : List Int :=
  (List.range a.length).map (negacyclicCoeff a.length a b)

/-- `negacyclic(a, b, m)` (rule R292). -/
def negacyclic (a b : List Int) (m : Int) : List Int := (negacyclicZ a b).map fun c => fmod c m

/-- The checks of the three commands with a modulus register (rule R291), and that modulus. -/
def polyModulus (s : State) (ra rb : VReg) (rc : XReg) : Except Exn Int := do
  require (s.v[ra].size = s.v[rb].size) .lengthMismatch (u64 s.v[rb].size)
  require (1 ≤ s.xInt rc) .badOperand
  return s.xInt rc

/-- `POLY.ADD vd, va, vb, xc` (rule R293). -/
def execPolyAdd (rd ra rb : VReg) (rc : XReg) (s : State) : Host.Outcome State Fault Refusal :=
  finish (.polyAdd rd ra rb rc) s do
    let m ← polyModulus s ra rb rc
    vecAssign s rd (List.zipWith (fun a b => fmod (a + b) m) (s.elems ra) (s.elems rb))

/-- `POLY.SUB vd, va, vb, xc` (rule R294). -/
def execPolySub (rd ra rb : VReg) (rc : XReg) (s : State) : Host.Outcome State Fault Refusal :=
  finish (.polySub rd ra rb rc) s do
    let m ← polyModulus s ra rb rc
    vecAssign s rd (List.zipWith (fun a b => fmod (a - b) m) (s.elems ra) (s.elems rb))

/-- `POLY.MUL vd, va, vb, xc` (rule R295). -/
def execPolyMul (rd ra rb : VReg) (rc : XReg) (s : State) : Host.Outcome State Fault Refusal :=
  finish (.polyMul rd ra rb rc) s do
    let m ← polyModulus s ra rb rc
    vecAssign s rd (negacyclic (s.elems ra) (s.elems rb) m)

/-- `POLY.MULN vd, va, vb` (rule R296): the product through the `NTT` slot, on copies. -/
def execPolyMuln (rd ra rb : VReg) (s : State) : Host.Outcome State Fault Refusal :=
  finish (.polyMuln rd ra rb) s do
    let c ← needSlot s.ntt 1
    needSize s.v[ra] c.n.toNat
    needSize s.v[rb] c.n.toNat
    let prod := pointwise c.modulus (nttForward c (s.elems ra)) (nttForward c (s.elems rb))
    vecAssign s rd (nttInverse c prod)

/-- The coefficients of `POLY.MULC` (rule R297): the product modulo each prime, by form (b), which the rule
gives as `negacyclic` modulo that prime, reconstructed coefficient by coefficient. -/
def crtProduct (c : CrtCtx) (a b : List Int) : List Int :=
  let products := c.primes.map fun q => negacyclic a b (sint q)
  (List.range a.length).map fun k => reconstruct c (products.map fun r => coeff r k)

/-- `POLY.MULC vd, va, vb` (rule R297): `CRT.limbs` little-endian limbs per coefficient. -/
def execPolyMulc (rd ra rb : VReg) (s : State) : Host.Outcome State Fault Refusal :=
  finish (.polyMulc rd ra rb) s do
    let c ← needSlot s.crt 2
    let n := c.degree.toNat
    let l := c.limbs.toNat
    needSize s.v[ra] n
    needSize s.v[rb] n
    require (n * l ≤ s.build.vcapMax) .capacityExceeded (u64 (n * l : Nat))
    vecAssign s rd ((crtProduct c (s.elems ra) (s.elems rb)).flatMap fun z => limbsOf l z.toNat)

/-- `POLY.EQ xd, va, vb` (rule R298): sizes and 64-bit patterns. -/
def execPolyEq (rd : XReg) (ra rb : VReg) (s : State) : Host.Outcome State Fault Refusal :=
  finish (.polyEq rd ra rb) s
    (.ok (s.writeX rd (boolWord (s.v[ra].elems == s.v[rb].elems))))

end Sys2Proof.Machine
end

