-- ==== Sys2Proof/Machine/RandomSample.lean ====
section
/-! DEFINITION. RandomSample: family 7, the samplers (spec/47_randomsample.md). A draw is a free value:
the answers `f` of the randomness source, folded into the set of the command's rule so that every member
of the set, and no other list, is a result for some `f` (rule R320; log entry 4). -/

namespace Sys2Proof.Machine

/-- The answers the randomness source gives to the next draw, one free number per sample (rule R46). -/
def State.source (s : State) : Nat → Nat := Config.freeDraw s.draws

/-- A draw of `RND.HWT` (rule R321): a list of `n` entries in −1, 0 and 1, exactly `h` of them nonzero. The
entry is zero when no nonzero one is left to place, nonzero when every place left needs one, and free
otherwise. -/
def drawTernary (f : Nat → Nat) : Nat → Nat → List Int
  | 0, _ => []
  | n + 1, h =>
    if h = 0 ∨ (h ≤ n ∧ f n % 3 = 0) then 0 :: drawTernary f n h
    else (if f n % 3 = 1 then 1 else -1) :: drawTernary f n (h - 1)

/-- A draw of `RND.TRI` (rule R322): `n` integers in `[−bound, bound]`. -/
def drawCentered (f : Nat → Nat) (bound n : Nat) : List Int :=
  (List.range n).map fun k => ((f k % (2 * bound + 1) : Nat) : Int) - bound

/-- A draw of `RND.UNI` (rule R323): `n` integers in `[lo, hi)`, a range that is not empty. -/
def drawRange (f : Nat → Nat) (lo hi : Int) (n : Nat) : List Int :=
  (List.range n).map fun k => lo + ((f k % (hi - lo).toNat : Nat) : Int)

/-- Write the samples of a draw, which the source has then answered (rules R31, R320). -/
def storeDraw (s : State) (r : VReg) (l : List Int) : Except Exn State := do
  let t ← vecAssign s r l
  return { t with draws := t.draws + 1 }

/-- `RND.HWT vd, xa, xb` (rule R321). -/
def execRndHwt (rd : VReg) (ra rb : XReg) (s : State) : Host.Outcome State Fault Refusal :=
  finish (.rndHwt rd ra rb) s do
    let n := s.xInt ra
    let h := s.xInt rb
    require (0 ≤ n) .badOperand
    require (0 ≤ h ∧ h ≤ n) .badOperand
    require (n ≤ s.build.vcapMax) .capacityExceeded (u64 n)
    storeDraw s rd (drawTernary s.source n.toNat h.toNat)

/-- `RND.TRI vd, xa` (rule R322). -/
def execRndTri (rd : VReg) (ra : XReg) (s : State) : Host.Outcome State Fault Refusal :=
  finish (.rndTri rd ra) s do
    let n := s.xInt ra
    require (0 ≤ n) .badOperand
    require (n ≤ s.build.vcapMax) .capacityExceeded (u64 n)
    storeDraw s rd (drawCentered s.source (Config.triBound s.build) n.toNat)

/-- `RND.UNI vd, xa, xb, xc` (rule R323). -/
def execRndUni (rd : VReg) (ra rb rc : XReg) (s : State) : Host.Outcome State Fault Refusal :=
  finish (.rndUni rd ra rb rc) s do
    let lo := s.xInt ra
    let hi := s.xInt rb
    let n := s.xInt rc
    require (0 ≤ lo) .badOperand
    require (lo < hi) .badOperand
    require (0 ≤ n) .badOperand
    require (n ≤ s.build.vcapMax) .capacityExceeded (u64 n)
    storeDraw s rd (drawRange s.source lo hi n.toNat)

end Sys2Proof.Machine
end

