-- ==== Sys2Proof/Machine/Dispatch.lean ====
section
/-! DEFINITION. Dispatch: one arm per command, each one call of its meaning. -/

namespace Sys2Proof.Machine

def exec (i : Instr) (s : State) : Host.Outcome State Fault Refusal :=
  match i with
  | .nop => Sys2Proof.Machine.execNop s
  | .li rd imm => Sys2Proof.Machine.execLi rd imm s
  | .lsi rd imm => Sys2Proof.Machine.execLsi rd imm s
  | .mov rd ra => Sys2Proof.Machine.execMov rd ra s
  | .wmov rd ra => Sys2Proof.Machine.execWmov rd ra s
  | .wsetx rd ra => Sys2Proof.Machine.execWsetx rd ra s
  | .wgetx rd ra => Sys2Proof.Machine.execWgetx rd ra s
  | .vmov rd ra => Sys2Proof.Machine.execVmov rd ra s
  | .ntModinv rd ra rb => Sys2Proof.Machine.execNtModinv rd ra rb s
  | .ntModexp rd ra rb rc => Sys2Proof.Machine.execNtModexp rd ra rb rc s
  | .ntIsprime rd ra => Sys2Proof.Machine.execNtIsprime rd ra s
  | .ntRoot rd ra rb => Sys2Proof.Machine.execNtRoot rd ra rb s
  | .ntFindgen rd ra => Sys2Proof.Machine.execNtFindgen rd ra s
  | .zpInit ra => Sys2Proof.Machine.execZpInit ra s
  | .zpAdd rd ra rb => Sys2Proof.Machine.execZpAdd rd ra rb s
  | .zpSub rd ra rb => Sys2Proof.Machine.execZpSub rd ra rb s
  | .zpMul rd ra rb => Sys2Proof.Machine.execZpMul rd ra rb s
  | .zpExp rd ra rb => Sys2Proof.Machine.execZpExp rd ra rb s
  | .zpInv rd ra => Sys2Proof.Machine.execZpInv rd ra s
  | .zpRoot rd ra => Sys2Proof.Machine.execZpRoot rd ra s
  | .zpGen rd => Sys2Proof.Machine.execZpGen rd s
  | .nttInit ra rb => Sys2Proof.Machine.execNttInit ra rb s
  | .nttRaw rd sel => Sys2Proof.Machine.execNttRaw rd sel s
  | .nttFwd rd => Sys2Proof.Machine.execNttFwd rd s
  | .nttInv rd => Sys2Proof.Machine.execNttInv rd s
  | .nttPmul rd ra rb => Sys2Proof.Machine.execNttPmul rd ra rb s
  | .crtInit ra rb rc => Sys2Proof.Machine.execCrtInit ra rb rc s
  | .crtEnc rd ra => Sys2Proof.Machine.execCrtEnc rd ra s
  | .crtDec rd ra => Sys2Proof.Machine.execCrtDec rd ra s
  | .crtPrimes rd => Sys2Proof.Machine.execCrtPrimes rd s
  | .crtMod rd => Sys2Proof.Machine.execCrtMod rd s
  | .galInit ra => Sys2Proof.Machine.execGalInit ra s
  | .galElt rd ra => Sys2Proof.Machine.execGalElt rd ra s
  | .galElts rd ra => Sys2Proof.Machine.execGalElts rd ra s
  | .galIdx rd ra => Sys2Proof.Machine.execGalIdx rd ra s
  | .galAll rd => Sys2Proof.Machine.execGalAll rd s
  | .polyAdd rd ra rb rc => Sys2Proof.Machine.execPolyAdd rd ra rb rc s
  | .polySub rd ra rb rc => Sys2Proof.Machine.execPolySub rd ra rb rc s
  | .polyMul rd ra rb rc => Sys2Proof.Machine.execPolyMul rd ra rb rc s
  | .polyMuln rd ra rb => Sys2Proof.Machine.execPolyMuln rd ra rb s
  | .polyMulc rd ra rb => Sys2Proof.Machine.execPolyMulc rd ra rb s
  | .polyEq rd ra rb => Sys2Proof.Machine.execPolyEq rd ra rb s
  | .rndHwt rd ra rb => Sys2Proof.Machine.execRndHwt rd ra rb s
  | .rndTri rd ra => Sys2Proof.Machine.execRndTri rd ra s
  | .rndUni rd ra rb rc => Sys2Proof.Machine.execRndUni rd ra rb rc s
  | .vsize rd ra => Sys2Proof.Machine.execVsize rd ra s
  | .vcap rd ra => Sys2Proof.Machine.execVcap rd ra s
  | .vempty rd ra => Sys2Proof.Machine.execVempty rd ra s
  | .vresize rd ra => Sys2Proof.Machine.execVresize rd ra s
  | .vreserve rd ra => Sys2Proof.Machine.execVreserve rd ra s
  | .vshrink rd => Sys2Proof.Machine.execVshrink rd s
  | .vat rd ra rb => Sys2Proof.Machine.execVat rd ra rb s
  | .vset rd ra rb => Sys2Proof.Machine.execVset rd ra rb s

end Sys2Proof.Machine
end

