-- ==== Sys2Proof/Machine/HostPort.lean ====
section
/-! DEFINITION. HostPort: the host register space (spec/20_memory.md rules R70 to R77), the accesses of
the host, the reset signal, and which of the host's actions the CORE takes up next. -/

namespace Sys2Proof.Machine

/-- Output signal `busy` (rule R35). -/
def State.busyOut (s : State) : Bool := s.run == .busy

/-- Output signal `fault` (rule R35). -/
def State.faultOut (s : State) : Bool := s.run == .faulted

/-- Error indication `herr` of the last host access (rule R77). -/
def State.herr (s : State) : Bool := s.answer == .refused

/-- `STATUS` (rule R37): bit 0 is `FAULTED`, the rest read as 0. -/
def State.status (s : State) : Word := if s.faultOut then 1 else 0

/-- `CTXV` (rule R41): the four valid bits. -/
def State.ctxv (s : State) : Word :=
  (if s.zp.isSome then 1 else 0) + (if s.ntt.isSome then 2 else 0) +
    (if s.crt.isSome then 4 else 0) + (if s.gal.isSome then 8 else 0)

/-- `HWCFG` (rule R40). -/
def hwcfg (b : Build) : Word :=
  BitVec.ofNat 64 (b.nMax.log2 + b.nPrimeMax * 2 ^ 8 + b.wideW * 2 ^ 16 + b.vcapMax * 2 ^ 32)

/-- `BLKID` (rules R1, R40). -/
def blkid : Word := 0x4D43535542303039

/-- A field of a slot, which reads 0 while the slot is invalid (rule R41). -/
def slotField {α : Type} (slot : Option α) (field : α → Word) : Word :=
  match slot with
  | some c => field c
  | none => 0

/-- `VBASE(i)`, the register number of element 0 of buffer `i` (rule R30). -/
def vbase (i : Nat) : Nat := 0x20000000 + 0x01000000 * i

/-- Region 0 (rule R75): scalar registers, status, fault record, context scalars, buffer extents. -/
def readScalars (s : State) (n : Nat) : Option Word :=
  if h : n < 16 then some s.x[n]
  else if h : 0x60 ≤ n ∧ n < 0x68 then some (u64 (s.v[n - 0x60]'(by omega)).size)
  else if h : 0x68 ≤ n ∧ n < 0x70 then some (u64 (s.v[n - 0x68]'(by omega)).cap)
  else
    match n with
    | 0x10 => some s.status
    | 0x11 => some s.fcause
    | 0x12 => some s.finfo
    | 0x13 => some s.fcmd
    | 0x14 => some s.cseq
    | 0x15 => some s.ctxv
    | 0x16 => some (hwcfg s.build)
    | 0x17 => some blkid
    | 0x20 => some (slotField s.zp ZpCtx.p)
    | 0x21 => some (slotField s.zp ZpCtx.bits)
    | 0x30 => some (slotField s.ntt NttCtx.n)
    | 0x31 => some (slotField s.ntt NttCtx.p)
    | 0x32 => some (slotField s.ntt NttCtx.psi)
    | 0x33 => some (slotField s.ntt NttCtx.psiinv)
    | 0x34 => some (slotField s.ntt NttCtx.ninv)
    | 0x40 => some (slotField s.crt CrtCtx.numPrimes)
    | 0x41 => some (slotField s.crt CrtCtx.primeSize)
    | 0x42 => some (slotField s.crt CrtCtx.degree)
    | 0x43 => some (slotField s.crt CrtCtx.limbs)
    | 0x50 => some (slotField s.gal GalCtx.n)
    | _ => none

/-- Region 1 (rules R26, R75): limb `l` of `w[j]` at offset `0x100·j + l`. -/
def readWideLimb (s : State) (off : Nat) : Option Word :=
  if h : off / 0x100 < 4 then
    if off % 0x100 < s.build.wideLimbs then some (limb s.w[off / 0x100] (off % 0x100)) else none
  else none

/-- Region 2 (rules R30, R75): element `k` of `v[i]` at offset `0x0100_0000·i + k`, below its size. -/
def readElement (s : State) (off : Nat) : Option Word :=
  if h : off / 0x01000000 < 8 then s.v[off / 0x01000000].read (off % 0x01000000) else none

/-- A table of region 3, which exists while its slot is valid (rule R75). -/
def readTable {α : Type} (slot : Option α) (table : α → List Word) (k : Nat) : Option Word :=
  match slot with
  | some c => (table c)[k]?
  | none => none

/-- Limb `l` of `CRT.M`, which reads 0 while the slot is invalid (rules R44, R75). -/
def readBigM (s : State) (l : Nat) : Option Word :=
  if l < s.build.wideLimbs then some (slotField s.crt fun c => limb c.bigM l) else none

/-- Limb `l` of `CRT.Mi[i]` at offset `0x100·i + l` (rules R44, R75). -/
def readCofactor (s : State) (off : Nat) : Option Word :=
  if off % 0x100 < s.build.wideLimbs then
    readTable s.crt (fun c => c.mi.map fun m => limb m (off % 0x100)) (off / 0x100)
  else none

/-- The word at a register number of the host register space; `none` when it is unmapped (rules R72, R75). -/
def readWord (s : State) (a : BitVec 32) : Option Word :=
  let n := a.toNat
  if n < 0x10000000 then readScalars s n
  else if n < 0x20000000 then readWideLimb s (n - 0x10000000)
  else if n < 0x30000000 then readElement s (n - 0x20000000)
  else if n < 0x31000000 then readTable s.ntt NttCtx.rou (n - 0x30000000)
  else if n < 0x32000000 then readTable s.ntt NttCtx.rouinv (n - 0x31000000)
  else if n < 0x33000000 then readTable s.crt CrtCtx.primes (n - 0x32000000)
  else if n < 0x34000000 then readTable s.crt CrtCtx.miInv (n - 0x33000000)
  else if n < 0x35000000 then readBigM s (n - 0x34000000)
  else readCofactor s (n - 0x35000000)

/-- The host writes a mapped register number (rules R75, R76): the RW ranges take the word, `FCAUSE` takes
it as the acknowledge (rule R374), and every other number ignores it. -/
def writeMapped (s : State) (n : Nat) (d : Word) : State :=
  if h : n < 16 then s.writeX ⟨n, h⟩ d
  else if n = 0x11 then s.acknowledge
  else if 0x10000000 ≤ n ∧ n < 0x20000000 then
    let off := n - 0x10000000
    if h : off / 0x100 < 4 then
      s.writeW ⟨off / 0x100, h⟩ (setLimb s.w[off / 0x100] (off % 0x100) d)
    else s
  else if 0x20000000 ≤ n ∧ n < 0x30000000 then
    let off := n - 0x20000000
    if h : off / 0x01000000 < 8 then
      s.writeV ⟨off / 0x01000000, h⟩ (s.v[off / 0x01000000].write (off % 0x01000000) d)
    else s
  else s

/-- A host read (rules R72, R77): the word, or a refusal; nothing but the answer changes (rule R76). -/
def hostRead (s : State) (a : BitVec 32) : State :=
  match readWord s a with
  | some d => { s with answer := .data d }
  | none => { s with answer := .refused }

/-- A host write (rules R72, R76, R77): refused, and nothing written, where the number is unmapped. -/
def hostWrite (s : State) (a : BitVec 32) (d : Word) : State :=
  match readWord s a with
  | some _ => { writeMapped s a.toNat d with answer := .done }
  | none => { s with answer := .refused }

/-- The reset signal (rules R410 to R412): the whole CORE is set to its reset state. What is not of it stays: the
parameters of the build, the host's coming actions and the randomness source's place (log entries 3 and 4). -/
def State.applyReset (s : State) : State :=
  { State.resetOf s.build with host := s.host, draws := s.draws }

/-- An action the CORE takes up while FAULTED: the host port works as in IDLE and the command port takes
nothing (rule R375). -/
def HostAction.takenWhileFaulted : HostAction → Bool
  | .command _ => false
  | _ => true

/-- An action the CORE takes up while BUSY: both ports take nothing, and only reset ends it (rules R71,
R410, R423). -/
def HostAction.takenWhileBusy : HostAction → Bool
  | .rst => true
  | _ => false

/-- The first action that `p` lets through, and the list without it: those before it stay pending. -/
def takeFirst (p : HostAction → Bool) : List HostAction → Option (HostAction × List HostAction)
  | [] => none
  | a :: rest =>
    if p a then some (a, rest)
    else
      match takeFirst p rest with
      | some (b, rest') => some (b, a :: rest')
      | none => none

/-- The host action the CORE takes up next, and the state without it (rules R35, R71, R375, R430); `none`
while there is nothing it can take up. -/
def State.nextAction (s : State) : Option (HostAction × State) :=
  let taken :=
    match s.run with
    | .idle => takeFirst (fun _ => true) s.host
    | .faulted => takeFirst HostAction.takenWhileFaulted s.host
    | .busy => takeFirst HostAction.takenWhileBusy s.host
  match taken with
  | some (a, rest) => some (a, { s with host := rest })
  | none => none

/-- The host presents the command `c` to a CORE that is IDLE, before its other actions. -/
def State.present (s : State) (c : CmdWord) : State :=
  { s with run := .idle, fcause := 0, finfo := 0, fcmd := 0, host := .command c :: s.host }

end Sys2Proof.Machine
end

