-- ==== Sys2Proof/Machine/Step.lean ====
section
/-! DEFINITION. Step: one atomic step of the CORE (spec/70_reset_and_hazards.md rule R430): it takes up one
action of the host. -/

namespace Sys2Proof.Machine

/-- A command handed over in IDLE (rules R100, R108): decoded first, then executed, or rejected as an illegal
command (rules R107, R376). -/
def runCommand (c : CmdWord) (s : State) : Host.Outcome State Fault Refusal :=
  match decode c with
  | .ok i => exec i s
  | .error _ => .next (s.raise c ⟨.illegalCommand, 0⟩)

/-- One step (rule R430). With nothing to take up the CORE waits, and its state does not change (rules R375,
R399). -/
def step (s : State) : Host.Outcome State Fault Refusal :=
  match s.nextAction with
  | none => .next s
  | some (.command c, t) => runCommand c t
  | some (.read a, t) => .next (hostRead t a)
  | some (.write a d, t) => .next (hostWrite t a d)
  | some (.rst, t) => .next t.applyReset

/-- The state with the command whose bits are `w` as the next one its host hands over, the CORE being IDLE so
that the next step executes it (log entry 3). -/
def State.withFetchWord (s : State) (nbits w : Nat) : State :=
  s.present (BitVec.ofNat 32 (w % 2 ^ nbits))

end Sys2Proof.Machine
end

