-- ==== Sys2Proof/Safety.lean ====
section
/-! DEFINITION. Safety: what the statements call a valid slot, a good state, a command's destination and a
safe run. -/

namespace Sys2Proof

/-- The mnemonic of a command, as the opcode table spells it (rule R104). -/
def Instr.mnemonic : Instr → String
  | .nop => "NOP"
  | .li _ _ => "LI"
  | .lsi _ _ => "LSI"
  | .mov _ _ => "MOV"
  | .wmov _ _ => "WMOV"
  | .wsetx _ _ => "WSETX"
  | .wgetx _ _ => "WGETX"
  | .vmov _ _ => "VMOV"
  | .ntModinv _ _ _ => "NT.MODINV"
  | .ntModexp _ _ _ _ => "NT.MODEXP"
  | .ntIsprime _ _ => "NT.ISPRIME"
  | .ntRoot _ _ _ => "NT.ROOT"
  | .ntFindgen _ _ => "NT.FINDGEN"
  | .zpInit _ => "ZP.INIT"
  | .zpAdd _ _ _ => "ZP.ADD"
  | .zpSub _ _ _ => "ZP.SUB"
  | .zpMul _ _ _ => "ZP.MUL"
  | .zpExp _ _ _ => "ZP.EXP"
  | .zpInv _ _ => "ZP.INV"
  | .zpRoot _ _ => "ZP.ROOT"
  | .zpGen _ => "ZP.GEN"
  | .nttInit _ _ => "NTT.INIT"
  | .nttRaw _ _ => "NTT.RAW"
  | .nttFwd _ => "NTT.FWD"
  | .nttInv _ => "NTT.INV"
  | .nttPmul _ _ _ => "NTT.PMUL"
  | .crtInit _ _ _ => "CRT.INIT"
  | .crtEnc _ _ => "CRT.ENC"
  | .crtDec _ _ => "CRT.DEC"
  | .crtPrimes _ => "CRT.PRIMES"
  | .crtMod _ => "CRT.MOD"
  | .galInit _ => "GAL.INIT"
  | .galElt _ _ => "GAL.ELT"
  | .galElts _ _ => "GAL.ELTS"
  | .galIdx _ _ => "GAL.IDX"
  | .galAll _ => "GAL.ALL"
  | .polyAdd _ _ _ _ => "POLY.ADD"
  | .polySub _ _ _ _ => "POLY.SUB"
  | .polyMul _ _ _ _ => "POLY.MUL"
  | .polyMuln _ _ _ => "POLY.MULN"
  | .polyMulc _ _ _ => "POLY.MULC"
  | .polyEq _ _ _ => "POLY.EQ"
  | .rndHwt _ _ _ => "RND.HWT"
  | .rndTri _ _ => "RND.TRI"
  | .rndUni _ _ _ _ => "RND.UNI"
  | .vsize _ _ => "VSIZE"
  | .vcap _ _ => "VCAP"
  | .vempty _ _ => "VEMPTY"
  | .vresize _ _ => "VRESIZE"
  | .vreserve _ _ => "VRESERVE"
  | .vshrink _ => "VSHRINK"
  | .vat _ _ _ => "VAT"
  | .vset _ _ _ => "VSET"

/-- The scalar register a command writes: its `rd` field of class `x` (rules R21, R104). -/
def Instr.xDest : Instr → Option XReg
  | .nop => none
  | .li rd _ => some rd
  | .lsi rd _ => some rd
  | .mov rd _ => some rd
  | .wmov _ _ => none
  | .wsetx _ _ => none
  | .wgetx rd _ => some rd
  | .vmov _ _ => none
  | .ntModinv _ _ _ => none
  | .ntModexp _ _ _ _ => none
  | .ntIsprime rd _ => some rd
  | .ntRoot _ _ _ => none
  | .ntFindgen _ _ => none
  | .zpInit _ => none
  | .zpAdd rd _ _ => some rd
  | .zpSub rd _ _ => some rd
  | .zpMul rd _ _ => some rd
  | .zpExp rd _ _ => some rd
  | .zpInv rd _ => some rd
  | .zpRoot rd _ => some rd
  | .zpGen rd => some rd
  | .nttInit _ _ => none
  | .nttRaw _ _ => none
  | .nttFwd _ => none
  | .nttInv _ => none
  | .nttPmul _ _ _ => none
  | .crtInit _ _ _ => none
  | .crtEnc _ _ => none
  | .crtDec _ _ => none
  | .crtPrimes _ => none
  | .crtMod _ => none
  | .galInit _ => none
  | .galElt rd _ => some rd
  | .galElts _ _ => none
  | .galIdx rd _ => some rd
  | .galAll _ => none
  | .polyAdd _ _ _ _ => none
  | .polySub _ _ _ _ => none
  | .polyMul _ _ _ _ => none
  | .polyMuln _ _ _ => none
  | .polyMulc _ _ _ => none
  | .polyEq rd _ _ => some rd
  | .rndHwt _ _ _ => none
  | .rndTri _ _ => none
  | .rndUni _ _ _ _ => none
  | .vsize rd _ => some rd
  | .vcap rd _ => some rd
  | .vempty rd _ => some rd
  | .vresize _ _ => none
  | .vreserve _ _ => none
  | .vshrink _ => none
  | .vat rd _ _ => some rd
  | .vset _ _ _ => none

/-- The wide register a command writes: its `rd` field of class `w` (rule R104). -/
def Instr.wDest : Instr → Option WReg
  | .nop => none
  | .li _ _ => none
  | .lsi _ _ => none
  | .mov _ _ => none
  | .wmov rd _ => some rd
  | .wsetx rd _ => some rd
  | .wgetx _ _ => none
  | .vmov _ _ => none
  | .ntModinv rd _ _ => some rd
  | .ntModexp rd _ _ _ => some rd
  | .ntIsprime _ _ => none
  | .ntRoot rd _ _ => some rd
  | .ntFindgen rd _ => some rd
  | .zpInit _ => none
  | .zpAdd _ _ _ => none
  | .zpSub _ _ _ => none
  | .zpMul _ _ _ => none
  | .zpExp _ _ _ => none
  | .zpInv _ _ => none
  | .zpRoot _ _ => none
  | .zpGen _ => none
  | .nttInit _ _ => none
  | .nttRaw _ _ => none
  | .nttFwd _ => none
  | .nttInv _ => none
  | .nttPmul _ _ _ => none
  | .crtInit _ _ _ => none
  | .crtEnc _ _ => none
  | .crtDec rd _ => some rd
  | .crtPrimes _ => none
  | .crtMod rd => some rd
  | .galInit _ => none
  | .galElt _ _ => none
  | .galElts _ _ => none
  | .galIdx _ _ => none
  | .galAll _ => none
  | .polyAdd _ _ _ _ => none
  | .polySub _ _ _ _ => none
  | .polyMul _ _ _ _ => none
  | .polyMuln _ _ _ => none
  | .polyMulc _ _ _ => none
  | .polyEq _ _ _ => none
  | .rndHwt _ _ _ => none
  | .rndTri _ _ => none
  | .rndUni _ _ _ _ => none
  | .vsize _ _ => none
  | .vcap _ _ => none
  | .vempty _ _ => none
  | .vresize _ _ => none
  | .vreserve _ _ => none
  | .vshrink _ => none
  | .vat _ _ _ => none
  | .vset _ _ _ => none

/-- The vector buffer a command writes: its `rd` field of class `v` (rules R78, R104). -/
def Instr.vDest : Instr → Option VReg
  | .nop => none
  | .li _ _ => none
  | .lsi _ _ => none
  | .mov _ _ => none
  | .wmov _ _ => none
  | .wsetx _ _ => none
  | .wgetx _ _ => none
  | .vmov rd _ => some rd
  | .ntModinv _ _ _ => none
  | .ntModexp _ _ _ _ => none
  | .ntIsprime _ _ => none
  | .ntRoot _ _ _ => none
  | .ntFindgen _ _ => none
  | .zpInit _ => none
  | .zpAdd _ _ _ => none
  | .zpSub _ _ _ => none
  | .zpMul _ _ _ => none
  | .zpExp _ _ _ => none
  | .zpInv _ _ => none
  | .zpRoot _ _ => none
  | .zpGen _ => none
  | .nttInit _ _ => none
  | .nttRaw rd _ => some rd
  | .nttFwd rd => some rd
  | .nttInv rd => some rd
  | .nttPmul rd _ _ => some rd
  | .crtInit _ _ _ => none
  | .crtEnc rd _ => some rd
  | .crtDec _ _ => none
  | .crtPrimes rd => some rd
  | .crtMod _ => none
  | .galInit _ => none
  | .galElt _ _ => none
  | .galElts rd _ => some rd
  | .galIdx _ _ => none
  | .galAll rd => some rd
  | .polyAdd rd _ _ _ => some rd
  | .polySub rd _ _ _ => some rd
  | .polyMul rd _ _ _ => some rd
  | .polyMuln rd _ _ => some rd
  | .polyMulc rd _ _ => some rd
  | .polyEq _ _ _ => none
  | .rndHwt rd _ _ => some rd
  | .rndTri rd _ => some rd
  | .rndUni rd _ _ _ => some rd
  | .vsize _ _ => none
  | .vcap _ _ => none
  | .vempty _ _ => none
  | .vresize rd _ => some rd
  | .vreserve rd _ => some rd
  | .vshrink rd => some rd
  | .vat _ _ _ => none
  | .vset rd _ _ => some rd

/-- The slot a command builds (rule R41), by the index of rule R373. -/
def Instr.initSlot : Instr → Option (Fin 4)
  | .nop => none
  | .li _ _ => none
  | .lsi _ _ => none
  | .mov _ _ => none
  | .wmov _ _ => none
  | .wsetx _ _ => none
  | .wgetx _ _ => none
  | .vmov _ _ => none
  | .ntModinv _ _ _ => none
  | .ntModexp _ _ _ _ => none
  | .ntIsprime _ _ => none
  | .ntRoot _ _ _ => none
  | .ntFindgen _ _ => none
  | .zpInit _ => some 0
  | .zpAdd _ _ _ => none
  | .zpSub _ _ _ => none
  | .zpMul _ _ _ => none
  | .zpExp _ _ _ => none
  | .zpInv _ _ => none
  | .zpRoot _ _ => none
  | .zpGen _ => none
  | .nttInit _ _ => some 1
  | .nttRaw _ _ => none
  | .nttFwd _ => none
  | .nttInv _ => none
  | .nttPmul _ _ _ => none
  | .crtInit _ _ _ => some 2
  | .crtEnc _ _ => none
  | .crtDec _ _ => none
  | .crtPrimes _ => none
  | .crtMod _ => none
  | .galInit _ => some 3
  | .galElt _ _ => none
  | .galElts _ _ => none
  | .galIdx _ _ => none
  | .galAll _ => none
  | .polyAdd _ _ _ _ => none
  | .polySub _ _ _ _ => none
  | .polyMul _ _ _ _ => none
  | .polyMuln _ _ _ => none
  | .polyMulc _ _ _ => none
  | .polyEq _ _ _ => none
  | .rndHwt _ _ _ => none
  | .rndTri _ _ => none
  | .rndUni _ _ _ _ => none
  | .vsize _ _ => none
  | .vcap _ _ => none
  | .vempty _ _ => none
  | .vresize _ _ => none
  | .vreserve _ _ => none
  | .vshrink _ => none
  | .vat _ _ _ => none
  | .vset _ _ _ => none

/-- The slot a command needs valid (rule R377), by the index of rule R373. -/
def Instr.neededSlot : Instr → Option (Fin 4)
  | .nop => none
  | .li _ _ => none
  | .lsi _ _ => none
  | .mov _ _ => none
  | .wmov _ _ => none
  | .wsetx _ _ => none
  | .wgetx _ _ => none
  | .vmov _ _ => none
  | .ntModinv _ _ _ => none
  | .ntModexp _ _ _ _ => none
  | .ntIsprime _ _ => none
  | .ntRoot _ _ _ => none
  | .ntFindgen _ _ => none
  | .zpInit _ => none
  | .zpAdd _ _ _ => some 0
  | .zpSub _ _ _ => some 0
  | .zpMul _ _ _ => some 0
  | .zpExp _ _ _ => some 0
  | .zpInv _ _ => some 0
  | .zpRoot _ _ => some 0
  | .zpGen _ => some 0
  | .nttInit _ _ => none
  | .nttRaw _ _ => some 1
  | .nttFwd _ => some 1
  | .nttInv _ => some 1
  | .nttPmul _ _ _ => some 1
  | .crtInit _ _ _ => none
  | .crtEnc _ _ => some 2
  | .crtDec _ _ => some 2
  | .crtPrimes _ => some 2
  | .crtMod _ => some 2
  | .galInit _ => none
  | .galElt _ _ => some 3
  | .galElts _ _ => some 3
  | .galIdx _ _ => some 3
  | .galAll _ => some 3
  | .polyAdd _ _ _ _ => none
  | .polySub _ _ _ _ => none
  | .polyMul _ _ _ _ => none
  | .polyMuln _ _ _ => some 1
  | .polyMulc _ _ _ => some 2
  | .polyEq _ _ _ => none
  | .rndHwt _ _ _ => none
  | .rndTri _ _ => none
  | .rndUni _ _ _ _ => none
  | .vsize _ _ => none
  | .vcap _ _ => none
  | .vempty _ _ => none
  | .vresize _ _ => none
  | .vreserve _ _ => none
  | .vshrink _ => none
  | .vat _ _ _ => none
  | .vset _ _ _ => none

/-- The causes a command may raise once decoded (rules R377 to R388). -/
def Instr.causes : Instr → List Machine.FaultCause
  | .nop => []
  | .li _ _ => []
  | .lsi _ _ => []
  | .mov _ _ => []
  | .wmov _ _ => []
  | .wsetx _ _ => []
  | .wgetx _ _ => [.wideOverflow]
  | .vmov _ _ => []
  | .ntModinv _ _ _ => [.badOperand, .notInvertible]
  | .ntModexp _ _ _ _ => [.badOperand]
  | .ntIsprime _ _ => []
  | .ntRoot _ _ _ => [.modulusNotPrime, .noRoot]
  | .ntFindgen _ _ => [.modulusNotPrime, .noRoot]
  | .zpInit _ => [.badParameter, .modulusNotPrime]
  | .zpAdd _ _ _ => [.noContext]
  | .zpSub _ _ _ => [.noContext]
  | .zpMul _ _ _ => [.noContext]
  | .zpExp _ _ _ => [.noContext, .badOperand]
  | .zpInv _ _ => [.noContext, .notInvertible]
  | .zpRoot _ _ => [.noContext, .noRoot]
  | .zpGen _ => [.noContext, .noRoot]
  | .nttInit _ _ => [.badParameter, .modulusNotPrime, .noRoot]
  | .nttRaw _ _ => [.noContext, .lengthMismatch]
  | .nttFwd _ => [.noContext, .lengthMismatch]
  | .nttInv _ => [.noContext, .lengthMismatch]
  | .nttPmul _ _ _ => [.noContext, .lengthMismatch]
  | .crtInit _ _ _ => [.badParameter, .noPrimeFound, .wideOverflow]
  | .crtEnc _ _ => [.noContext]
  | .crtDec _ _ => [.noContext, .lengthMismatch]
  | .crtPrimes _ => [.noContext]
  | .crtMod _ => [.noContext]
  | .galInit _ => [.badParameter]
  | .galElt _ _ => [.noContext]
  | .galElts _ _ => [.noContext]
  | .galIdx _ _ => [.noContext, .indexOutOfRange]
  | .galAll _ => [.noContext, .capacityExceeded]
  | .polyAdd _ _ _ _ => [.lengthMismatch, .badOperand]
  | .polySub _ _ _ _ => [.lengthMismatch, .badOperand]
  | .polyMul _ _ _ _ => [.lengthMismatch, .badOperand]
  | .polyMuln _ _ _ => [.noContext, .lengthMismatch]
  | .polyMulc _ _ _ => [.noContext, .lengthMismatch, .capacityExceeded]
  | .polyEq _ _ _ => []
  | .rndHwt _ _ _ => [.badOperand, .capacityExceeded]
  | .rndTri _ _ => [.badOperand, .capacityExceeded]
  | .rndUni _ _ _ _ => [.badOperand, .capacityExceeded]
  | .vsize _ _ => []
  | .vcap _ _ => []
  | .vempty _ _ => []
  | .vresize _ _ => [.badOperand, .capacityExceeded]
  | .vreserve _ _ => [.badOperand, .capacityExceeded]
  | .vshrink _ => []
  | .vat _ _ _ => [.indexOutOfRange]
  | .vset _ _ _ => [.indexOutOfRange]

/-- The register of the index a command checks, or of the Galois element (rules R346, R275, R373). -/
def Instr.indexOperand : Instr → Option XReg
  | .vat _ _ rb => some rb
  | .vset _ ra _ => some ra
  | .galIdx _ ra => some ra
  | _ => none

/-- A format R command word as a number: the fields of rule R101 at their bit positions. -/
def formatR (op rd ra rb rc imm8 : Nat) : CmdWord :=
  BitVec.ofNat 32 (op * 2 ^ 24 + rd * 2 ^ 20 + ra * 2 ^ 16 + rb * 2 ^ 12 + rc * 2 ^ 8 + imm8)

/-- A format I command word as a number: the fields of rule R102 at their bit positions. -/
def formatI (op rd : Nat) (imm : BitVec 16) : CmdWord :=
  BitVec.ofNat 32 (op * 2 ^ 24 + rd * 2 ^ 20 + imm.toNat)

namespace Machine

/-- The valid bit of a slot, by the index of rule R373 (rule R41). -/
def State.slotValid (s : State) : Fin 4 → Bool
  | 0 => s.zp.isSome
  | 1 => s.ntt.isSome
  | 2 => s.crt.isSome
  | 3 => s.gal.isSome

/-- A power of two (rules R214, R242, R272). -/
def PowerOfTwo (n : Int) : Prop := ∃ k : Nat, n = 2 ^ k

/-- What `ZP.INIT` leaves in its slot: the slot of some prime it accepts (rules R42, R183). -/
def ZpCtx.Valid (c : ZpCtx) : Prop :=
  ∃ p : Int, 2 ≤ p ∧ p < 2 ^ 63 ∧ p.toNat.Prime ∧ c = buildZp p

/-- What `NTT.INIT` leaves in its slot: the slot of some `(N, p)` it accepts (rules R43, R214). -/
def NttCtx.Valid (c : NttCtx) (b : Build) : Prop :=
  ∃ n p : Int, PowerOfTwo n ∧ n ≤ b.nMax ∧ p < 2 ^ 63 ∧ p.toNat.Prime ∧ fmod (p - 1) (2 * n) = 0 ∧
    buildNtt n p = .ok c

/-- What `CRT.INIT` leaves in its slot: the slot of some parameters it accepts (rules R44, R242). -/
def CrtCtx.Valid (c : CrtCtx) (b : Build) : Prop :=
  ∃ n s d : Int, 1 ≤ n ∧ n ≤ b.nPrimeMax ∧ 0 ≤ s ∧ s ≤ 62 ∧ PowerOfTwo d ∧ d ≤ b.nMax ∧
    buildCrt b n s d = .ok c

/-- What `GAL.INIT` leaves in its slot: the slot of some dimension it accepts (rules R45, R272). -/
def GalCtx.Valid (c : GalCtx) (b : Build) : Prop :=
  ∃ n : Int, 2 ≤ n ∧ PowerOfTwo n ∧ n ≤ b.nMax ∧ c = ⟨u64 n⟩

/-- The fault record is a cause of rule R371 and a 32-bit word while FAULTED, and 0 otherwise (rule R38). -/
def State.FaultRecordOk (s : State) : Prop :=
  if s.run = .faulted then (∃ k : FaultCause, s.fcause = k.code) ∧ s.fcmd.toNat < 2 ^ 32
  else s.fcause = 0 ∧ s.finfo = 0 ∧ s.fcmd = 0

/-- A wide register's pattern keeps nothing above its `WIDEW` bits (rules R7, R25; log entry 16). -/
def IsPattern (b : Build) (d : Wide) : Prop := d.toNat < 2 ^ b.wideW

/-- `d` is the pattern a wide register holds for the wide integer `n` (rules R7, R25). -/
def IsPatternOf (b : Build) (d : Wide) (n : Int) : Prop := IsPattern b d ∧ wideInt b d = n

/-- A good state: wide registers hold patterns of `WIDEW` bits (rule R25), the data memory has its form (rule R29),
the fault record agrees with the run state (rule R38), the CORE does not wait for a source (rule R35), and every
valid slot is one its INIT builds (rules R41 to R45). -/
structure State.Inv (s : State) : Prop where
  wide : ∀ r : WReg, IsPattern s.build s.w[r]
  memory : s.v.wf s.build
  faultRecord : s.FaultRecordOk
  notBusy : s.run ≠ .busy
  zp : ∀ c, s.zp = some c → c.Valid
  ntt : ∀ c, s.ntt = some c → c.Valid s.build
  crt : ∀ c, s.crt = some c → c.Valid s.build
  gal : ∀ c, s.gal = some c → c.Valid s.build

/-- A safe run: the machine never stops, however many steps it takes (rule R430). -/
def State.Safe (s : State) : Prop := ∀ k : Nat, ∃ t, core.run k s = .next t

/-- The state after a command is rejected with a cause and an information word (rule R372), written out. -/
def State.rejected (s : State) (i : Instr) (cause : FaultCause) (info : Word) : State :=
  { s with run := .faulted, fcause := cause.code, finfo := info, fcmd := (encode i).setWidth 64 }

/-- A program (rule R430): the commands of the list one after the other, with no host action between them, to
the last one or to the first that faults. -/
def runProgram : List Instr → State → State
  | [], s => s
  | i :: rest, s =>
    match exec i s with
    | .next t => if t.run = .faulted then t else runProgram rest t
    | _ => s

/-- `g` is the smallest generator of the prime `p` in `[2, p)`, by the test of rule R154: `g^((p−1)/q) ≠ 1`
modulo `p` for every prime factor `q` of `p − 1`, and no smaller number passes it. -/
def SmallestGenerator (p g : Int) : Prop :=
  2 ≤ g ∧ g < p ∧ (∀ q : Nat, q.Prime → (q : Int) ∣ p - 1 → g ^ ((p - 1) / q).toNat % p ≠ 1) ∧
    ∀ k : Int, 2 ≤ k → k < g → ∃ q : Nat, q.Prime ∧ (q : Int) ∣ p - 1 ∧ k ^ ((p - 1) / q).toNat % p = 1

/-- The multiplicative order of `a` modulo `p` is exactly `n` (rules R155, R211). -/
def MultiplicativeOrder (p a : Int) (n : Nat) : Prop :=
  0 < n ∧ a ^ n % p = 1 ∧ ∀ k : Nat, 0 < k → k < n → a ^ k % p ≠ 1

/-- Element `k` of a buffer as a machine integer, 0 where there is none (rules R9, R290). -/
def State.element (s : State) (r : VReg) (k : Nat) : Int := (s.elems r).getD k 0

/-- Coefficient `k` of the exact product modulo `x^n + 1` of two polynomials (rule R292): the terms with
`i + j = k`, less those with `i + j = k + n`. -/
def negacyclicSum (n : Nat) (a b : Nat → Int) (k : Nat) : Int :=
  ∑ i ∈ Finset.range n, ∑ j ∈ Finset.range n,
    if i + j = k then a i * b j else if i + j = k + n then -(a i * b j) else 0

/-- A candidate of the prime search of rule R241 that is a prime: above `2^s`, below `2^63` and 1 modulo
`2d`. -/
def CrtPrime (s d q : Int) : Prop := q.toNat.Prime ∧ 2 ^ s.toNat < q ∧ q < 2 ^ 63 ∧ q % (2 * d) = 1

/-- The size of the tables of the `NTT` slot: `NTT.N`, and 0 while the slot is invalid (rule R75). -/
def State.nttSize (s : State) : Nat := (slotField s.ntt NttCtx.n).toNat

/-- The size of the tables of the `CRT` slot: `CRT.numPrimes`, and 0 while the slot is invalid (rule R75). -/
def State.crtSize (s : State) : Nat := (slotField s.crt CrtCtx.numPrimes).toNat

/-- The register numbers of the map of rule R75. -/
def State.Mapped (s : State) (n : Nat) : Prop :=
  n < 0x18 ∨ n = 0x20 ∨ n = 0x21 ∨ (0x30 ≤ n ∧ n ≤ 0x34) ∨ (0x40 ≤ n ∧ n ≤ 0x43) ∨ n = 0x50 ∨
  (0x60 ≤ n ∧ n < 0x70) ∨
  (∃ j l : Nat, j < 4 ∧ l < s.build.wideLimbs ∧ n = 0x10000000 + 0x100 * j + l) ∨
  (∃ (i : VReg) (k : Nat), k < s.v[i].size ∧ n = 0x20000000 + 0x01000000 * i + k) ∨
  (∃ k : Nat, k < s.nttSize ∧ (n = 0x30000000 + k ∨ n = 0x31000000 + k)) ∨
  (∃ i : Nat, i < s.crtSize ∧ (n = 0x32000000 + i ∨ n = 0x33000000 + i)) ∨
  (∃ l : Nat, l < s.build.wideLimbs ∧ n = 0x34000000 + l) ∨
  ∃ i l : Nat, i < s.crtSize ∧ l < s.build.wideLimbs ∧ n = 0x35000000 + 0x100 * i + l

/-- The numbers of the map with access RW (rule R75): scalar registers, limbs of wide registers and buffer
elements. -/
def State.Writable (s : State) (n : Nat) : Prop :=
  n < 0x10 ∨
  (∃ j l : Nat, j < 4 ∧ l < s.build.wideLimbs ∧ n = 0x10000000 + 0x100 * j + l) ∨
  ∃ (i : VReg) (k : Nat), k < s.v[i].size ∧ n = 0x20000000 + 0x01000000 * i + k

/-- Parameter `k` of an INIT command lies in the constructor's domain (rule R378); there is nothing to ask where
the command has no such parameter. -/
def State.ParameterOk (s : State) : Instr → Nat → Prop
  | .zpInit ra, 0 => 2 ≤ s.xInt ra
  | .nttInit ra _, 0 => PowerOfTwo (s.xInt ra) ∧ s.xInt ra ≤ s.build.nMax
  | .nttInit _ rb, 1 => 2 ≤ s.xInt rb
  | .crtInit ra _ _, 0 => 1 ≤ s.xInt ra ∧ s.xInt ra ≤ s.build.nPrimeMax
  | .crtInit _ rb _, 1 => 0 ≤ s.xInt rb ∧ s.xInt rb ≤ 62
  | .crtInit _ _ rc, 2 => PowerOfTwo (s.xInt rc) ∧ s.xInt rc ≤ s.build.nMax
  | .galInit ra, 0 => PowerOfTwo (s.xInt ra) ∧ 2 ≤ s.xInt ra ∧ s.xInt ra ≤ s.build.nMax
  | _, _ => True

/-- The buffers whose sizes a command checks, in the order checked, each with the size it must have (rule R383). -/
def State.sizeChecks (s : State) : Instr → List (VReg × Nat)
  | .nttRaw rd _ => [(rd, s.nttSize)]
  | .nttFwd rd => [(rd, s.nttSize)]
  | .nttInv rd => [(rd, s.nttSize)]
  | .nttPmul _ ra rb => [(ra, s.nttSize), (rb, s.nttSize)]
  | .crtDec _ ra => [(ra, s.crtSize)]
  | .polyAdd _ ra rb _ => [(rb, s.v[ra].size)]
  | .polySub _ ra rb _ => [(rb, s.v[ra].size)]
  | .polyMul _ ra rb _ => [(rb, s.v[ra].size)]
  | .polyMuln _ ra rb => [(ra, s.nttSize), (rb, s.nttSize)]
  | .polyMulc _ ra rb =>
    [(ra, (slotField s.crt CrtCtx.degree).toNat), (rb, (slotField s.crt CrtCtx.degree).toNat)]
  | _ => []

/-- The count of elements a command asks a buffer to hold, where that can be more than `VCAPMAX` (rules R31, R386;
log entry 17). -/
def State.requestedCount (s : State) : Instr → Option Int
  | .vresize _ ra => some (s.xInt ra)
  | .vreserve _ ra => some (s.xInt ra)
  | .rndHwt _ ra _ => some (s.xInt ra)
  | .rndTri _ ra => some (s.xInt ra)
  | .rndUni _ _ _ rc => some (s.xInt rc)
  | .crtEnc _ _ => some s.crtSize
  | .crtPrimes _ => some s.crtSize
  | _ => none

/-- An action on the command port (rule R100). -/
def HostAction.isCommand : HostAction → Bool
  | .command _ => true
  | _ => false

end Machine

end Sys2Proof
end

