-- ==== Sys2Proof/Certificates/Slice0/Obligations.lean ====
section
/-! DEFINITION. Obligations: what is claimed of the model. Each statement names the rules of spec/ it
formalises. In all of them the state after a command is written out as a whole, so whatever is not named in
it is unchanged. -/

open Sys2Proof Sys2Proof.Machine

/-! ### Encoding -/

/-- Decoding the word of a command gives the command back: no bit of an encoding is dropped (rules R101 to
R105). -/
def Obligations.DecodeOfEncodedCommand : Prop := ∀ i : Instr, decode (encode i) = .ok i

/-- A command has one word only: encoding what a word decodes to gives the word back (rules R104, R106). -/
def Obligations.EncodeOfDecodedWord : Prop := ∀ (c : CmdWord) (i : Instr), decode c = .ok i → encode i = c

/-- The table of rule R104: 53 rows, a word is covered by a row exactly when it decodes to a command of that
row's mnemonic, no two rows cover one word, and a word that decodes is covered. -/
def Obligations.OpcodeTableDecoding : Prop :=
  opcodeTable.length = 53 ∧
  (∀ (c : CmdWord) (row : TableRow), row ∈ opcodeTable →
    (row.covers c = true ↔ ∃ i, decode c = .ok i ∧ i.mnemonic = row.mnemonic)) ∧
  (∀ (c : CmdWord) (r q : TableRow), r ∈ opcodeTable → q ∈ opcodeTable →
    r.covers c = true → q.covers c = true → r = q) ∧
  ∀ c : CmdWord, (∃ i, decode c = .ok i) ↔ ∃ row ∈ opcodeTable, row.covers c = true

/-- Words of the spec's own examples, one for each family, decode to the command they stand for. -/
def Obligations.DecodingOfSampleWords : Prop :=
  decode 0x0120FFFF = .ok (.li 2 0xFFFF) ∧ decode 0x11301200 = .ok (.ntModexp 3 0 1 2) ∧
  decode 0x24723000 = .ok (.zpExp 7 2 3) ∧ decode 0x31000001 = .ok (.nttRaw 0 true) ∧
  decode 0x40012300 = .ok (.crtInit 1 2 3) ∧ decode 0x53430000 = .ok (.galIdx 4 3) ∧
  decode 0x62201300 = .ok (.polyMul 2 0 1 3) ∧ decode 0x72245600 = .ok (.rndUni 2 4 5 6) ∧
  decode 0x87024000 = .ok (.vset 0 2 4)

/-! ### Steps, faults and the ports -/

/-- A command that the host hands over while the CORE is IDLE is decoded and executed: the step is the
meaning of the decoded command on the state without it (rules R100, R108). -/
def Obligations.StepRunsDecodedCommand : Prop :=
  ∀ (s : State) (c : CmdWord) (rest : List HostAction) (i : Instr),
    s.run = .idle → s.host = .command c :: rest → decode c = .ok i →
      step s = exec i { s with host := rest }

/-- A word that no row of the table covers raises `ILLEGAL_COMMAND`, with `FINFO = 0` and the word in `FCMD`,
and has no other effect (rules R107, R376). -/
def Obligations.StepRejectsWordsOutsideTheTable : Prop :=
  ∀ (s : State) (c : CmdWord) (rest : List HostAction),
    s.run = .idle → s.host = .command c :: rest → (∀ row ∈ opcodeTable, row.covers c = false) →
      step s = .next { s with host := rest, run := .faulted, fcause := 1, finfo := 0,
                              fcmd := c.setWidth 64 }

/-- While FAULTED no command is taken up: a step leaves every pending command in its place, and it leaves the count
of retired commands alone unless it is the one that takes up a reset; with nothing but commands pending the CORE
waits; and a host access that comes behind pending commands is served before them, as it is in IDLE (rule R375;
which access comes first in the one order is log entry 3). -/
def Obligations.FaultedCoreHoldsCommands : Prop :=
  ∀ s : State, s.run = .faulted →
    (∀ t, step s = .next t →
      t.host.filter HostAction.isCommand = s.host.filter HostAction.isCommand ∧
        (t.cseq = s.cseq ∨ ∃ cmds rest : List HostAction, (∀ c ∈ cmds, c.isCommand = true) ∧
          s.host = cmds ++ .rst :: rest ∧
          t = { State.resetOf s.build with host := cmds ++ rest, draws := s.draws })) ∧
    ((∀ a ∈ s.host, a.isCommand = true) → step s = .next s) ∧
    ∀ (cmds rest : List HostAction) (a : BitVec 32) (d : Word), (∀ c ∈ cmds, c.isCommand = true) →
      (s.host = cmds ++ .read a :: rest → step s = .next (hostRead { s with host := cmds ++ rest } a)) ∧
      (s.host = cmds ++ .write a d :: rest →
        step s = .next (hostWrite { s with host := cmds ++ rest } a d))

/-- The acknowledge: a host write of any value to `FCAUSE` while FAULTED clears the fault record, makes the
CORE IDLE and changes nothing else of it; while IDLE the write is ignored (rule R374). The write's own answer
at the host port is the model's field `answer`. -/
def Obligations.AcknowledgeReturnsFromFault : Prop :=
  ∀ (s : State) (d : Word) (rest : List HostAction), s.host = .write 0x00000011 d :: rest →
    (s.run = .faulted →
      step s = .next { s with host := rest, answer := .done, run := .idle, fcause := 0, finfo := 0,
                              fcmd := 0 }) ∧
    (s.run = .idle → step s = .next { s with host := rest, answer := .done })

/-- The reset signal sets the whole CORE to its reset state in every run state, also while a command runs
(rule R410), and leaves what is not of its state: the parameters and the randomness source (rule R412), and the
host's later actions (log entries 3 and 15). -/
def Obligations.ResetSignalRestoresResetState : Prop :=
  ∀ (s : State) (rest : List HostAction), s.host = .rst :: rest →
    step s = .next { State.resetOf s.build with host := rest, draws := s.draws }

/-- The reset state of every build (rules R48, R411): registers 0, buffers empty, IDLE, every slot invalid, both
outputs 0, and every mapped register number reads 0 but for the two identification registers; and `HWCFG` as the
build with the defaults of rule R6 reads it (rule R40). -/
def Obligations.ResetStateValues : Prop :=
  (∀ (b : Build) (s : State), s = State.resetOf b →
    (∀ r : XReg, s.x[r] = 0) ∧ (∀ r : WReg, s.w[r] = 0) ∧ (∀ r : VReg, s.v[r].size = 0 ∧ s.v[r].cap = 0) ∧
    s.run = .idle ∧ s.cseq = 0 ∧ s.status = 0 ∧ s.fcause = 0 ∧ s.finfo = 0 ∧ s.fcmd = 0 ∧ s.ctxv = 0 ∧
    s.busyOut = false ∧ s.faultOut = false ∧ readWord s 0x00000017 = some 0x4D43535542303039 ∧
    ∀ (a : BitVec 32) (d : Word), a ≠ 0x00000016 → a ≠ 0x00000017 → readWord s a = some d → d = 0) ∧
  readWord (State.resetOf { wideW := 1024, nMax := 4096, vcapMax := 65536, nPrimeMax := 16, legal := by decide }) 0x16 =
    some 0x000100000400100C

/-- The map of rule R75, read through the host port: what stands at each register number, and that a number
is readable exactly when it is in the map. -/
def Obligations.RegisterMapReads : Prop :=
  ∀ s : State,
    (∀ r : XReg, readWord s (.ofNat 32 r) = some s.x[r]) ∧
    readWord s 0x10 = some (if s.run = .faulted then 1 else 0) ∧ readWord s 0x11 = some s.fcause ∧
    readWord s 0x12 = some s.finfo ∧ readWord s 0x13 = some s.fcmd ∧ readWord s 0x14 = some s.cseq ∧
    (∃ d, readWord s 0x15 = some d ∧ d.toNat < 16 ∧ d.getLsbD 0 = s.zp.isSome ∧
      d.getLsbD 1 = s.ntt.isSome ∧ d.getLsbD 2 = s.crt.isSome ∧ d.getLsbD 3 = s.gal.isSome) ∧
    (∃ d, readWord s 0x16 = some d ∧ 2 ^ (d.extractLsb' 0 8).toNat = s.build.nMax ∧
      (d.extractLsb' 8 8).toNat = s.build.nPrimeMax ∧ (d.extractLsb' 16 16).toNat = s.build.wideW ∧
      (d.extractLsb' 32 32).toNat = s.build.vcapMax) ∧ readWord s 0x17 = some 0x4D43535542303039 ∧
    readWord s 0x20 = some (slotField s.zp ZpCtx.p) ∧ readWord s 0x21 = some (slotField s.zp ZpCtx.bits) ∧
    readWord s 0x30 = some (slotField s.ntt NttCtx.n) ∧ readWord s 0x31 = some (slotField s.ntt NttCtx.p) ∧
    readWord s 0x32 = some (slotField s.ntt NttCtx.psi) ∧
    readWord s 0x33 = some (slotField s.ntt NttCtx.psiinv) ∧
    readWord s 0x34 = some (slotField s.ntt NttCtx.ninv) ∧
    readWord s 0x40 = some (slotField s.crt CrtCtx.numPrimes) ∧
    readWord s 0x41 = some (slotField s.crt CrtCtx.primeSize) ∧
    readWord s 0x42 = some (slotField s.crt CrtCtx.degree) ∧
    readWord s 0x43 = some (slotField s.crt CrtCtx.limbs) ∧
    readWord s 0x50 = some (slotField s.gal GalCtx.n) ∧
    (∀ r : VReg, readWord s (.ofNat 32 (0x60 + r)) = some (.ofNat 64 s.v[r].size) ∧
      readWord s (.ofNat 32 (0x68 + r)) = some (.ofNat 64 s.v[r].cap)) ∧
    (∀ (r : WReg) (l : Nat), l < s.build.wideLimbs →
      readWord s (.ofNat 32 (0x10000000 + 0x100 * r + l)) = some (s.w[r].extractLsb' (64 * l) 64)) ∧
    (∀ (r : VReg) (k : Nat), k < 0x01000000 →
      readWord s (.ofNat 32 (0x20000000 + 0x01000000 * r + k)) = s.v[r].elems[k]?) ∧
    (∀ (c : NttCtx) (k : Nat), s.ntt = some c → k < 0x01000000 →
      readWord s (.ofNat 32 (0x30000000 + k)) = c.rou[k]? ∧
      readWord s (.ofNat 32 (0x31000000 + k)) = c.rouinv[k]?) ∧
    (∀ (c : CrtCtx) (k : Nat), s.crt = some c → k < 0x01000000 →
      readWord s (.ofNat 32 (0x32000000 + k)) = c.primes[k]? ∧
      readWord s (.ofNat 32 (0x33000000 + k)) = c.miInv[k]?) ∧
    (∀ (c : CrtCtx) (l : Nat), s.crt = some c → l < s.build.wideLimbs →
      readWord s (.ofNat 32 (0x34000000 + l)) = some (c.bigM.extractLsb' (64 * l) 64) ∧
      ∀ (i : Nat) (m : Wide), c.mi[i]? = some m → i < 256 →
        readWord s (.ofNat 32 (0x35000000 + 0x100 * i + l)) = some (m.extractLsb' (64 * l) 64)) ∧
    (∀ l : Nat, s.crt = none → l < s.build.wideLimbs → readWord s (.ofNat 32 (0x34000000 + l)) = some 0) ∧
    (s.Inv → ∀ a : BitVec 32, (readWord s a).isSome = true ↔ s.Mapped a.toNat)

/-- A host read answers the word of the map and changes nothing: no read has a side effect (rule R76). A host
access to an unmapped number, an element index at or above `size` among them, is refused with `herr = 1` and
changes nothing (rule R77). -/
def Obligations.HostReadsAndRefusedAccesses : Prop :=
  ∀ (s : State) (a : BitVec 32) (d : Word) (rest : List HostAction), s.run ≠ .busy →
    (s.host = .read a :: rest → ∀ v, readWord s a = some v →
      step s = .next { s with host := rest, answer := .data v }) ∧
    ((s.host = .read a :: rest ∨ s.host = .write a d :: rest) → readWord s a = none →
      ∃ t, step s = .next t ∧ t = { s with host := rest, answer := .refused } ∧ t.herr = true) ∧
    ∀ (r : VReg) (k : Nat), s.v[r].size ≤ k → k < 0x01000000 →
      readWord s (.ofNat 32 (0x20000000 + 0x01000000 * r + k)) = none

/-- A host write to a number with access RW is read back there and changes no other number (rules R26, R30,
R75); one to any other mapped number but `FCAUSE` is ignored without error (rules R75, R395). -/
def Obligations.HostWrites : Prop :=
  ∀ (s : State) (a : BitVec 32) (d : Word) (rest : List HostAction),
    s.v.wf s.build → s.run ≠ .busy → s.host = .write a d :: rest →
    (s.Writable a.toNat → ∃ t, step s = .next t ∧ t.host = rest ∧ t.herr = false ∧
      readWord t a = some d ∧ (∀ b, b ≠ a → readWord t b = readWord s b) ∧ t.run = s.run) ∧
    ((readWord s a).isSome = true → ¬ s.Writable a.toNat → a ≠ 0x00000011 →
      step s = .next { s with host := rest, answer := .done })

/-- The state after reset is a good one, in every build. `State.reset` is that of the build with the defaults of rule
R6, which is the model's choice (log entry 1). -/
def Obligations.InvariantHoldsAtReset : Prop :=
  (∀ b : Build, (State.resetOf b).Inv) ∧ State.reset.Inv ∧ State.reset = State.resetOf
    { wideW := 1024, nMax := 4096, vcapMax := 65536, nPrimeMax := 16, legal := by decide }

/-- Every step keeps the invariant and the parameters of the build (rule R412): wide registers hold patterns of
`WIDEW` bits (rule R25), the data memory has `size ≤ cap ≤ VCAPMAX` in each buffer (rule R29), the fault record is 0
outside FAULTED (rule R38) and every valid slot is one that its INIT builds (rule R41). -/
def Obligations.StepKeepsInvariant : Prop :=
  ∀ s t : State, s.Inv → step s = .next t → t.Inv ∧ t.build = s.build

/-- Nothing stops the machine: every run goes on, however many steps it takes (rules R416, R430). This rests on the
model's choices: a rejection and a refused access are next states (log entry 14), a step with nothing to take up
changes nothing (log entry 3), and the randomness source always answers (log entry 4), where rule R423 is the one
exception to the termination of rule R429. -/
def Obligations.EveryRunGoesOn : Prop := ∀ s : State, s.Safe

/-- Every command either retires, `CSEQ` one up and the run state, the fault record and the ports untouched,
or is rejected whole: the fault record and the run state are written and nothing else (rules R36, R370,
R372). That the three `RND.` commands always retire once past their checks is the model's choice: the randomness
source always answers (log entry 4, which rule R423 asks a model to state). -/
def Obligations.CommandRetiresOrIsRejectedWhole : Prop :=
  ∀ (i : Instr) (s : State),
    (∃ t, exec i s = .next t ∧ t.cseq = s.cseq + 1 ∧ t.run = s.run ∧ t.fcause = s.fcause ∧
      t.finfo = s.finfo ∧ t.fcmd = s.fcmd ∧ t.host = s.host ∧ t.answer = s.answer) ∨
    ∃ (cause : FaultCause) (info : Word),
      exec i s = .next { s with run := .faulted, fcause := cause.code, finfo := info,
                                fcmd := (encode i).setWidth 64 }

/-- The cause codes of rule R371, of which a good state's record holds one while FAULTED and 0 otherwise. -/
def Obligations.FaultCodes : Prop :=
  FaultCause.illegalCommand.code = 1 ∧ FaultCause.noContext.code = 2 ∧ FaultCause.badParameter.code = 3 ∧
  FaultCause.modulusNotPrime.code = 4 ∧ FaultCause.noPrimeFound.code = 5 ∧ FaultCause.noRoot.code = 6 ∧
  FaultCause.notInvertible.code = 7 ∧ FaultCause.lengthMismatch.code = 8 ∧
  FaultCause.indexOutOfRange.code = 9 ∧ FaultCause.capacityExceeded.code = 10 ∧
  FaultCause.wideOverflow.code = 11 ∧ FaultCause.badOperand.code = 12 ∧
  (∀ cause : FaultCause, 1 ≤ cause.code.toNat ∧ cause.code.toNat ≤ 12) ∧
  ∀ s : State, s.Inv → s.fcause.toNat ≤ 12 ∧ (s.fcause = 0 ↔ s.run ≠ .faulted)

/-- In a good state a command raises no cause but those the rules give it (rules R377 to R387). The 13
commands of rule R388 have none, so they always retire. In a build whose buffers are smaller than the prime list
`CRT.ENC` and `CRT.PRIMES` meet the check of `VecAssign` (rule R31; log entry 17). -/
def Obligations.RaisedCausesOfEachCommand : Prop :=
  ∀ (i : Instr) (s : State), s.Inv →
    (∀ cause info, exec i s = .next (s.rejected i cause info) → cause ∈ i.causes ∨
      (cause = .capacityExceeded ∧ s.build.vcapMax < s.crtSize ∧
        ∃ rd, i = .crtPrimes rd ∨ ∃ ra, i = .crtEnc rd ra)) ∧
    (i.causes = [] → ∃ t, exec i s = .next t ∧ t.cseq = s.cseq + 1 ∧ t.run = s.run)

/-- The information word of each cause (rule R373): the index of the invalid slot the command needs, the position of
its first parameter outside the domain, the number of primes of the shape there are, the size of the first buffer
whose size is wrong, the pattern in its index register, the count it asks for, and 0 for the rest. -/
def Obligations.FaultInformationWords : Prop :=
  ∀ (i : Instr) (s : State) (cause : FaultCause) (info : Word), s.Inv →
    exec i s = .next (s.rejected i cause info) →
      match cause with
      | .noContext => ∃ k, i.neededSlot = some k ∧ s.slotValid k = false ∧ info.toNat = k.val
      | .badParameter => ¬ s.ParameterOk i info.toNat ∧ ∀ k < info.toNat, s.ParameterOk i k
      | .noPrimeFound => ∃ (ra rb rc : XReg) (found : List Int), i = .crtInit ra rb rc ∧
          found.Pairwise (· < ·) ∧ (∀ q, CrtPrime (s.xInt rb) (s.xInt rc) q ↔ q ∈ found) ∧
          (found.length : Int) < s.xInt ra ∧ info.toNat = found.length
      | .lengthMismatch => ∃ e, (s.sizeChecks i).find? (fun e => s.v[e.1].size ≠ e.2) = some e ∧
          info.toNat = s.v[e.1].size
      | .indexOutOfRange => ∃ r, i.indexOperand = some r ∧ info = s.x[r]
      | .capacityExceeded => ∃ n, s.requestedCount i = some n ∧ s.build.vcapMax < n ∧ (info.toNat : Int) = n
      | _ => info = 0

/-- What a command leaves alone: every scalar, wide and vector register but its destination, and every
context slot but the one its INIT builds (rules R21, R41, R78, R415), and the parameters (rule R412). -/
def Obligations.OnlyDestinationsChange : Prop :=
  ∀ (i : Instr) (s t : State), exec i s = .next t →
    (∀ r : XReg, i.xDest ≠ some r → t.x[r] = s.x[r]) ∧
    (∀ r : WReg, i.wDest ≠ some r → t.w[r] = s.w[r]) ∧
    (∀ r : VReg, i.vDest ≠ some r → t.v[r] = s.v[r]) ∧
    t.build = s.build ∧ (i.initSlot ≠ some 0 → t.zp = s.zp) ∧ (i.initSlot ≠ some 1 → t.ntt = s.ntt) ∧
    (i.initSlot ≠ some 2 → t.crt = s.crt) ∧ (i.initSlot ≠ some 3 → t.gal = s.gal)

/-- The frame of the data memory, word by word: a command changes no word of region 2 outside its destination
buffer, `VSET` none but the one at its index, `VRESIZE` none below the old and the new size, and `VRESERVE`
and `VSHRINK` none at all (rules R78, R343 to R348). -/
def Obligations.DataMemoryFrame : Prop :=
  ∀ (i : Instr) (s t : State) (r : VReg) (k : Nat), exec i s = .next t → k < 0x01000000 →
    (i.vDest ≠ some r →
      readWord t (.ofNat 32 (vbase r + k)) = readWord s (.ofNat 32 (vbase r + k))) ∧
    (∀ rd ra rb, i = .vset rd ra rb → ¬ (r = rd ∧ (k : Int) = s.xInt ra) →
      readWord t (.ofNat 32 (vbase r + k)) = readWord s (.ofNat 32 (vbase r + k))) ∧
    (∀ rd ra, i = .vresize rd ra → k < s.v[r].size → (r = rd → (k : Int) < s.xInt ra) →
      readWord t (.ofNat 32 (vbase r + k)) = readWord s (.ofNat 32 (vbase r + k))) ∧
    (∀ rd, (i = .vshrink rd ∨ ∃ ra, i = .vreserve rd ra) →
      readWord t (.ofNat 32 (vbase r + k)) = readWord s (.ofNat 32 (vbase r + k)))

/-- How a program ends: after its last command, IDLE, with `CSEQ` up by its length, or at its first faulting
command, FAULTED, with `CSEQ` up by the number retired before it (rule R430). -/
def Obligations.ProgramEndsAtLastOrFaultingCommand : Prop :=
  ∀ (p : List Instr) (s : State), s.run = .idle →
    ((runProgram p s).run = .idle ∧ (runProgram p s).cseq = s.cseq + .ofNat 64 p.length) ∨
    ∃ (done rest : List Instr) (i : Instr) (cause : FaultCause) (info : Word),
      p = done ++ i :: rest ∧ (runProgram done s).run = .idle ∧
      (runProgram done s).cseq = s.cseq + .ofNat 64 done.length ∧
      exec i (runProgram done s) = .next ((runProgram done s).rejected i cause info) ∧
      runProgram p s = (runProgram done s).rejected i cause info

/-- A program handed over by the host, one word for each command, runs as the list of its commands does: the steps
give the state of the program's end. Either every command has retired and none is pending, or the commands before
the faulting one have retired, and those behind it, and no others, are still pending (rules R375, R430; the list of
the host's actions is log entry 3). -/
def Obligations.ProgramRunsStepByStep : Prop :=
  ∀ (p : List Instr) (s : State), s.run = .idle → s.host = p.map (fun i => .command (encode i)) →
    ∃ (t : State) (retired : Nat), core.run p.length s = .next t ∧
      { t with host := [] } = runProgram p { s with host := [] } ∧
      (runProgram (p.take retired) { s with host := [] }).run = .idle ∧
      t.cseq = s.cseq + .ofNat 64 retired ∧
      ((t.run = .idle ∧ retired = p.length ∧ t.host = []) ∨
        (t.run = .faulted ∧ retired < p.length ∧
          (runProgram (p.take (retired + 1)) { s with host := [] }).run = .faulted ∧
          t.host = (p.drop (retired + 1)).map fun i => .command (encode i)))

/-! ### Family 0, housekeeping -/

/-- `NOP`, `LI`, `LSI`, `MOV` (rules R130 to R133). -/
def Obligations.ScalarHousekeeping : Prop :=
  ∀ (s : State) (rd ra : XReg) (imm : BitVec 16),
    decode 0x00000000 = .ok .nop ∧ exec .nop s = .next { s with cseq := s.cseq + 1 } ∧
    decode (formatI 0x01 rd imm) = .ok (.li rd imm) ∧
    exec (.li rd imm) s = .next { s.writeX rd (u64 imm.toInt) with cseq := s.cseq + 1 } ∧
    decode (formatI 0x02 rd imm) = .ok (.lsi rd imm) ∧
    exec (.lsi rd imm) s =
      .next { s.writeX rd (.ofNat 64 (s.x[rd].toNat * 65536 + imm.toNat)) with cseq := s.cseq + 1 } ∧
    decode (formatR 0x03 rd ra 0 0 0) = .ok (.mov rd ra) ∧
    exec (.mov rd ra) s = .next { s.writeX rd s.x[ra] with cseq := s.cseq + 1 }

/-- `WMOV`, `WSETX`, `WGETX`, which refuses a value that does not fit, and `VMOV`, which copies the elements and
not the capacity (rules R134 to R137). -/
def Obligations.WideAndBufferMoves : Prop :=
  ∀ (s : State) (wd wa : WReg) (xd xa : XReg) (rd ra : VReg),
    decode (formatR 0x04 wd wa 0 0 0) = .ok (.wmov wd wa) ∧
    exec (.wmov wd wa) s = .next { s.writeW wd s.w[wa] with cseq := s.cseq + 1 } ∧
    decode (formatR 0x05 wd xa 0 0 0) = .ok (.wsetx wd xa) ∧
    (∃ d : Wide, IsPatternOf s.build d (s.xInt xa) ∧
      exec (.wsetx wd xa) s = .next { s.writeW wd d with cseq := s.cseq + 1 }) ∧
    decode (formatR 0x06 xd wa 0 0 0) = .ok (.wgetx xd wa) ∧
    (-2 ^ 63 ≤ s.wInt wa → s.wInt wa < 2 ^ 63 → ∃ d : Word, sint d = s.wInt wa ∧
      exec (.wgetx xd wa) s = .next { s.writeX xd d with cseq := s.cseq + 1 }) ∧
    (¬ (-2 ^ 63 ≤ s.wInt wa ∧ s.wInt wa < 2 ^ 63) →
      exec (.wgetx xd wa) s = .next (s.rejected (.wgetx xd wa) .wideOverflow 0)) ∧
    decode (formatR 0x07 rd ra 0 0 0) = .ok (.vmov rd ra) ∧
    (s.v.wf s.build → exec (.vmov rd ra) s =
      .next { s.writeV rd ⟨s.v[ra].elems, max s.v[rd].cap s.v[ra].size⟩ with cseq := s.cseq + 1 })

/-- The four commands of the pseudo-command `LI64` put any 64-bit constant in a register (rule R111). -/
def Obligations.LoadWideConstant : Prop :=
  ∀ (s : State) (rd : XReg) (c : Word), s.run = .idle →
    runProgram [.li rd (c.extractLsb' 48 16), .lsi rd (c.extractLsb' 32 16),
        .lsi rd (c.extractLsb' 16 16), .lsi rd (c.extractLsb' 0 16)] s =
      { s.writeX rd c with cseq := s.cseq + 4 }

/-! ### Family 1, NumberTheory -/

/-- `NT.MODINV` (rules R151, R156): the inverse is the one number of `[0, m)` that the rule describes. -/
def Obligations.ModularInverse : Prop :=
  ∀ (s : State) (rd ra rb : WReg),
    decode (formatR 0x10 rd ra rb 0 0) = .ok (.ntModinv rd ra rb) ∧
    (s.wInt rb < 1 → exec (.ntModinv rd ra rb) s = .next (s.rejected (.ntModinv rd ra rb) .badOperand 0)) ∧
    (1 ≤ s.wInt rb → Int.gcd (s.wInt ra % s.wInt rb) (s.wInt rb) ≠ 1 →
      exec (.ntModinv rd ra rb) s = .next (s.rejected (.ntModinv rd ra rb) .notInvertible 0)) ∧
    (1 ≤ s.wInt rb → Int.gcd (s.wInt ra % s.wInt rb) (s.wInt rb) = 1 →
      ∃ d : Wide, exec (.ntModinv rd ra rb) s = .next { s.writeW rd d with cseq := s.cseq + 1 } ∧
        ∃ z : Int, IsPatternOf s.build d z ∧ 0 ≤ z ∧ z < s.wInt rb ∧
        (s.wInt ra % s.wInt rb) * z % s.wInt rb = 1 % s.wInt rb ∧
        ∀ t : Int, 0 ≤ t → t < s.wInt rb → (s.wInt ra % s.wInt rb) * t % s.wInt rb = 1 % s.wInt rb → t = z)

/-- `NT.MODEXP` (rules R152, R157). -/
def Obligations.ModularPower : Prop :=
  ∀ (s : State) (rd ra rb rc : WReg),
    decode (formatR 0x11 rd ra rb rc 0) = .ok (.ntModexp rd ra rb rc) ∧
    (s.wInt rc < 1 ∨ s.wInt rb < 0 →
      exec (.ntModexp rd ra rb rc) s = .next (s.rejected (.ntModexp rd ra rb rc) .badOperand 0)) ∧
    (1 ≤ s.wInt rc → 0 ≤ s.wInt rb →
      ∃ d : Wide, IsPatternOf s.build d ((s.wInt ra % s.wInt rc) ^ (s.wInt rb).toNat % s.wInt rc) ∧
        exec (.ntModexp rd ra rb rc) s = .next { s.writeW rd d with cseq := s.cseq + 1 })

/-- `NT.ISPRIME` answers the mathematical question for every wide value (rules R153, R158). -/
def Obligations.PrimalityAnswer : Prop :=
  ∀ (s : State) (rd : XReg) (ra : WReg),
    decode (formatR 0x12 rd ra 0 0 0) = .ok (.ntIsprime rd ra) ∧
    ((2 ≤ s.wInt ra ∧ ∀ d : Int, 1 < d → d < s.wInt ra → ¬ d ∣ s.wInt ra) →
      exec (.ntIsprime rd ra) s = .next { s.writeX rd 1 with cseq := s.cseq + 1 }) ∧
    (¬ (2 ≤ s.wInt ra ∧ ∀ d : Int, 1 < d → d < s.wInt ra → ¬ d ∣ s.wInt ra) →
      exec (.ntIsprime rd ra) s = .next { s.writeX rd 0 with cseq := s.cseq + 1 })

/-- `NT.FINDGEN` (rules R154, R160): the smallest generator, which every prime above 2 has. -/
def Obligations.SmallestGeneratorSearch : Prop :=
  ∀ (s : State) (rd ra : WReg),
    decode (formatR 0x14 rd ra 0 0 0) = .ok (.ntFindgen rd ra) ∧
    (¬ (s.wInt ra).toNat.Prime →
      exec (.ntFindgen rd ra) s = .next (s.rejected (.ntFindgen rd ra) .modulusNotPrime 0)) ∧
    (s.wInt ra = 2 → exec (.ntFindgen rd ra) s = .next (s.rejected (.ntFindgen rd ra) .noRoot 0)) ∧
    ((s.wInt ra).toNat.Prime → s.wInt ra ≠ 2 →
      ∃ (d : Wide) (g : Int), IsPatternOf s.build d g ∧ SmallestGenerator (s.wInt ra) g ∧
        MultiplicativeOrder (s.wInt ra) g ((s.wInt ra).toNat - 1) ∧
        exec (.ntFindgen rd ra) s = .next { s.writeW rd d with cseq := s.cseq + 1 })

/-- `NT.ROOT` (rules R155, R159): the power of the smallest generator, an element of order exactly `n`. -/
def Obligations.RootOfUnityOfGivenOrder : Prop :=
  ∀ (s : State) (rd ra rb : WReg),
    decode (formatR 0x13 rd ra rb 0 0) = .ok (.ntRoot rd ra rb) ∧
    (¬ (s.wInt rb).toNat.Prime →
      exec (.ntRoot rd ra rb) s = .next (s.rejected (.ntRoot rd ra rb) .modulusNotPrime 0)) ∧
    ((s.wInt rb).toNat.Prime → s.wInt ra < 1 ∨ ¬ s.wInt ra ∣ s.wInt rb - 1 ∨ s.wInt rb = 2 →
      exec (.ntRoot rd ra rb) s = .next (s.rejected (.ntRoot rd ra rb) .noRoot 0)) ∧
    ((s.wInt rb).toNat.Prime → s.wInt rb ≠ 2 → 1 ≤ s.wInt ra → s.wInt ra ∣ s.wInt rb - 1 →
      ∃ (d : Wide) (g z : Int), SmallestGenerator (s.wInt rb) g ∧ IsPatternOf s.build d z ∧
        z = g ^ ((s.wInt rb - 1) / s.wInt ra).toNat % s.wInt rb ∧
        MultiplicativeOrder (s.wInt rb) z (s.wInt ra).toNat ∧
        exec (.ntRoot rd ra rb) s = .next { s.writeW rd d with cseq := s.cseq + 1 })

/-! ### Family 2, RingLweZp64 -/

/-- `ZP.INIT` (rules R42, R183): its checks in order, and the slot it builds. -/
def Obligations.ZpInitBuildsSlot : Prop :=
  ∀ (s : State) (ra : XReg),
    decode (formatR 0x20 0 ra 0 0 0) = .ok (.zpInit ra) ∧
    (s.xInt ra < 2 → exec (.zpInit ra) s = .next (s.rejected (.zpInit ra) .badParameter 0)) ∧
    (2 ≤ s.xInt ra → ¬ (s.xInt ra).toNat.Prime →
      exec (.zpInit ra) s = .next (s.rejected (.zpInit ra) .modulusNotPrime 0)) ∧
    (2 ≤ s.xInt ra → (s.xInt ra).toNat.Prime → ∃ bits : Word,
      2 ^ (bits.toNat - 1) ≤ s.x[ra].toNat ∧ s.x[ra].toNat < 2 ^ bits.toNat ∧
      exec (.zpInit ra) s = .next { s with zp := some ⟨s.x[ra], bits⟩, cseq := s.cseq + 1 })

/-- `ZP.ADD`, `ZP.SUB`, `ZP.MUL` (rules R180 to R186): on the exact integers, into `[0, p)`. -/
def Obligations.ZpSumDifferenceProduct : Prop :=
  ∀ (s : State) (rd ra rb : XReg),
    decode (formatR 0x21 rd ra rb 0 0) = .ok (.zpAdd rd ra rb) ∧
    decode (formatR 0x22 rd ra rb 0 0) = .ok (.zpSub rd ra rb) ∧
    decode (formatR 0x23 rd ra rb 0 0) = .ok (.zpMul rd ra rb) ∧
    (s.zp = none →
      exec (.zpAdd rd ra rb) s = .next (s.rejected (.zpAdd rd ra rb) .noContext 0) ∧
      exec (.zpSub rd ra rb) s = .next (s.rejected (.zpSub rd ra rb) .noContext 0) ∧
      exec (.zpMul rd ra rb) s = .next (s.rejected (.zpMul rd ra rb) .noContext 0)) ∧
    ∀ c : ZpCtx, s.zp = some c → c.Valid →
      (∃ d : Word, sint d = (s.xInt ra + s.xInt rb) % sint c.p ∧
        exec (.zpAdd rd ra rb) s = .next { s.writeX rd d with cseq := s.cseq + 1 }) ∧
      (∃ d : Word, sint d = (s.xInt ra - s.xInt rb) % sint c.p ∧
        exec (.zpSub rd ra rb) s = .next { s.writeX rd d with cseq := s.cseq + 1 }) ∧
      (∃ d : Word, sint d = s.xInt ra * s.xInt rb % sint c.p ∧
        exec (.zpMul rd ra rb) s = .next { s.writeX rd d with cseq := s.cseq + 1 })

/-- `ZP.EXP` and `ZP.INV` (rules R180, R187, R188). -/
def Obligations.ZpPowerAndInverse : Prop :=
  ∀ (s : State) (rd ra rb : XReg),
    decode (formatR 0x24 rd ra rb 0 0) = .ok (.zpExp rd ra rb) ∧
    decode (formatR 0x25 rd ra 0 0 0) = .ok (.zpInv rd ra) ∧
    (s.zp = none →
      exec (.zpExp rd ra rb) s = .next (s.rejected (.zpExp rd ra rb) .noContext 0) ∧
      exec (.zpInv rd ra) s = .next (s.rejected (.zpInv rd ra) .noContext 0)) ∧
    ∀ c : ZpCtx, s.zp = some c → c.Valid →
      (s.xInt rb < 0 → exec (.zpExp rd ra rb) s = .next (s.rejected (.zpExp rd ra rb) .badOperand 0)) ∧
      (0 ≤ s.xInt rb → ∃ d : Word, sint d = s.xInt ra ^ (s.xInt rb).toNat % sint c.p ∧
        exec (.zpExp rd ra rb) s = .next { s.writeX rd d with cseq := s.cseq + 1 }) ∧
      (sint c.p ∣ s.xInt ra →
        exec (.zpInv rd ra) s = .next (s.rejected (.zpInv rd ra) .notInvertible 0)) ∧
      (¬ sint c.p ∣ s.xInt ra → ∃ d : Word, 1 ≤ sint d ∧ sint d < sint c.p ∧
        s.xInt ra * sint d % sint c.p = 1 ∧
        exec (.zpInv rd ra) s = .next { s.writeX rd d with cseq := s.cseq + 1 })

/-- `ZP.ROOT` and `ZP.GEN` (rules R180, R189, R190). -/
def Obligations.ZpRootAndGenerator : Prop :=
  ∀ (s : State) (rd ra : XReg),
    decode (formatR 0x26 rd ra 0 0 0) = .ok (.zpRoot rd ra) ∧
    decode (formatR 0x27 rd 0 0 0 0) = .ok (.zpGen rd) ∧
    (s.zp = none →
      exec (.zpRoot rd ra) s = .next (s.rejected (.zpRoot rd ra) .noContext 0) ∧
      exec (.zpGen rd) s = .next (s.rejected (.zpGen rd) .noContext 0)) ∧
    ∀ c : ZpCtx, s.zp = some c → c.Valid →
      (s.xInt ra < 1 ∨ ¬ s.xInt ra ∣ sint c.p - 1 ∨ sint c.p = 2 →
        exec (.zpRoot rd ra) s = .next (s.rejected (.zpRoot rd ra) .noRoot 0)) ∧
      (sint c.p = 2 → exec (.zpGen rd) s = .next (s.rejected (.zpGen rd) .noRoot 0)) ∧
      (sint c.p ≠ 2 → ∃ g : Word, SmallestGenerator (sint c.p) (sint g) ∧
        exec (.zpGen rd) s = .next { s.writeX rd g with cseq := s.cseq + 1 } ∧
        (1 ≤ s.xInt ra → s.xInt ra ∣ sint c.p - 1 → ∃ d : Word,
          sint d = sint g ^ ((sint c.p - 1) / s.xInt ra).toNat % sint c.p ∧
          MultiplicativeOrder (sint c.p) (sint d) (s.xInt ra).toNat ∧
          exec (.zpRoot rd ra) s = .next { s.writeX rd d with cseq := s.cseq + 1 }))

/-- The laws of the field, for all machine integers in `x1`, `x2`, `x3`; an operand of either side may be replaced by
any congruent one (rule R191). -/
def Obligations.ZpFieldLaws : Prop :=
  ∀ (s : State) (c : ZpCtx), s.run = .idle → s.zp = some c → c.Valid →
    (runProgram [.zpAdd 4 1 2] s).x[4] = (runProgram [.zpAdd 4 2 1] s).x[4] ∧
    (runProgram [.zpMul 4 1 2] s).x[4] = (runProgram [.zpMul 4 2 1] s).x[4] ∧
    (runProgram [.zpAdd 4 1 2, .zpAdd 4 4 3] s).x[4] = (runProgram [.zpAdd 4 2 3, .zpAdd 4 1 4] s).x[4] ∧
    (runProgram [.zpMul 4 1 2, .zpMul 4 4 3] s).x[4] = (runProgram [.zpMul 4 2 3, .zpMul 4 1 4] s).x[4] ∧
    (runProgram [.zpAdd 4 2 3, .zpMul 4 1 4] s).x[4] =
      (runProgram [.zpMul 4 1 2, .zpMul 5 1 3, .zpAdd 4 4 5] s).x[4] ∧
    (runProgram [.zpSub 4 1 2] s).x[4] = (runProgram [.li 5 0, .zpSub 5 5 2, .zpAdd 4 1 5] s).x[4] ∧
    (runProgram [.li 5 0, .zpSub 5 5 1, .zpAdd 4 1 5] s).x[4] = 0 ∧
    (s.xInt 1 % sint c.p ≠ 0 → (runProgram [.zpInv 5 1, .zpMul 4 1 5] s).x[4] = 1) ∧
    (s.xInt 1 % sint c.p ≠ 0 → s.xInt 2 = sint c.p - 1 → (runProgram [.zpExp 4 1 2] s).x[4] = 1) ∧
    (∀ d : Word, sint d % sint c.p = s.xInt 1 % sint c.p →
      (runProgram [.zpAdd 4 1 2] (s.writeX 1 d)).x[4] = (runProgram [.zpAdd 4 1 2] s).x[4] ∧
      (runProgram [.zpSub 4 1 2] (s.writeX 1 d)).x[4] = (runProgram [.zpSub 4 1 2] s).x[4] ∧
      (runProgram [.zpMul 4 1 2] (s.writeX 1 d)).x[4] = (runProgram [.zpMul 4 1 2] s).x[4] ∧
      (runProgram [.zpExp 4 1 2] (s.writeX 1 d)).x[4] = (runProgram [.zpExp 4 1 2] s).x[4] ∧
      (runProgram [.zpInv 4 1] (s.writeX 1 d)).x[4] = (runProgram [.zpInv 4 1] s).x[4]) ∧
    ∀ d : Word, sint d % sint c.p = s.xInt 2 % sint c.p →
      (runProgram [.zpAdd 4 1 2] (s.writeX 2 d)).x[4] = (runProgram [.zpAdd 4 1 2] s).x[4] ∧
      (runProgram [.zpSub 4 1 2] (s.writeX 2 d)).x[4] = (runProgram [.zpSub 4 1 2] s).x[4] ∧
      (runProgram [.zpMul 4 1 2] (s.writeX 2 d)).x[4] = (runProgram [.zpMul 4 1 2] s).x[4]

/-! ### Family 3, NttContext -/

/-- `NTT.INIT` (rules R211, R212, R214): its checks in order, and the slot it builds. -/
def Obligations.NttInitBuildsSlot : Prop :=
  ∀ (s : State) (ra rb : XReg),
    decode (formatR 0x30 0 ra rb 0 0) = .ok (.nttInit ra rb) ∧
    (¬ (PowerOfTwo (s.xInt ra) ∧ s.xInt ra ≤ s.build.nMax) →
      exec (.nttInit ra rb) s = .next (s.rejected (.nttInit ra rb) .badParameter 0)) ∧
    (PowerOfTwo (s.xInt ra) → s.xInt ra ≤ s.build.nMax →
      (s.xInt rb < 2 → exec (.nttInit ra rb) s = .next (s.rejected (.nttInit ra rb) .badParameter 1)) ∧
      (2 ≤ s.xInt rb → ¬ (s.xInt rb).toNat.Prime →
        exec (.nttInit ra rb) s = .next (s.rejected (.nttInit ra rb) .modulusNotPrime 0)) ∧
      ((s.xInt rb).toNat.Prime → ¬ 2 * s.xInt ra ∣ s.xInt rb - 1 →
        exec (.nttInit ra rb) s = .next (s.rejected (.nttInit ra rb) .noRoot 0)) ∧
      ((s.xInt rb).toNat.Prime → 2 * s.xInt ra ∣ s.xInt rb - 1 →
        ∃ psi psiinv ninv : Word, (∃ g : Int, SmallestGenerator (s.xInt rb) g ∧
            sint psi = g ^ ((s.xInt rb - 1) / (2 * s.xInt ra)).toNat % s.xInt rb) ∧
          MultiplicativeOrder (s.xInt rb) (sint psi) (2 * (s.xInt ra).toNat) ∧
          0 ≤ sint psiinv ∧ sint psiinv < s.xInt rb ∧ sint psi * sint psiinv % s.xInt rb = 1 ∧
          0 ≤ sint ninv ∧ sint ninv < s.xInt rb ∧ s.xInt ra * sint ninv % s.xInt rb = 1 ∧
          exec (.nttInit ra rb) s = .next { s with
            ntt := some { n := s.x[ra], p := s.x[rb], psi := psi, psiinv := psiinv, ninv := ninv,
                          rou := (List.range s.x[ra].toNat).map fun k => u64 (sint psi ^ k % s.xInt rb),
                          rouinv := (List.range s.x[ra].toNat).map fun k =>
                            u64 (sint psiinv ^ k % s.xInt rb) }
            cseq := s.cseq + 1 }))

/-- `NTT.RAW` (rules R210, R213, R215): the cyclic transform over the powers of `ω = T[1]²`, unscaled, in
natural order. -/
def Obligations.NttRawIsCyclicTransform : Prop :=
  ∀ (s : State) (rd : VReg) (sel : Bool),
    decode (formatR 0x31 rd 0 0 0 sel.toNat) = .ok (.nttRaw rd sel) ∧
    (s.ntt = none → exec (.nttRaw rd sel) s = .next (s.rejected (.nttRaw rd sel) .noContext 1)) ∧
    ∀ c : NttCtx, s.ntt = some c → c.Valid s.build →
      (s.v[rd].size ≠ c.n.toNat → exec (.nttRaw rd sel) s =
        .next (s.rejected (.nttRaw rd sel) .lengthMismatch (.ofNat 64 s.v[rd].size))) ∧
      (s.v[rd].size = c.n.toNat → ∃ omega : Int,
        omega = (if c.n.toNat = 1 then 1 else
          sint ((if sel then c.rouinv else c.rou).getD 1 0) ^ 2 % sint c.p) ∧
        exec (.nttRaw rd sel) s = .next
          { s.writeV rd ⟨(List.range c.n.toNat).map fun k =>
                u64 ((∑ j ∈ Finset.range c.n.toNat, s.element rd j * omega ^ (j * k)) % sint c.p),
              max s.v[rd].cap c.n.toNat⟩ with cseq := s.cseq + 1 })

/-- `NTT.FWD` (rules R210, R216): the values of the polynomial at the odd powers of `ψ`, in natural order. -/
def Obligations.NttForwardEvaluatesAtOddPowers : Prop :=
  ∀ (s : State) (rd : VReg),
    decode (formatR 0x32 rd 0 0 0 0) = .ok (.nttFwd rd) ∧
    (s.ntt = none → exec (.nttFwd rd) s = .next (s.rejected (.nttFwd rd) .noContext 1)) ∧
    ∀ c : NttCtx, s.ntt = some c → c.Valid s.build →
      (s.v[rd].size ≠ c.n.toNat → exec (.nttFwd rd) s =
        .next (s.rejected (.nttFwd rd) .lengthMismatch (.ofNat 64 s.v[rd].size))) ∧
      (s.v[rd].size = c.n.toNat → exec (.nttFwd rd) s = .next
        { s.writeV rd ⟨(List.range c.n.toNat).map fun k =>
              u64 ((∑ j ∈ Finset.range c.n.toNat, s.element rd j * sint c.psi ^ ((2 * k + 1) * j)) %
                sint c.p),
            max s.v[rd].cap c.n.toNat⟩ with cseq := s.cseq + 1 })

/-- `NTT.INV` and `NTT.PMUL` (rules R210, R217, R218). -/
def Obligations.NttInverseAndPointwiseProduct : Prop :=
  ∀ (s : State) (rd ra rb : VReg),
    decode (formatR 0x33 rd 0 0 0 0) = .ok (.nttInv rd) ∧
    decode (formatR 0x34 rd ra rb 0 0) = .ok (.nttPmul rd ra rb) ∧
    (s.ntt = none → exec (.nttInv rd) s = .next (s.rejected (.nttInv rd) .noContext 1) ∧
      exec (.nttPmul rd ra rb) s = .next (s.rejected (.nttPmul rd ra rb) .noContext 1)) ∧
    ∀ c : NttCtx, s.ntt = some c → c.Valid s.build →
      (s.v[rd].size ≠ c.n.toNat → exec (.nttInv rd) s =
        .next (s.rejected (.nttInv rd) .lengthMismatch (.ofNat 64 s.v[rd].size))) ∧
      (s.v[rd].size = c.n.toNat → exec (.nttInv rd) s = .next
        { s.writeV rd ⟨(List.range c.n.toNat).map fun i =>
              u64 (sint c.ninv * sint c.psiinv ^ i *
                (∑ j ∈ Finset.range c.n.toNat, s.element rd j * sint c.psiinv ^ (2 * i * j)) % sint c.p),
            max s.v[rd].cap c.n.toNat⟩ with cseq := s.cseq + 1 }) ∧
      (s.v[ra].size ≠ c.n.toNat → exec (.nttPmul rd ra rb) s =
        .next (s.rejected (.nttPmul rd ra rb) .lengthMismatch (.ofNat 64 s.v[ra].size))) ∧
      (s.v[ra].size = c.n.toNat → s.v[rb].size ≠ c.n.toNat → exec (.nttPmul rd ra rb) s =
        .next (s.rejected (.nttPmul rd ra rb) .lengthMismatch (.ofNat 64 s.v[rb].size))) ∧
      (s.v[ra].size = c.n.toNat → s.v[rb].size = c.n.toNat → exec (.nttPmul rd ra rb) s = .next
        { s.writeV rd ⟨(List.range c.n.toNat).map fun i =>
              u64 (s.element ra i * s.element rb i % sint c.p),
            max s.v[rd].cap c.n.toNat⟩ with cseq := s.cseq + 1 })

/-- `NTT.INV` after `NTT.FWD`, and `NTT.FWD` after `NTT.INV`, gives the normalized elements back (rule
R217). -/
def Obligations.NttRoundTrip : Prop :=
  ∀ (s : State) (rd : VReg) (c : NttCtx), s.run = .idle → s.ntt = some c → c.Valid s.build →
    s.v[rd].size = c.n.toNat →
      (runProgram [.nttFwd rd, .nttInv rd] s).elems rd = (s.elems rd).map (fun a => a % sint c.p) ∧
      (runProgram [.nttInv rd, .nttFwd rd] s).elems rd = (s.elems rd).map (fun a => a % sint c.p)

/-- The primary correctness property (rule R220): transforming two vectors, multiplying them pointwise and
transforming back gives the schoolbook product modulo `x^N + 1` and `p`. -/
def Obligations.NttProductIsSchoolbookProduct : Prop :=
  ∀ (s : State) (rd ra rb : VReg) (c : NttCtx), s.run = .idle → s.ntt = some c → c.Valid s.build → ra ≠ rb →
    s.v[ra].size = c.n.toNat → s.v[rb].size = c.n.toNat →
      (runProgram [.nttFwd ra, .nttFwd rb, .nttPmul rd ra rb, .nttInv rd] s).elems rd =
        (List.range c.n.toNat).map fun k =>
          negacyclicSum c.n.toNat (s.element ra) (s.element rb) k % sint c.p

/-! ### Family 4, CrtContext -/

/-- `CRT.INIT` (rules R241, R242, R248): its checks in order; the `numPrimes` smallest primes above
`2^primeSize` and 1 modulo `2d`, ascending, and the constants derived from them; `NO_PRIME_FOUND` with the
number found when there are fewer below 2^63; `WIDE_OVERFLOW` when their product does not fit a wide register. -/
def Obligations.CrtInitBuildsSlot : Prop :=
  ∀ (s : State) (ra rb rc : XReg),
    decode (formatR 0x40 0 ra rb rc 0) = .ok (.crtInit ra rb rc) ∧
    (¬ (1 ≤ s.xInt ra ∧ s.xInt ra ≤ s.build.nPrimeMax) →
      exec (.crtInit ra rb rc) s = .next (s.rejected (.crtInit ra rb rc) .badParameter 0)) ∧
    (1 ≤ s.xInt ra → s.xInt ra ≤ s.build.nPrimeMax →
      (¬ (0 ≤ s.xInt rb ∧ s.xInt rb ≤ 62) →
        exec (.crtInit ra rb rc) s = .next (s.rejected (.crtInit ra rb rc) .badParameter 1)) ∧
      (0 ≤ s.xInt rb → s.xInt rb ≤ 62 →
        (¬ (PowerOfTwo (s.xInt rc) ∧ s.xInt rc ≤ s.build.nMax) →
          exec (.crtInit ra rb rc) s = .next (s.rejected (.crtInit ra rb rc) .badParameter 2)) ∧
        (PowerOfTwo (s.xInt rc) → s.xInt rc ≤ s.build.nMax →
          ∀ found : List Int, found.Pairwise (· < ·) → (∀ q ∈ found, CrtPrime (s.xInt rb) (s.xInt rc) q) →
            ((found.length : Int) < s.xInt ra →
              (∀ q, CrtPrime (s.xInt rb) (s.xInt rc) q → q ∈ found) →
              exec (.crtInit ra rb rc) s =
                .next (s.rejected (.crtInit ra rb rc) .noPrimeFound (.ofNat 64 found.length))) ∧
            ((found.length : Int) = s.xInt ra →
              (∀ q, CrtPrime (s.xInt rb) (s.xInt rc) q → q ∈ found ∨ ∀ r ∈ found, r < q) →
              (¬ found.prod < 2 ^ (s.build.wideW - 1) → exec (.crtInit ra rb rc) s =
                .next (s.rejected (.crtInit ra rb rc) .wideOverflow 0)) ∧
              (found.prod < 2 ^ (s.build.wideW - 1) → ∃ c : CrtCtx,
                c.numPrimes = s.x[ra] ∧ c.primeSize = s.x[rb] ∧ c.degree = s.x[rc] ∧
                c.primes.map sint = found ∧ c.bigM.toNat = found.prod ∧
                2 ^ (64 * (c.limbs.toNat - 1)) ≤ found.prod ∧ found.prod < 2 ^ (64 * c.limbs.toNat) ∧
                c.mi.map (fun m => (m.toNat : Int)) = found.map (fun q => found.prod / q) ∧
                List.Forall₂ (fun q y => 0 ≤ sint y ∧ sint y < q ∧ found.prod / q * sint y % q = 1)
                  found c.miInv ∧
                exec (.crtInit ra rb rc) s = .next { s with crt := some c, cseq := s.cseq + 1 })))))

/-- `CRT.ENC`, `CRT.PRIMES`, `CRT.MOD` (rules R31, R240, R243, R245, R246). In a build whose buffers are smaller than
the prime list the first two meet the check of `VecAssign` (log entry 17). -/
def Obligations.CrtResiduesAndConstants : Prop :=
  ∀ (s : State) (rd : VReg) (wd wa : WReg),
    decode (formatR 0x41 rd wa 0 0 0) = .ok (.crtEnc rd wa) ∧
    decode (formatR 0x43 rd 0 0 0 0) = .ok (.crtPrimes rd) ∧
    decode (formatR 0x44 wd 0 0 0 0) = .ok (.crtMod wd) ∧
    (s.crt = none → exec (.crtEnc rd wa) s = .next (s.rejected (.crtEnc rd wa) .noContext 2) ∧
      exec (.crtPrimes rd) s = .next (s.rejected (.crtPrimes rd) .noContext 2) ∧
      exec (.crtMod wd) s = .next (s.rejected (.crtMod wd) .noContext 2)) ∧
    ∀ c : CrtCtx, s.crt = some c → c.Valid s.build →
      (c.numPrimes.toNat ≤ s.build.vcapMax →
        exec (.crtEnc rd wa) s = .next
          { s.writeV rd ⟨c.primes.map fun q => u64 (s.wInt wa % sint q), max s.v[rd].cap c.numPrimes.toNat⟩
            with cseq := s.cseq + 1 } ∧
        exec (.crtPrimes rd) s = .next
          { s.writeV rd ⟨c.primes, max s.v[rd].cap c.numPrimes.toNat⟩ with cseq := s.cseq + 1 }) ∧
      (s.build.vcapMax < c.numPrimes.toNat →
        exec (.crtEnc rd wa) s = .next (s.rejected (.crtEnc rd wa) .capacityExceeded c.numPrimes) ∧
        exec (.crtPrimes rd) s = .next (s.rejected (.crtPrimes rd) .capacityExceeded c.numPrimes)) ∧
      IsPatternOf s.build c.bigM c.bigM.toNat ∧
      exec (.crtMod wd) s = .next { s.writeW wd c.bigM with cseq := s.cseq + 1 }

/-- `CRT.DEC` (rules R240, R244): the one value in `[0, M)` that agrees with every residue, whatever machine
integers the residues are. -/
def Obligations.CrtReconstructsTheUniqueValue : Prop :=
  ∀ (s : State) (wd : WReg) (ra : VReg),
    decode (formatR 0x42 wd ra 0 0 0) = .ok (.crtDec wd ra) ∧
    (s.crt = none → exec (.crtDec wd ra) s = .next (s.rejected (.crtDec wd ra) .noContext 2)) ∧
    ∀ c : CrtCtx, s.crt = some c → c.Valid s.build →
      (s.v[ra].size ≠ c.numPrimes.toNat → exec (.crtDec wd ra) s =
        .next (s.rejected (.crtDec wd ra) .lengthMismatch (.ofNat 64 s.v[ra].size))) ∧
      (s.v[ra].size = c.numPrimes.toNat → ∃ (d : Wide) (t : Int), IsPatternOf s.build d t ∧
        exec (.crtDec wd ra) s = .next { s.writeW wd d with cseq := s.cseq + 1 } ∧
        0 ≤ t ∧ t < c.bigM.toNat ∧
        List.Forall₂ (fun q r => t % sint q = r % sint q) c.primes (s.elems ra) ∧
        ∀ z : Int, 0 ≤ z → z < c.bigM.toNat →
          List.Forall₂ (fun q r => z % sint q = r % sint q) c.primes (s.elems ra) → z = t)

/-- The round trip (rule R247): decoding the residues of a wide value gives the value modulo `M`, where a buffer can
hold the residues (log entry 17). -/
def Obligations.CrtRoundTrip : Prop :=
  ∀ (s : State) (wd wa : WReg) (rd : VReg) (c : CrtCtx), s.run = .idle → s.crt = some c → c.Valid s.build →
    c.numPrimes.toNat ≤ s.build.vcapMax →
    (runProgram [.crtEnc rd wa, .crtDec wd rd] s).wInt wd = s.wInt wa % c.bigM.toNat

/-! ### Family 5, GaloisTool -/

/-- `GAL.INIT`, `GAL.ELT`, `GAL.ELTS` (rules R270 to R274): only the literal step 0 is the conjugation, and
every element is odd and in `[1, 2N)`. -/
def Obligations.GaloisElementsFromSteps : Prop :=
  ∀ (s : State) (xd xa : XReg) (rd ra : VReg),
    decode (formatR 0x50 0 xa 0 0 0) = .ok (.galInit xa) ∧
    decode (formatR 0x51 xd xa 0 0 0) = .ok (.galElt xd xa) ∧
    decode (formatR 0x52 rd ra 0 0 0) = .ok (.galElts rd ra) ∧
    (PowerOfTwo (s.xInt xa) → 2 ≤ s.xInt xa → s.xInt xa ≤ s.build.nMax →
      exec (.galInit xa) s = .next { s with gal := some ⟨s.x[xa]⟩, cseq := s.cseq + 1 }) ∧
    (¬ (PowerOfTwo (s.xInt xa) ∧ 2 ≤ s.xInt xa ∧ s.xInt xa ≤ s.build.nMax) →
      exec (.galInit xa) s = .next (s.rejected (.galInit xa) .badParameter 0)) ∧
    (s.gal = none → exec (.galElt xd xa) s = .next (s.rejected (.galElt xd xa) .noContext 3) ∧
      exec (.galElts rd ra) s = .next (s.rejected (.galElts rd ra) .noContext 3)) ∧
    ∀ c : GalCtx, s.gal = some c → c.Valid s.build → ∃ elt : Int → Int,
      elt 0 = 2 * sint c.n - 1 ∧
      (∀ step, step ≠ 0 → elt step = 3 ^ (step % (sint c.n / 2)).toNat % (2 * sint c.n)) ∧
      (∀ step, 1 ≤ elt step ∧ elt step < 2 * sint c.n ∧ elt step % 2 = 1) ∧
      exec (.galElt xd xa) s = .next { s.writeX xd (u64 (elt (s.xInt xa))) with cseq := s.cseq + 1 } ∧
      (s.v.wf s.build → exec (.galElts rd ra) s = .next
        { s.writeV rd ⟨(s.elems ra).map fun step => u64 (elt step), max s.v[rd].cap s.v[ra].size⟩
          with cseq := s.cseq + 1 })

/-- `GAL.IDX` (rules R270, R275) and `GAL.ALL` (rule R276). The list of `GAL.ALL` for `N ≠ 8` is an open
parameter of the spec: the statement says of it only that it is one list for each build and `N`, at most `VCAPMAX`
long (log entry 6). -/
def Obligations.GaloisIndexAndEnumeration : Prop :=
  ∀ (s : State) (xd xa : XReg) (rd : VReg),
    decode (formatR 0x53 xd xa 0 0 0) = .ok (.galIdx xd xa) ∧
    decode (formatR 0x54 rd 0 0 0 0) = .ok (.galAll rd) ∧
    (s.gal = none → exec (.galIdx xd xa) s = .next (s.rejected (.galIdx xd xa) .noContext 3) ∧
      exec (.galAll rd) s = .next (s.rejected (.galAll rd) .noContext 3)) ∧
    ∀ c : GalCtx, s.gal = some c → c.Valid s.build →
      (1 ≤ s.xInt xa → s.xInt xa < 2 * sint c.n → s.xInt xa % 2 = 1 → ∃ d : Word,
        2 * sint d + 1 = s.xInt xa ∧ 0 ≤ sint d ∧ sint d < sint c.n ∧
        exec (.galIdx xd xa) s = .next { s.writeX xd d with cseq := s.cseq + 1 }) ∧
      (¬ (1 ≤ s.xInt xa ∧ s.xInt xa < 2 * sint c.n ∧ s.xInt xa % 2 = 1) →
        exec (.galIdx xd xa) s = .next (s.rejected (.galIdx xd xa) .indexOutOfRange s.x[xa])) ∧
      (sint c.n = 8 → exec (.galAll rd) s = .next
        { s.writeV rd ⟨[15, 3, 11, 9, 9], max s.v[rd].cap 5⟩ with cseq := s.cseq + 1 }) ∧
      (Config.galoisEltsAll s.build c.n.toNat).length ≤ s.build.vcapMax ∧
      exec (.galAll rd) s = .next
        { s.writeV rd ⟨Config.galoisEltsAll s.build c.n.toNat,
            max s.v[rd].cap (Config.galoisEltsAll s.build c.n.toNat).length⟩ with cseq := s.cseq + 1 }

/-- The laws of the mapping (rule R277): the index of an element never faults and lies in `[0, N)`, elements
repeat with period `N/2` in the nonzero steps, and adding nonzero steps multiplies elements modulo `2N`. -/
def Obligations.GaloisLaws : Prop :=
  ∀ (s : State) (c : GalCtx), s.run = .idle → s.gal = some c → c.Valid s.build →
    ((runProgram [.galElt 2 1, .galIdx 3 2] s).run = .idle ∧
      0 ≤ (runProgram [.galElt 2 1, .galIdx 3 2] s).xInt 3 ∧
      (runProgram [.galElt 2 1, .galIdx 3 2] s).xInt 3 < sint c.n) ∧
    (s.xInt 1 ≠ 0 → s.xInt 2 ≠ 0 → (∃ k : Int, s.xInt 2 = s.xInt 1 + k * (sint c.n / 2)) →
      (runProgram [.galElt 3 1] s).x[3] = (runProgram [.galElt 3 2] s).x[3]) ∧
    (s.xInt 1 ≠ 0 → s.xInt 2 ≠ 0 → s.xInt 3 = s.xInt 1 + s.xInt 2 → s.xInt 3 ≠ 0 →
      (runProgram [.galElt 4 3] s).xInt 4 =
        (runProgram [.galElt 4 1] s).xInt 4 * (runProgram [.galElt 4 2] s).xInt 4 % (2 * sint c.n))

/-! ### Family 6, Polynomial -/

/-- `POLY.ADD` and `POLY.SUB` (rules R291, R293, R294): coefficient by coefficient on the exact integers. -/
def Obligations.PolySumAndDifference : Prop :=
  ∀ (s : State) (rd ra rb : VReg) (rc : XReg),
    decode (formatR 0x60 rd ra rb rc 0) = .ok (.polyAdd rd ra rb rc) ∧
    decode (formatR 0x61 rd ra rb rc 0) = .ok (.polySub rd ra rb rc) ∧
    (s.v[ra].size ≠ s.v[rb].size →
      exec (.polyAdd rd ra rb rc) s =
        .next (s.rejected (.polyAdd rd ra rb rc) .lengthMismatch (.ofNat 64 s.v[rb].size)) ∧
      exec (.polySub rd ra rb rc) s =
        .next (s.rejected (.polySub rd ra rb rc) .lengthMismatch (.ofNat 64 s.v[rb].size))) ∧
    (s.v[ra].size = s.v[rb].size → s.xInt rc < 1 →
      exec (.polyAdd rd ra rb rc) s = .next (s.rejected (.polyAdd rd ra rb rc) .badOperand 0) ∧
      exec (.polySub rd ra rb rc) s = .next (s.rejected (.polySub rd ra rb rc) .badOperand 0)) ∧
    (s.v.wf s.build → s.v[ra].size = s.v[rb].size → 1 ≤ s.xInt rc →
      exec (.polyAdd rd ra rb rc) s = .next
        { s.writeV rd ⟨(List.range s.v[ra].size).map fun k =>
              u64 ((s.element ra k + s.element rb k) % s.xInt rc), max s.v[rd].cap s.v[ra].size⟩
          with cseq := s.cseq + 1 } ∧
      exec (.polySub rd ra rb rc) s = .next
        { s.writeV rd ⟨(List.range s.v[ra].size).map fun k =>
              u64 ((s.element ra k - s.element rb k) % s.xInt rc), max s.v[rd].cap s.v[ra].size⟩
          with cseq := s.cseq + 1 })

/-- `POLY.MUL` (rules R291, R292, R295): the schoolbook product modulo `x^n + 1`; and `POLY.EQ` (rule R298),
which compares sizes and patterns and never faults. -/
def Obligations.PolySchoolbookProductAndEquality : Prop :=
  ∀ (s : State) (rd ra rb : VReg) (rc xd : XReg),
    decode (formatR 0x62 rd ra rb rc 0) = .ok (.polyMul rd ra rb rc) ∧
    decode (formatR 0x65 xd ra rb 0 0) = .ok (.polyEq xd ra rb) ∧
    (s.v[ra].size ≠ s.v[rb].size → exec (.polyMul rd ra rb rc) s =
      .next (s.rejected (.polyMul rd ra rb rc) .lengthMismatch (.ofNat 64 s.v[rb].size))) ∧
    (s.v[ra].size = s.v[rb].size → s.xInt rc < 1 → exec (.polyMul rd ra rb rc) s =
      .next (s.rejected (.polyMul rd ra rb rc) .badOperand 0)) ∧
    (s.v.wf s.build → s.v[ra].size = s.v[rb].size → 1 ≤ s.xInt rc → exec (.polyMul rd ra rb rc) s = .next
      { s.writeV rd ⟨(List.range s.v[ra].size).map fun k =>
            u64 (negacyclicSum s.v[ra].size (s.element ra) (s.element rb) k % s.xInt rc),
          max s.v[rd].cap s.v[ra].size⟩ with cseq := s.cseq + 1 }) ∧
    ((s.v[ra].size = s.v[rb].size ∧ ∀ k < s.v[ra].size, s.v[ra].elems[k]? = s.v[rb].elems[k]?) →
      exec (.polyEq xd ra rb) s = .next { s.writeX xd 1 with cseq := s.cseq + 1 }) ∧
    (¬ (s.v[ra].size = s.v[rb].size ∧ ∀ k < s.v[ra].size, s.v[ra].elems[k]? = s.v[rb].elems[k]?) →
      exec (.polyEq xd ra rb) s = .next { s.writeX xd 0 with cseq := s.cseq + 1 })

/-- `POLY.MULN` (rules R220, R296): the product through the `NTT` slot is the schoolbook product modulo
`NTT.p`. -/
def Obligations.PolyNttProductIsSchoolbookProduct : Prop :=
  ∀ (s : State) (rd ra rb : VReg),
    decode (formatR 0x63 rd ra rb 0 0) = .ok (.polyMuln rd ra rb) ∧
    (s.ntt = none → exec (.polyMuln rd ra rb) s = .next (s.rejected (.polyMuln rd ra rb) .noContext 1)) ∧
    ∀ c : NttCtx, s.ntt = some c → c.Valid s.build →
      (s.v[ra].size ≠ c.n.toNat → exec (.polyMuln rd ra rb) s =
        .next (s.rejected (.polyMuln rd ra rb) .lengthMismatch (.ofNat 64 s.v[ra].size))) ∧
      (s.v[ra].size = c.n.toNat → s.v[rb].size ≠ c.n.toNat → exec (.polyMuln rd ra rb) s =
        .next (s.rejected (.polyMuln rd ra rb) .lengthMismatch (.ofNat 64 s.v[rb].size))) ∧
      (s.v[ra].size = c.n.toNat → s.v[rb].size = c.n.toNat → exec (.polyMuln rd ra rb) s = .next
        { s.writeV rd ⟨(List.range c.n.toNat).map fun k =>
              u64 (negacyclicSum c.n.toNat (s.element ra) (s.element rb) k % sint c.p),
            max s.v[rd].cap c.n.toNat⟩ with cseq := s.cseq + 1 })

/-- `POLY.MULC` (rule R297): every coefficient of the exact product modulo `M`, as `CRT.limbs` little-endian
words, coefficient 0 first. -/
def Obligations.PolyCrtProductIsExactProduct : Prop :=
  ∀ (s : State) (rd ra rb : VReg),
    decode (formatR 0x64 rd ra rb 0 0) = .ok (.polyMulc rd ra rb) ∧
    (s.crt = none → exec (.polyMulc rd ra rb) s = .next (s.rejected (.polyMulc rd ra rb) .noContext 2)) ∧
    ∀ c : CrtCtx, s.crt = some c → c.Valid s.build →
      (s.v[ra].size ≠ c.degree.toNat → exec (.polyMulc rd ra rb) s =
        .next (s.rejected (.polyMulc rd ra rb) .lengthMismatch (.ofNat 64 s.v[ra].size))) ∧
      (s.v[ra].size = c.degree.toNat → s.v[rb].size ≠ c.degree.toNat → exec (.polyMulc rd ra rb) s =
        .next (s.rejected (.polyMulc rd ra rb) .lengthMismatch (.ofNat 64 s.v[rb].size))) ∧
      (s.v[ra].size = c.degree.toNat → s.v[rb].size = c.degree.toNat → exec (.polyMulc rd ra rb) s = .next
        { s.writeV rd ⟨(List.range (c.degree.toNat * c.limbs.toNat)).map fun w =>
              u64 (negacyclicSum c.degree.toNat (s.element ra) (s.element rb) (w / c.limbs.toNat) %
                c.bigM.toNat / 2 ^ (64 * (w % c.limbs.toNat))),
            max s.v[rd].cap (c.degree.toNat * c.limbs.toNat)⟩ with cseq := s.cseq + 1 })

/-! ### Family 7, RandomSample -/

/-- The results of the samplers (rules R321 to R323): their checks in order, and a member of the rule's set
as the buffer. The draws are free values (log entry 4), and `draws` is the model's own count of them. -/
def Obligations.SamplesLieInTheRulesSet : Prop :=
  ∀ (s : State) (rd : VReg) (ra rb rc : XReg),
    decode (formatR 0x70 rd ra rb 0 0) = .ok (.rndHwt rd ra rb) ∧
    (s.xInt ra < 0 ∨ s.xInt rb < 0 ∨ s.xInt ra < s.xInt rb →
      exec (.rndHwt rd ra rb) s = .next (s.rejected (.rndHwt rd ra rb) .badOperand 0)) ∧
    (0 ≤ s.xInt rb → s.xInt rb ≤ s.xInt ra →
      (s.build.vcapMax < s.xInt ra →
        exec (.rndHwt rd ra rb) s = .next (s.rejected (.rndHwt rd ra rb) .capacityExceeded s.x[ra])) ∧
      (s.xInt ra ≤ s.build.vcapMax → ∃ l : List Int, (l.length : Int) = s.xInt ra ∧
        (∀ z ∈ l, z = -1 ∨ z = 0 ∨ z = 1) ∧ ((l.countP (· ≠ 0) : Nat) : Int) = s.xInt rb ∧
        exec (.rndHwt rd ra rb) s = .next { s.writeV rd ⟨l.map u64, max s.v[rd].cap l.length⟩
          with draws := s.draws + 1, cseq := s.cseq + 1 })) ∧
    decode (formatR 0x71 rd ra 0 0 0) = .ok (.rndTri rd ra) ∧
    (s.xInt ra < 0 → exec (.rndTri rd ra) s = .next (s.rejected (.rndTri rd ra) .badOperand 0)) ∧
    (s.build.vcapMax < s.xInt ra →
      exec (.rndTri rd ra) s = .next (s.rejected (.rndTri rd ra) .capacityExceeded s.x[ra])) ∧
    (0 ≤ s.xInt ra → s.xInt ra ≤ s.build.vcapMax → ∃ l : List Int, (l.length : Int) = s.xInt ra ∧
      (∀ z ∈ l, -(Config.triBound s.build : Int) ≤ z ∧ z ≤ Config.triBound s.build) ∧
      exec (.rndTri rd ra) s = .next { s.writeV rd ⟨l.map u64, max s.v[rd].cap l.length⟩
        with draws := s.draws + 1, cseq := s.cseq + 1 }) ∧
    decode (formatR 0x72 rd ra rb rc 0) = .ok (.rndUni rd ra rb rc) ∧
    (s.xInt ra < 0 ∨ s.xInt rb ≤ s.xInt ra ∨ s.xInt rc < 0 →
      exec (.rndUni rd ra rb rc) s = .next (s.rejected (.rndUni rd ra rb rc) .badOperand 0)) ∧
    (0 ≤ s.xInt ra → s.xInt ra < s.xInt rb → s.build.vcapMax < s.xInt rc → exec (.rndUni rd ra rb rc) s =
      .next (s.rejected (.rndUni rd ra rb rc) .capacityExceeded s.x[rc])) ∧
    (0 ≤ s.xInt ra → s.xInt ra < s.xInt rb → 0 ≤ s.xInt rc → s.xInt rc ≤ s.build.vcapMax →
      ∃ l : List Int, (l.length : Int) = s.xInt rc ∧ (∀ z ∈ l, s.xInt ra ≤ z ∧ z < s.xInt rb) ∧
        exec (.rndUni rd ra rb rc) s = .next { s.writeV rd ⟨l.map u64, max s.v[rd].cap l.length⟩
          with draws := s.draws + 1, cseq := s.cseq + 1 })

/-- No set is shrunk (rule R320): every member of each rule's set is what the sampler makes of some answers
of the source. -/
def Obligations.EveryMemberOfTheSetCanBeDrawn : Prop :=
  (∀ (n h : Nat) (l : List Int), l.length = n → (∀ z ∈ l, z = -1 ∨ z = 0 ∨ z = 1) →
    l.countP (· ≠ 0) = h → ∃ f, drawTernary f n h = l) ∧
  (∀ (bound n : Nat) (l : List Int), l.length = n → (∀ z ∈ l, -(bound : Int) ≤ z ∧ z ≤ bound) →
    ∃ f, drawCentered f bound n = l) ∧
  ∀ (lo hi : Int) (n : Nat) (l : List Int), l.length = n → (∀ z ∈ l, lo ≤ z ∧ z < hi) →
    ∃ f, drawRange f lo hi n = l

/-! ### Family 8, DynArray -/

/-- `VSIZE`, `VCAP`, `VEMPTY` (rules R340 to R342). -/
def Obligations.BufferExtents : Prop :=
  ∀ (s : State) (xd : XReg) (ra : VReg),
    decode (formatR 0x80 xd ra 0 0 0) = .ok (.vsize xd ra) ∧
    exec (.vsize xd ra) s = .next { s.writeX xd (.ofNat 64 s.v[ra].size) with cseq := s.cseq + 1 } ∧
    decode (formatR 0x81 xd ra 0 0 0) = .ok (.vcap xd ra) ∧
    exec (.vcap xd ra) s = .next { s.writeX xd (.ofNat 64 s.v[ra].cap) with cseq := s.cseq + 1 } ∧
    decode (formatR 0x82 xd ra 0 0 0) = .ok (.vempty xd ra) ∧
    exec (.vempty xd ra) s =
      .next { s.writeX xd (if s.v[ra].size = 0 then 1 else 0) with cseq := s.cseq + 1 }

/-- `VRESIZE`, `VRESERVE`, `VSHRINK` (rules R343 to R345). -/
def Obligations.BufferResizing : Prop :=
  ∀ (s : State) (rd : VReg) (xa : XReg),
    decode (formatR 0x83 rd xa 0 0 0) = .ok (.vresize rd xa) ∧
    decode (formatR 0x84 rd xa 0 0 0) = .ok (.vreserve rd xa) ∧
    decode (formatR 0x85 rd 0 0 0 0) = .ok (.vshrink rd) ∧
    (s.xInt xa < 0 →
      exec (.vresize rd xa) s = .next (s.rejected (.vresize rd xa) .badOperand 0) ∧
      exec (.vreserve rd xa) s = .next (s.rejected (.vreserve rd xa) .badOperand 0)) ∧
    (s.build.vcapMax < s.xInt xa →
      exec (.vresize rd xa) s = .next (s.rejected (.vresize rd xa) .capacityExceeded s.x[xa]) ∧
      exec (.vreserve rd xa) s = .next (s.rejected (.vreserve rd xa) .capacityExceeded s.x[xa])) ∧
    (0 ≤ s.xInt xa → s.xInt xa ≤ s.build.vcapMax →
      (∃ b : Buffer, b.size = s.x[xa].toNat ∧
        b.cap = (if s.v[rd].cap < s.x[xa].toNat then s.x[xa].toNat else s.v[rd].cap) ∧
        (∀ k < s.x[xa].toNat, b.elems[k]? = some (if k < s.v[rd].size then s.v[rd].elems.getD k 0 else 0)) ∧
        exec (.vresize rd xa) s = .next { s.writeV rd b with cseq := s.cseq + 1 }) ∧
      exec (.vreserve rd xa) s = .next { s.writeV rd ⟨s.v[rd].elems,
          if s.v[rd].cap < s.x[xa].toNat then s.x[xa].toNat else s.v[rd].cap⟩
        with cseq := s.cseq + 1 }) ∧
    exec (.vshrink rd) s =
      .next { s.writeV rd ⟨s.v[rd].elems, s.v[rd].size⟩ with cseq := s.cseq + 1 }

/-- `VAT` and `VSET` (rules R346 to R348): the bounds check against `size`, the element read, and the one
element written. -/
def Obligations.ElementAccess : Prop :=
  ∀ (s : State) (xd xa xb : XReg) (vd va : VReg),
    decode (formatR 0x86 xd va xb 0 0) = .ok (.vat xd va xb) ∧
    decode (formatR 0x87 vd xa xb 0 0) = .ok (.vset vd xa xb) ∧
    (¬ (0 ≤ s.xInt xb ∧ s.xInt xb < s.v[va].size) →
      exec (.vat xd va xb) s = .next (s.rejected (.vat xd va xb) .indexOutOfRange s.x[xb])) ∧
    (0 ≤ s.xInt xb → s.xInt xb < s.v[va].size → ∃ d : Word, s.v[va].elems[s.x[xb].toNat]? = some d ∧
      exec (.vat xd va xb) s = .next { s.writeX xd d with cseq := s.cseq + 1 }) ∧
    (¬ (0 ≤ s.xInt xa ∧ s.xInt xa < s.v[vd].size) →
      exec (.vset vd xa xb) s = .next (s.rejected (.vset vd xa xb) .indexOutOfRange s.x[xa])) ∧
    (0 ≤ s.xInt xa → s.xInt xa < s.v[vd].size → exec (.vset vd xa xb) s =
      .next { s.writeV vd ⟨s.v[vd].elems.set s.x[xa].toNat s.x[xb], s.v[vd].cap⟩
        with cseq := s.cseq + 1 })

/-- The invariants of a buffer (rule R349): an element that was set keeps its value through a later resize
above its index, a reserve and a shrink; `cap ≥ n` after a resize to `n` and `cap = size` after a shrink. -/
def Obligations.BufferKeepsSetElement : Prop :=
  ∀ (s : State) (rd : VReg) (xi xv xn xc : XReg), s.run = .idle → s.v.wf s.build →
    0 ≤ s.xInt xi → s.xInt xi < s.v[rd].size → s.xInt xi < s.xInt xn → s.xInt xn ≤ s.build.vcapMax →
    0 ≤ s.xInt xc → s.xInt xc ≤ s.build.vcapMax →
      let t := runProgram [.vset rd xi xv, .vresize rd xn, .vreserve rd xc] s
      let u := runProgram [.vset rd xi xv, .vresize rd xn, .vreserve rd xc, .vshrink rd] s
      t.run = .idle ∧ t.v[rd].elems[s.x[xi].toNat]? = some s.x[xv] ∧
      (t.v[rd].size : Int) = s.xInt xn ∧ s.xInt xn ≤ t.v[rd].cap ∧ t.v.wf s.build ∧
      u.run = .idle ∧ u.v[rd].elems[s.x[xi].toNat]? = some s.x[xv] ∧ u.v[rd].cap = u.v[rd].size ∧
      u.v[rd].size = t.v[rd].size ∧ u.v.wf s.build
end

