-- ==== Sys2Proof/Laws/State.lean ====
section
/-! SUPPORT. Laws of State: what each update of the state leaves in each field, one lemma per field per
update, and reading back what an update wrote. -/

namespace Sys2Proof.Machine

@[simp] theorem State.writeX_build (s : State) (r : XReg) (d : Word) : (s.writeX r d).build = s.build := rfl
@[simp] theorem State.writeX_x (s : State) (r : XReg) (d : Word) : (s.writeX r d).x = s.x.set r.val d r.isLt := rfl
@[simp] theorem State.writeX_w (s : State) (r : XReg) (d : Word) : (s.writeX r d).w = s.w := rfl
@[simp] theorem State.writeX_v (s : State) (r : XReg) (d : Word) : (s.writeX r d).v = s.v := rfl
@[simp] theorem State.writeX_run (s : State) (r : XReg) (d : Word) : (s.writeX r d).run = s.run := rfl
@[simp] theorem State.writeX_cseq (s : State) (r : XReg) (d : Word) : (s.writeX r d).cseq = s.cseq := rfl
@[simp] theorem State.writeX_fcause (s : State) (r : XReg) (d : Word) : (s.writeX r d).fcause = s.fcause := rfl
@[simp] theorem State.writeX_finfo (s : State) (r : XReg) (d : Word) : (s.writeX r d).finfo = s.finfo := rfl
@[simp] theorem State.writeX_fcmd (s : State) (r : XReg) (d : Word) : (s.writeX r d).fcmd = s.fcmd := rfl
@[simp] theorem State.writeX_zp (s : State) (r : XReg) (d : Word) : (s.writeX r d).zp = s.zp := rfl
@[simp] theorem State.writeX_ntt (s : State) (r : XReg) (d : Word) : (s.writeX r d).ntt = s.ntt := rfl
@[simp] theorem State.writeX_crt (s : State) (r : XReg) (d : Word) : (s.writeX r d).crt = s.crt := rfl
@[simp] theorem State.writeX_gal (s : State) (r : XReg) (d : Word) : (s.writeX r d).gal = s.gal := rfl
@[simp] theorem State.writeX_host (s : State) (r : XReg) (d : Word) : (s.writeX r d).host = s.host := rfl
@[simp] theorem State.writeX_answer (s : State) (r : XReg) (d : Word) : (s.writeX r d).answer = s.answer := rfl
@[simp] theorem State.writeX_draws (s : State) (r : XReg) (d : Word) : (s.writeX r d).draws = s.draws := rfl

@[simp] theorem State.writeW_build (s : State) (r : WReg) (d : Wide) : (s.writeW r d).build = s.build := rfl
@[simp] theorem State.writeW_x (s : State) (r : WReg) (d : Wide) : (s.writeW r d).x = s.x := rfl
@[simp] theorem State.writeW_w (s : State) (r : WReg) (d : Wide) : (s.writeW r d).w = s.w.set r.val d r.isLt := rfl
@[simp] theorem State.writeW_v (s : State) (r : WReg) (d : Wide) : (s.writeW r d).v = s.v := rfl
@[simp] theorem State.writeW_run (s : State) (r : WReg) (d : Wide) : (s.writeW r d).run = s.run := rfl
@[simp] theorem State.writeW_cseq (s : State) (r : WReg) (d : Wide) : (s.writeW r d).cseq = s.cseq := rfl
@[simp] theorem State.writeW_fcause (s : State) (r : WReg) (d : Wide) : (s.writeW r d).fcause = s.fcause := rfl
@[simp] theorem State.writeW_finfo (s : State) (r : WReg) (d : Wide) : (s.writeW r d).finfo = s.finfo := rfl
@[simp] theorem State.writeW_fcmd (s : State) (r : WReg) (d : Wide) : (s.writeW r d).fcmd = s.fcmd := rfl
@[simp] theorem State.writeW_zp (s : State) (r : WReg) (d : Wide) : (s.writeW r d).zp = s.zp := rfl
@[simp] theorem State.writeW_ntt (s : State) (r : WReg) (d : Wide) : (s.writeW r d).ntt = s.ntt := rfl
@[simp] theorem State.writeW_crt (s : State) (r : WReg) (d : Wide) : (s.writeW r d).crt = s.crt := rfl
@[simp] theorem State.writeW_gal (s : State) (r : WReg) (d : Wide) : (s.writeW r d).gal = s.gal := rfl
@[simp] theorem State.writeW_host (s : State) (r : WReg) (d : Wide) : (s.writeW r d).host = s.host := rfl
@[simp] theorem State.writeW_answer (s : State) (r : WReg) (d : Wide) : (s.writeW r d).answer = s.answer := rfl
@[simp] theorem State.writeW_draws (s : State) (r : WReg) (d : Wide) : (s.writeW r d).draws = s.draws := rfl

@[simp] theorem State.writeV_build (s : State) (r : VReg) (b : Buffer) : (s.writeV r b).build = s.build := rfl
@[simp] theorem State.writeV_x (s : State) (r : VReg) (b : Buffer) : (s.writeV r b).x = s.x := rfl
@[simp] theorem State.writeV_w (s : State) (r : VReg) (b : Buffer) : (s.writeV r b).w = s.w := rfl
@[simp] theorem State.writeV_v (s : State) (r : VReg) (b : Buffer) : (s.writeV r b).v = s.v.set r.val b r.isLt := rfl
@[simp] theorem State.writeV_run (s : State) (r : VReg) (b : Buffer) : (s.writeV r b).run = s.run := rfl
@[simp] theorem State.writeV_cseq (s : State) (r : VReg) (b : Buffer) : (s.writeV r b).cseq = s.cseq := rfl
@[simp] theorem State.writeV_fcause (s : State) (r : VReg) (b : Buffer) : (s.writeV r b).fcause = s.fcause := rfl
@[simp] theorem State.writeV_finfo (s : State) (r : VReg) (b : Buffer) : (s.writeV r b).finfo = s.finfo := rfl
@[simp] theorem State.writeV_fcmd (s : State) (r : VReg) (b : Buffer) : (s.writeV r b).fcmd = s.fcmd := rfl
@[simp] theorem State.writeV_zp (s : State) (r : VReg) (b : Buffer) : (s.writeV r b).zp = s.zp := rfl
@[simp] theorem State.writeV_ntt (s : State) (r : VReg) (b : Buffer) : (s.writeV r b).ntt = s.ntt := rfl
@[simp] theorem State.writeV_crt (s : State) (r : VReg) (b : Buffer) : (s.writeV r b).crt = s.crt := rfl
@[simp] theorem State.writeV_gal (s : State) (r : VReg) (b : Buffer) : (s.writeV r b).gal = s.gal := rfl
@[simp] theorem State.writeV_host (s : State) (r : VReg) (b : Buffer) : (s.writeV r b).host = s.host := rfl
@[simp] theorem State.writeV_answer (s : State) (r : VReg) (b : Buffer) : (s.writeV r b).answer = s.answer := rfl
@[simp] theorem State.writeV_draws (s : State) (r : VReg) (b : Buffer) : (s.writeV r b).draws = s.draws := rfl

@[simp] theorem State.retire_build (s : State) : (s.retire).build = s.build := rfl
@[simp] theorem State.retire_x (s : State) : (s.retire).x = s.x := rfl
@[simp] theorem State.retire_w (s : State) : (s.retire).w = s.w := rfl
@[simp] theorem State.retire_v (s : State) : (s.retire).v = s.v := rfl
@[simp] theorem State.retire_run (s : State) : (s.retire).run = s.run := rfl
@[simp] theorem State.retire_cseq (s : State) : (s.retire).cseq = s.cseq + 1 := rfl
@[simp] theorem State.retire_fcause (s : State) : (s.retire).fcause = s.fcause := rfl
@[simp] theorem State.retire_finfo (s : State) : (s.retire).finfo = s.finfo := rfl
@[simp] theorem State.retire_fcmd (s : State) : (s.retire).fcmd = s.fcmd := rfl
@[simp] theorem State.retire_zp (s : State) : (s.retire).zp = s.zp := rfl
@[simp] theorem State.retire_ntt (s : State) : (s.retire).ntt = s.ntt := rfl
@[simp] theorem State.retire_crt (s : State) : (s.retire).crt = s.crt := rfl
@[simp] theorem State.retire_gal (s : State) : (s.retire).gal = s.gal := rfl
@[simp] theorem State.retire_host (s : State) : (s.retire).host = s.host := rfl
@[simp] theorem State.retire_answer (s : State) : (s.retire).answer = s.answer := rfl
@[simp] theorem State.retire_draws (s : State) : (s.retire).draws = s.draws := rfl

@[simp] theorem State.raise_build (s : State) (c : CmdWord) (e : Exn) : (s.raise c e).build = s.build := rfl
@[simp] theorem State.raise_x (s : State) (c : CmdWord) (e : Exn) : (s.raise c e).x = s.x := rfl
@[simp] theorem State.raise_w (s : State) (c : CmdWord) (e : Exn) : (s.raise c e).w = s.w := rfl
@[simp] theorem State.raise_v (s : State) (c : CmdWord) (e : Exn) : (s.raise c e).v = s.v := rfl
@[simp] theorem State.raise_run (s : State) (c : CmdWord) (e : Exn) : (s.raise c e).run = .faulted := rfl
@[simp] theorem State.raise_cseq (s : State) (c : CmdWord) (e : Exn) : (s.raise c e).cseq = s.cseq := rfl
@[simp] theorem State.raise_fcause (s : State) (c : CmdWord) (e : Exn) : (s.raise c e).fcause = e.cause.code := rfl
@[simp] theorem State.raise_finfo (s : State) (c : CmdWord) (e : Exn) : (s.raise c e).finfo = e.info := rfl
@[simp] theorem State.raise_fcmd (s : State) (c : CmdWord) (e : Exn) : (s.raise c e).fcmd = c.setWidth 64 := rfl
@[simp] theorem State.raise_zp (s : State) (c : CmdWord) (e : Exn) : (s.raise c e).zp = s.zp := rfl
@[simp] theorem State.raise_ntt (s : State) (c : CmdWord) (e : Exn) : (s.raise c e).ntt = s.ntt := rfl
@[simp] theorem State.raise_crt (s : State) (c : CmdWord) (e : Exn) : (s.raise c e).crt = s.crt := rfl
@[simp] theorem State.raise_gal (s : State) (c : CmdWord) (e : Exn) : (s.raise c e).gal = s.gal := rfl
@[simp] theorem State.raise_host (s : State) (c : CmdWord) (e : Exn) : (s.raise c e).host = s.host := rfl
@[simp] theorem State.raise_answer (s : State) (c : CmdWord) (e : Exn) : (s.raise c e).answer = s.answer := rfl
@[simp] theorem State.raise_draws (s : State) (c : CmdWord) (e : Exn) : (s.raise c e).draws = s.draws := rfl

/-- Reading a scalar register after a write of one. -/
theorem State.writeX_get (s : State) (r q : XReg) (d : Word) :
    (s.writeX r d).x[q] = if r = q then d else s.x[q] := by
  simp [Vector.getElem_set, Fin.ext_iff]

/-- Reading a wide register after a write of one. -/
theorem State.writeW_get (s : State) (r q : WReg) (d : Wide) :
    (s.writeW r d).w[q] = if r = q then d else s.w[q] := by
  simp [Vector.getElem_set, Fin.ext_iff]

/-- Reading a vector buffer after a write of one. -/
theorem State.writeV_get (s : State) (r q : VReg) (b : Buffer) :
    (s.writeV r b).v[q] = if r = q then b else s.v[q] := by
  simp [Vector.getElem_set, Fin.ext_iff]

/-- What the acknowledge does to a FAULTED machine (rule R374). -/
theorem State.acknowledge_of_faulted (s : State) (h : s.run = .faulted) :
    s.acknowledge = { s with fcause := 0, finfo := 0, fcmd := 0, run := .idle } := by
  simp [State.acknowledge, h]

/-- The acknowledge is ignored while the machine is not FAULTED (rule R374). -/
theorem State.acknowledge_of_not_faulted (s : State) (h : s.run ≠ .faulted) : s.acknowledge = s := by
  unfold State.acknowledge
  split
  · exact absurd ‹_› h
  · rfl

/-- `u64` of a number in the machine range reads back as that number (rule R7). -/
theorem sint_u64 (n : Int) (h1 : -2 ^ 63 ≤ n) (h2 : n < 2 ^ 63) : sint (u64 n) = n := by
  rw [sint, u64, BitVec.toInt_ofInt]
  exact Int.bmod_eq_of_le (by norm_num at *; omega) (by norm_num at *; omega)

/-- A pattern is the one of the machine integer it stands for (rule R7). -/
@[simp] theorem u64_sint (v : Word) : u64 (sint v) = v := BitVec.ofInt_toInt

/-- A machine integer lies in its range (rule R7). -/
theorem sint_bounds (v : Word) : -2 ^ 63 ≤ sint v ∧ sint v < 2 ^ 63 :=
  ⟨BitVec.le_toInt v, BitVec.toInt_lt⟩

/-- A residue lies in `[0, m)` (rule R8). -/
theorem fmod_bounds (a m : Int) (h : 1 ≤ m) : 0 ≤ fmod a m ∧ fmod a m < m :=
  ⟨Int.emod_nonneg _ (by omega), Int.emod_lt_of_pos _ (by omega)⟩

end Sys2Proof.Machine
end

