-- ==== Sys2Proof/Laws/Ops.lean ====
section
/-! SUPPORT. Laws of the shared operations: for each, once, everything it can answer. -/

namespace Sys2Proof.Machine

/-- A check passes exactly when its condition holds (rule R9). -/
@[simp] theorem require_eq_ok (c : Prop) [Decidable c] (cause : FaultCause) (info : Word) (u : Unit) :
    require c cause info = .ok u ↔ c := by
  unfold require
  split <;> simp_all

theorem require_of_pos {c : Prop} [Decidable c] (h : c) (cause : FaultCause) (info : Word) :
    require c cause info = .ok () := if_pos h

theorem require_of_neg {c : Prop} [Decidable c] (h : ¬ c) (cause : FaultCause) (info : Word) :
    require c cause info = .error ⟨cause, info⟩ := if_neg h

/-- A sequence of two parts answers what the second does on the first's answer. -/
@[simp] theorem bind_eq_ok {α β : Type} (m : Except Exn α) (f : α → Except Exn β) (b : β) :
    (m >>= f) = .ok b ↔ ∃ a, m = .ok a ∧ f a = .ok b := by
  cases m <;> simp [bind, Except.bind]

/-- A slot is read exactly when it is valid (rule R41). -/
@[simp] theorem needSlot_eq_ok {α : Type} (slot : Option α) (index : Word) (c : α) :
    needSlot slot index = .ok c ↔ slot = some c := by
  cases slot <;> simp [needSlot]

/-- A check fails exactly when its condition does not hold, with its own cause (rule R9). -/
@[simp] theorem require_eq_error (c : Prop) [Decidable c] (cause : FaultCause) (info : Word) (e : Exn) :
    require c cause info = .error e ↔ ¬ c ∧ e = ⟨cause, info⟩ := by
  unfold require
  split <;> simp_all [eq_comm]

/-- A sequence of two parts fails where its first part does, or else where its second does. -/
@[simp] theorem bind_eq_error {α β : Type} (m : Except Exn α) (f : α → Except Exn β) (e : Exn) :
    (m >>= f) = .error e ↔ m = .error e ∨ ∃ a, m = .ok a ∧ f a = .error e := by
  cases m <;> simp [bind, Except.bind]

/-- An invalid slot fails with its index (rules R373, R377). -/
@[simp] theorem needSlot_eq_error {α : Type} (slot : Option α) (index : Word) (e : Exn) :
    needSlot slot index = .error e ↔ slot = none ∧ e = ⟨.noContext, index⟩ := by
  cases slot <;> simp [needSlot, eq_comm]

/-- `VecAssign` fails exactly where the list does not fit (rule R31). -/
theorem vecAssign_eq_error (s : State) (r : VReg) (l : List Int) (e : Exn) :
    vecAssign s r l = .error e ↔
      ¬ l.length ≤ s.build.vcapMax ∧ e = ⟨.capacityExceeded, u64 l.length⟩ := by
  rw [vecAssign, bind_eq_error, require_eq_error]
  simp [pure, Except.pure]

/-- A write to a wide register fails exactly where the integer does not fit (rule R25). -/
theorem storeWide_eq_error (s : State) (r : WReg) (n : Int) (e : Exn) :
    storeWide s r n = .error e ↔ ¬ fitsWide s.build n = true ∧ e = ⟨.wideOverflow, 0⟩ := by
  rw [storeWide, bind_eq_error, require_eq_error]
  simp [pure, Except.pure]

/-- What `VecAssign` answers (rule R31): it writes the buffer, and only where the list fits. -/
theorem vecAssign_eq_ok (s t : State) (r : VReg) (l : List Int) :
    vecAssign s r l = .ok t ↔
      l.length ≤ s.build.vcapMax ∧ t = s.writeV r ⟨l.map u64, max s.v[r].cap l.length⟩ := by
  constructor
  · intro h
    simp only [vecAssign, bind_eq_ok, require_eq_ok] at h
    obtain ⟨_, hl, h⟩ := h
    exact ⟨hl, (Except.ok.inj h).symm⟩
  · rintro ⟨hl, rfl⟩
    rw [vecAssign, require_of_pos hl]
    rfl

/-- What a write of an integer to a wide register answers (rule R25). -/
theorem storeWide_eq_ok (s t : State) (r : WReg) (n : Int) :
    storeWide s r n = .ok t ↔ fitsWide s.build n = true ∧ t = s.writeW r (ofWideInt s.build n) := by
  constructor
  · intro h
    simp only [storeWide, bind_eq_ok, require_eq_ok] at h
    obtain ⟨_, hl, h⟩ := h
    exact ⟨hl, (Except.ok.inj h).symm⟩
  · rintro ⟨hl, rfl⟩
    rw [storeWide, require_of_pos hl]
    rfl

/-- A command ends in one of two ways (rules R36, R370): it retires with its writes, or it is rejected whole. -/
theorem finish_cases (i : Instr) (s t : State) (r : Except Exn State) (h : finish i s r = .next t) :
    (∃ u, r = .ok u ∧ t = u.retire) ∨ ∃ e, r = .error e ∧ t = s.raise (encode i) e := by
  cases r with
  | ok u => exact .inl ⟨u, rfl, by simpa [finish] using h.symm⟩
  | error e => exact .inr ⟨e, rfl, by simpa [finish] using h.symm⟩

@[simp] theorem finish_ok (i : Instr) (s t : State) : finish i s (.ok t) = .next t.retire := rfl

@[simp] theorem finish_error (i : Instr) (s : State) (e : Exn) :
    finish i s (.error e) = .next (s.raise (encode i) e) := rfl

/-- Every meaning is the end of a command. -/
theorem exec_eq_finish (i : Instr) (s : State) : ∃ r, exec i s = finish i s r := by
  cases i <;> simp only [exec,
    execNop, execLi, execLsi, execMov, execWmov, execWsetx, execWgetx, execVmov, execNtModinv,
    execNtModexp, execNtIsprime, execNtRoot, execNtFindgen, execZpInit, execZpAdd, execZpSub,
    execZpMul, execZpExp, execZpInv, execZpRoot, execZpGen, execNttInit, execNttRaw, execNttFwd,
    execNttInv, execNttPmul, execCrtInit, execCrtEnc, execCrtDec, execCrtPrimes, execCrtMod,
    execGalInit, execGalElt, execGalElts, execGalIdx, execGalAll, execPolyAdd, execPolySub,
    execPolyMul, execPolyMuln, execPolyMulc, execPolyEq, execRndHwt, execRndTri, execRndUni,
    execVsize, execVcap, execVempty, execVresize, execVreserve, execVshrink, execVat, execVset] <;>
    exact ⟨_, rfl⟩

/-- What a command can do (rules R36, R370): nothing of it stops the machine. -/
theorem exec_next (i : Instr) (s : State) : ∃ t, exec i s = .next t := by
  obtain ⟨r, hr⟩ := exec_eq_finish i s
  cases r with
  | ok u => exact ⟨_, hr⟩
  | error e => exact ⟨_, hr⟩

/-- What a step can do (rule R430): wait, or take up one action of the host. -/
theorem step_cases (s t : State) (h : step s = .next t) :
    (s.nextAction = none ∧ t = s) ∨
    (∃ c u, s.nextAction = some (.command c, u) ∧ runCommand c u = .next t) ∨
    (∃ a u, s.nextAction = some (.read a, u) ∧ t = hostRead u a) ∨
    (∃ a d u, s.nextAction = some (.write a d, u) ∧ t = hostWrite u a d) ∨
    (∃ u, s.nextAction = some (.rst, u) ∧ t = u.applyReset) := by
  unfold step at h
  split at h
  · exact .inl ⟨‹_›, by simpa using h.symm⟩
  · exact .inr (.inl ⟨_, _, ‹_›, h⟩)
  · exact .inr (.inr (.inl ⟨_, _, ‹_›, by simpa using h.symm⟩))
  · exact .inr (.inr (.inr (.inl ⟨_, _, _, ‹_›, by simpa using h.symm⟩)))
  · exact .inr (.inr (.inr (.inr ⟨_, ‹_›, by simpa using h.symm⟩)))

/-- Taking up an action changes the list of the host's actions only. -/
theorem nextAction_state (s u : State) (a : HostAction) (h : s.nextAction = some (a, u)) :
    u = { s with host := u.host } := by
  unfold State.nextAction at h
  dsimp only at h
  split at h
  · rw [Option.some.injEq, Prod.mk.injEq] at h
    rw [← h.2]
  · cases h

end Sys2Proof.Machine
end

