-- ==== Sys2Proof/Laws/Primes.lean ====
section
/-! SUPPORT. Laws of Machine/Primes.lean: the power, the primality answer and the factor list are the exact
ones (spec/41_numbertheory.md rules R152 to R154). -/

namespace Sys2Proof.Machine

theorem powLoop_eq (m : Nat) :
    ∀ fuel acc s e : Nat, e < 2 ^ fuel → acc % m = acc →
      powLoop fuel acc s e m = acc * s ^ e % m := by
  intro fuel
  induction fuel with
  | zero =>
    intro acc s e he hacc
    obtain rfl : e = 0 := by simpa using he
    simp [powLoop, hacc]
  | succ fuel ih =>
    intro acc s e he hacc
    rw [powLoop]
    by_cases h0 : e = 0
    · simp [h0, hacc]
    have hhalf : e / 2 < 2 ^ fuel := by rw [pow_succ] at he; omega
    rw [if_neg h0, ih _ _ _ hhalf (by split <;> simp [hacc])]
    have hpow : s ^ e = s ^ (e % 2) * (s * s) ^ (e / 2) := by
      rw [← pow_two, ← pow_mul, ← pow_add, Nat.mod_add_div]
    have hs : (s * s % m) ^ (e / 2) ≡ (s * s) ^ (e / 2) [MOD m] := (Nat.mod_modEq _ _).pow _
    rw [hpow]
    rcases Nat.mod_two_eq_zero_or_one e with h | h
    · rw [if_neg (by omega), h, pow_zero, one_mul]
      exact hs.mul_left _
    · rw [if_pos h, h, pow_one, ← mul_assoc]
      exact (Nat.mod_modEq _ _).mul hs

/-- What `powMod` computes (rule R152). -/
theorem powMod_eq (b e m : Nat) : powMod b e m = b ^ e % m := by
  rw [powMod, powLoop_eq m _ _ _ _ Nat.lt_log2_self (by simp)]
  have h : 1 % m * (b % m) ^ e ≡ 1 * b ^ e [MOD m] := (Nat.mod_modEq _ _).mul ((Nat.mod_modEq _ _).pow _)
  rwa [one_mul] at h

theorem leastFactorFrom_eq (n : Nat) :
    ∀ fuel d : Nat, 2 ≤ d → 2 ≤ n → n < fuel + d → d ≤ n.minFac → leastFactorFrom fuel d n = n.minFac := by
  intro fuel
  induction fuel with
  | zero =>
    intro d hd hn hf hmin
    exact absurd (Nat.minFac_le (by omega : 0 < n)) (by omega)
  | succ fuel ih =>
    intro d hd hn hf hmin
    rw [leastFactorFrom]
    split_ifs with h1 h2
    · by_contra hne
      have hp : ¬ n.Prime := fun hp => hne hp.minFac_eq.symm
      have := Nat.minFac_sq_le_self (by omega : 0 < n) hp
      nlinarith
    · exact le_antisymm hmin (Nat.minFac_le_of_dvd hd (Nat.dvd_of_mod_eq_zero h2))
    · refine ih (d + 1) (by omega) hn (by omega) (Nat.lt_of_le_of_ne hmin fun h => h2 ?_)
      exact Nat.mod_eq_zero_of_dvd (h ▸ n.minFac_dvd)

/-- Trial division finds the least divisor above 1. -/
theorem leastFactor_eq (n : Nat) (hn : 2 ≤ n) : leastFactor n = n.minFac :=
  leastFactorFrom_eq n n 2 le_rfl hn (by omega) (Nat.minFac_prime (by omega)).two_le

theorem factorLoop_sound : ∀ fuel n : Nat, 1 ≤ n → n ≤ fuel →
    (∀ q ∈ factorLoop fuel n, q.Prime) ∧ (factorLoop fuel n).prod = n := by
  intro fuel
  induction fuel with
  | zero => intro n h1 h2; omega
  | succ fuel ih =>
    intro n h1 h2
    rw [factorLoop]
    by_cases hn : n < 2
    · obtain rfl : n = 1 := by omega
      simp
    rw [if_neg hn, leastFactor_eq n (by omega)]
    have hp := Nat.minFac_prime (show n ≠ 1 by omega)
    have hq : 1 ≤ n / n.minFac := (Nat.one_le_div_iff hp.pos).2 (Nat.minFac_le (by omega))
    have hlt : n / n.minFac < n := Nat.div_lt_self (by omega) hp.one_lt
    obtain ⟨h3, h4⟩ := ih _ hq (by omega)
    refine ⟨fun q hm => ?_, by rw [List.prod_cons, h4, Nat.mul_div_cancel' n.minFac_dvd]⟩
    rcases List.mem_cons.1 hm with rfl | hm
    · exact hp
    · exact h3 q hm

theorem prime_dvd_prod_mem {l : List Nat} (hl : ∀ q ∈ l, q.Prime) {r : Nat} (hr : r.Prime) (hd : r ∣ l.prod) :
    r ∈ l := by
  obtain ⟨q, hq, hrq⟩ := (hr.prime.dvd_prod_iff).1 hd
  rwa [(Nat.prime_dvd_prime_iff_eq hr (hl q hq)).1 hrq]

theorem lucasWitness_prime (n : Nat) (qs : List Nat) (hn : 2 ≤ n) (hq : ∀ q ∈ qs, q.Prime)
    (hprod : qs.prod = n - 1) : ∀ fuel a : Nat, lucasWitness n qs fuel a = true → n.Prime := by
  intro fuel
  induction fuel with
  | zero => intro a h; simp [lucasWitness] at h
  | succ fuel ih =>
    intro a h
    rw [lucasWitness, Bool.or_eq_true] at h
    rcases h with h | h
    · simp only [Bool.and_eq_true, beq_iff_eq, List.all_eq_true, bne_iff_ne, powMod_eq] at h
      obtain ⟨h1, h2⟩ := h
      have cast : ∀ e : Nat, a ^ e % n = 1 ↔ (a : ZMod n) ^ e = 1 := by
        intro e
        rw [← Nat.cast_pow, ← Nat.cast_one (R := ZMod n), ZMod.natCast_eq_natCast_iff, Nat.ModEq,
          Nat.mod_eq_of_lt (show 1 < n by omega)]
      refine lucas_primality n (a : ZMod n) ((cast _).1 h1) fun q hqp hqd hc => ?_
      exact h2 q (prime_dvd_prod_mem hq hqp (hprod ▸ hqd)) ((cast _).2 hc)
    · exact ih _ h

/-- A factor list the certificate search answers holds primes only and multiplies to `n`. -/
theorem certifiedFactors_sound : ∀ fuel n : Nat, 1 ≤ n → ∀ l, certifiedFactors fuel n = some l →
    (∀ q ∈ l, q.Prime) ∧ l.prod = n := by
  intro fuel
  induction fuel with
  | zero => intro n _ l h; simp [certifiedFactors] at h
  | succ fuel ih =>
    intro n hn l h
    rw [certifiedFactors] at h
    by_cases hsmall : n < 4096
    · rw [if_pos hsmall, Option.some.injEq] at h
      exact h ▸ factorLoop_sound n n hn le_rfl
    rw [if_neg hsmall] at h
    by_cases hp : powMod 2 (n - 1) n = 1 ∧
        (certifiedFactors fuel (n - 1)).any (fun qs => lucasWitness n qs 100 2) = true
    · rw [if_pos hp, Option.some.injEq] at h
      obtain ⟨qs, hqs, hw⟩ := (Option.any_eq_true _ _).1 hp.2
      obtain ⟨h3, h4⟩ := ih (n - 1) (by omega) qs hqs
      have := lucasWitness_prime n qs (by omega) h3 h4 _ _ hw
      simp [← h, this]
    rw [if_neg hp] at h
    by_cases hd : 1 < someDivisor n ∧ someDivisor n < n ∧ n % someDivisor n = 0
    · simp only [hd, and_self, if_true] at h
      have hdvd := Nat.dvd_of_mod_eq_zero hd.2.2
      have hpos : 1 ≤ n / someDivisor n := (Nat.one_le_div_iff (by omega)).2 (by omega)
      split at h
      · rename_i a b ha hb
        obtain ⟨h5, h6⟩ := ih _ (by omega) a ha
        obtain ⟨h7, h8⟩ := ih _ hpos b hb
        obtain rfl := Option.some.inj h
        refine ⟨fun q hq => (List.mem_append.1 hq).elim (h5 q) (h7 q), ?_⟩
        rw [List.prod_append, h6, h8, Nat.mul_div_cancel' hdvd]
      · cases h
    · simp [hd] at h

/-- The factor list of a positive number: primes only, and their product is the number. -/
theorem primeFactors_sound (n : Nat) (hn : 1 ≤ n) :
    (∀ q ∈ primeFactors n, q.Prime) ∧ (primeFactors n).prod = n := by
  rw [primeFactors]
  cases h : certifiedFactors (certificateDepth n) n with
  | none => exact factorLoop_sound n n hn le_rfl
  | some l => exact certifiedFactors_sound _ n hn l h

/-- The factor list of a positive number holds exactly its prime divisors (rule R154). -/
theorem mem_primeFactors (n q : Nat) (hn : 1 ≤ n) : q ∈ primeFactors n ↔ q.Prime ∧ q ∣ n := by
  obtain ⟨h1, h2⟩ := primeFactors_sound n hn
  exact ⟨fun h => ⟨h1 q h, h2 ▸ List.dvd_prod h⟩, fun h => prime_dvd_prod_mem h1 h.1 (h2.symm ▸ h.2)⟩

theorem prime_fermat_two (m : Nat) (hm : 2 < m) (hp : m.Prime) : 2 ^ (m - 1) % m = 1 := by
  have hne : ((2 : Nat) : ZMod m) ≠ 0 := by
    rw [Ne, ZMod.natCast_eq_zero_iff]
    exact fun h => absurd (Nat.le_of_dvd (by omega) h) (by omega)
  have := Fact.mk hp
  have := ZMod.pow_card_sub_one_eq_one hne
  rw [← Nat.cast_pow, ← Nat.cast_one (R := ZMod m), ZMod.natCast_eq_natCast_iff, Nat.ModEq,
    Nat.mod_eq_of_lt (show 1 < m by omega)] at this
  exact this

/-- The primality answer is the exact one (rule R153). -/
theorem isPrime_iff (n : Int) : isPrime n = true ↔ n.toNat.Prime := by
  rw [isPrime]
  by_cases h2 : n.toNat < 2
  · simp only [h2, if_true]
    exact ⟨fun h => by simp at h, fun h => absurd h.two_le (by omega)⟩
  simp only [h2, if_false]
  by_cases hf : 2 < n.toNat ∧ powMod 2 (n.toNat - 1) n.toNat ≠ 1
  · rw [if_pos hf]
    refine ⟨fun h => by simp at h, fun h => absurd (prime_fermat_two _ hf.1 h) ?_⟩
    rw [← powMod_eq]
    exact hf.2
  rw [if_neg hf]
  cases h : certifiedFactors (certificateDepth n.toNat) n.toNat with
  | none =>
    simp only [beq_iff_eq, leastFactor_eq _ (by omega : 2 ≤ n.toNat)]
    exact ⟨fun h => h ▸ Nat.minFac_prime (by omega), fun h => h.minFac_eq⟩
  | some l =>
    obtain ⟨h3, h4⟩ := certifiedFactors_sound _ _ (by omega) l h
    simp only [beq_iff_eq]
    constructor
    · rintro rfl
      exact h3 _ (List.mem_singleton.2 rfl)
    · intro hp
      have hmem := prime_dvd_prod_mem h3 hp (h4 ▸ dvd_rfl)
      obtain ⟨a, b, rfl⟩ := List.append_of_mem hmem
      have hab : (a ++ b).prod = 1 := by
        rw [List.prod_append, List.prod_cons] at h4
        rw [List.prod_append]
        exact Nat.eq_of_mul_eq_mul_left hp.pos (by rw [mul_one]; linarith [h4])
      have hnil : a ++ b = [] := by
        rcases hab' : a ++ b with _ | ⟨c, t⟩
        · rfl
        · have hc : c.Prime := h3 c (by
            have : c ∈ a ++ b := by rw [hab']; simp
            simp only [List.mem_append, List.mem_cons] at this ⊢
            tauto)
          rw [hab', List.prod_cons] at hab
          exact absurd (Nat.dvd_one.1 ⟨_, hab.symm⟩) hc.one_lt.ne'
      simp [List.append_eq_nil_iff.1 hnil]

/-- Rule R153 in its own words: `n ≥ 2` and no divisor lies strictly between 1 and `n`. -/
theorem isPrime_iff_no_divisor (n : Int) :
    isPrime n = true ↔ 2 ≤ n ∧ ∀ d : Int, 1 < d → d < n → ¬ d ∣ n := by
  rw [isPrime_iff, Nat.prime_def]
  constructor
  · rintro ⟨h2, h⟩
    have hn : (n.toNat : Int) = n := by omega
    refine ⟨by omega, fun d h1 h3 hd => ?_⟩
    have hd' : d.toNat ∣ n.toNat := by
      rw [← Int.natCast_dvd_natCast]
      rwa [hn, Int.toNat_of_nonneg (by omega)]
    rcases h _ hd' with h4 | h4 <;> omega
  · rintro ⟨h2, h⟩
    have hn : (n.toNat : Int) = n := by omega
    refine ⟨by omega, fun d hd => ?_⟩
    have hle := Nat.le_of_dvd (by omega) hd
    have hpos := Nat.pos_of_dvd_of_pos hd (by omega)
    by_contra hc
    refine h d (by omega) (by omega) ?_
    rw [← hn]
    exact Int.natCast_dvd_natCast.2 hd

end Sys2Proof.Machine
end

