-- ==== Sys2Proof/Laws/Arith.lean ====
section
/-! SUPPORT. Laws of Machine/Arith.lean: what the functions of NumberTheory answer, and when
(spec/41_numbertheory.md rules R151 to R155). -/

namespace Sys2Proof.Machine

/-- The Euclidean loop ends with the greatest common divisor and keeps the congruence of its cofactor. -/
theorem euclid_spec (a m : Int) : ∀ (fuel r0 r1 : Nat) (t0 t1 : Int), r1 < fuel →
    m ∣ t0 * a - r0 → m ∣ t1 * a - r1 →
      (euclid fuel r0 r1 t0 t1).1 = Nat.gcd r0 r1 ∧
        m ∣ (euclid fuel r0 r1 t0 t1).2 * a - (euclid fuel r0 r1 t0 t1).1 := by
  intro fuel
  induction fuel with
  | zero => intro r0 r1 t0 t1 h; omega
  | succ fuel ih =>
    intro r0 r1 t0 t1 hf h0 h1
    rw [euclid]
    by_cases hr : r1 = 0
    · simp [hr, h0]
    rw [if_neg hr]
    have hlt : r0 % r1 < r1 := Nat.mod_lt _ (Nat.pos_of_ne_zero hr)
    have hdm : ((r0 % r1 : Nat) : Int) = r0 - (r0 / r1 : Nat) * r1 := by
      have := Nat.mod_add_div r0 r1
      zify at this
      push_cast
      linarith
    obtain ⟨h2, h3⟩ := ih r1 (r0 % r1) t1 (t0 - (r0 / r1 : Nat) * t1) (by omega) h1 (by
      rw [hdm]
      have := dvd_sub h0 (h1.mul_left ((r0 / r1 : Nat) : Int))
      rwa [show (t0 - ((r0 / r1 : Nat) : Int) * t1) * a - (r0 - ((r0 / r1 : Nat) : Int) * r1) =
        t0 * a - r0 - ((r0 / r1 : Nat) : Int) * (t1 * a - r1) by ring])
    refine ⟨?_, h3⟩
    rw [h2, Nat.gcd_comm r0 r1, Nat.gcd_rec r1 r0, Nat.gcd_comm]

/-- A modulus below 1 is rejected (rule R151). -/
theorem modInv_of_modulus_lt_one (a m : Int) (hm : m < 1) : modInv a m = .error ⟨.badOperand, 0⟩ := by
  rw [modInv, require_of_neg (by omega)]
  rfl

theorem modInv_euclid (a m : Int) (hm : 1 ≤ m) :
    let g := euclid (m.toNat + 1) m.toNat (fmod a m).toNat 0 1
    g.1 = Int.gcd a m ∧ m ∣ g.2 * a - g.1 := by
  intro g
  obtain ⟨h0, h1⟩ := fmod_bounds a m hm
  have hcast : ((fmod a m).toNat : Int) = a % m := by simp [fmod] at *; omega
  have hm' : (m.toNat : Int) = m := by omega
  obtain ⟨h2, h3⟩ := euclid_spec a m (m.toNat + 1) m.toNat (fmod a m).toNat 0 1 (by omega)
    (by simp [hm']) (by rw [hcast, one_mul]; exact Int.dvd_self_sub_of_emod_eq rfl)
  refine ⟨?_, h3⟩
  rw [h2, ← Int.gcd_natCast_natCast, hcast, hm', Int.gcd_comm, Int.gcd_emod]

/-- An operand with no inverse is rejected (rule R151). -/
theorem modInv_of_not_coprime (a m : Int) (hm : 1 ≤ m) (hg : Int.gcd a m ≠ 1) :
    modInv a m = .error ⟨.notInvertible, 0⟩ := by
  rw [modInv, require_of_pos hm]
  simp only [bind, Except.bind]
  rw [require_of_neg (by rw [(modInv_euclid a m hm).1]; exact hg)]

/-- An operand coprime to the modulus has its inverse in `[0, m)` as the answer (rule R151). -/
theorem modInv_of_coprime (a m : Int) (hm : 1 ≤ m) (hg : Int.gcd a m = 1) :
    ∃ t, modInv a m = .ok t ∧ 0 ≤ t ∧ t < m ∧ fmod (a * t) m = fmod 1 m := by
  obtain ⟨h1, h2⟩ := modInv_euclid a m hm
  generalize hgdef : euclid (m.toNat + 1) m.toNat (fmod a m).toNat 0 1 = g at h1 h2
  refine ⟨fmod g.2 m, ?_, (fmod_bounds _ m hm).1, (fmod_bounds _ m hm).2, ?_⟩
  · rw [modInv, require_of_pos hm]
    simp only [bind, Except.bind]
    rw [hgdef, require_of_pos (by rw [h1]; exact hg)]
    rfl
  · rw [h1, hg] at h2
    have h3 : a * fmod g.2 m ≡ a * g.2 [ZMOD m] := (Int.mod_modEq _ _).mul_left _
    have h4 : 1 ≡ g.2 * a [ZMOD m] := (Int.modEq_iff_dvd).2 (by simpa using h2)
    exact h3.trans (mul_comm a g.2 ▸ h4.symm)

/-- A modulus below 1 is rejected (rule R152). -/
theorem modExp_of_modulus_lt_one (b e m : Int) (hm : m < 1) : modExp b e m = .error ⟨.badOperand, 0⟩ := by
  rw [modExp, require_of_neg (by omega)]
  rfl

/-- A negative exponent is rejected (rule R152). -/
theorem modExp_of_exponent_neg (b e m : Int) (he : e < 0) : modExp b e m = .error ⟨.badOperand, 0⟩ := by
  by_cases hm : 1 ≤ m
  · rw [modExp, require_of_pos hm, require_of_neg (by omega)]
    rfl
  · exact modExp_of_modulus_lt_one b e m (by omega)

/-- What `modExp` answers on its domain (rule R152). -/
theorem modExp_eq (b e m : Int) (hm : 1 ≤ m) (he : 0 ≤ e) :
    modExp b e m = .ok (fmod (b ^ e.toNat) m) := by
  obtain ⟨h0, h1⟩ := fmod_bounds b m hm
  rw [modExp, require_of_pos hm, require_of_pos he, powMod_eq]
  simp only [bind, Except.bind, pure, Except.pure]
  have hm' : (m.toNat : Int) = m := by omega
  rw [Int.natCast_mod, Int.natCast_pow, hm', Int.toNat_of_nonneg h0]
  exact congrArg _ ((Int.mod_modEq b m).pow _)

/-- The value of `powMod` as an element of `ZMod`. -/
theorem powMod_cast (b e m : Nat) : ((powMod b e m : Nat) : ZMod m) = (b : ZMod m) ^ e := by
  rw [powMod_eq, ZMod.natCast_mod, Nat.cast_pow]

/-- The test of rule R154 singles out the elements of order `p − 1`. -/
theorem isGenerator_iff (p g : Nat) (hp : p.Prime) (h1 : 1 ≤ g) (hg : g < p) :
    isGenerator p (primeFactors (p - 1)) g = true ↔ orderOf (g : ZMod p) = p - 1 := by
  have := Fact.mk hp
  have hp2 := hp.two_le
  have hne : (g : ZMod p) ≠ 0 := by
    rw [Ne, ZMod.natCast_eq_zero_iff]
    exact fun h => absurd (Nat.le_of_dvd (by omega) h) (by omega)
  have hpow : ∀ e, powMod g e p = 1 ↔ (g : ZMod p) ^ e = 1 := by
    intro e
    rw [powMod_eq, ← Nat.cast_pow, ← Nat.cast_one (R := ZMod p), ZMod.natCast_eq_natCast_iff, Nat.ModEq,
      Nat.mod_eq_of_lt (show 1 < p by omega)]
  simp only [isGenerator, List.all_eq_true, bne_iff_ne, ne_eq, hpow]
  constructor
  · intro h
    refine orderOf_eq_of_pow_and_pow_div_prime (by omega) (ZMod.pow_card_sub_one_eq_one hne) ?_
    exact fun q hq hd => h q ((mem_primeFactors _ _ (by omega)).2 ⟨hq, hd⟩)
  · intro h q hq hc
    obtain ⟨hq1, hq2⟩ := (mem_primeFactors _ _ (by omega)).1 hq
    have hd := orderOf_dvd_of_pow_eq_one hc
    rw [h] at hd
    have hlt : (p - 1) / q < p - 1 := Nat.div_lt_self (by omega) hq1.one_lt
    have hpos : 0 < (p - 1) / q := Nat.div_pos (Nat.le_of_dvd (by omega) hq2) hq1.pos
    exact absurd (Nat.le_of_dvd hpos hd) (by omega)

/-- A prime above 2 has a generator in `[2, p)` (rule R154). -/
theorem exists_generator (p : Nat) (hp : p.Prime) (h3 : 3 ≤ p) :
    ∃ g, 2 ≤ g ∧ g < p ∧ orderOf (g : ZMod p) = p - 1 := by
  have := Fact.mk hp
  obtain ⟨u, hu⟩ := IsCyclic.exists_ofOrder_eq_natCard (α := (ZMod p)ˣ)
  rw [Nat.card_eq_fintype_card, ZMod.card_units_eq_totient, Nat.totient_prime hp] at hu
  have horder : orderOf (u : ZMod p) = p - 1 := by rw [orderOf_units, hu]
  have hval : (((u : ZMod p).val : Nat) : ZMod p) = u := ZMod.natCast_zmod_val _
  refine ⟨(u : ZMod p).val, ?_, ZMod.val_lt _, by rw [hval, horder]⟩
  by_contra hlt
  rcases (by omega : (u : ZMod p).val = 0 ∨ (u : ZMod p).val = 1) with h | h
  · exact u.ne_zero ((ZMod.val_eq_zero _).1 h)
  · rw [← hval, h, Nat.cast_one, orderOf_one] at horder
    omega

/-- The search answers the first generator at or above `g`, when one lies below `p`. -/
theorem generatorFrom_spec (p : Nat) (fs : List Nat) : ∀ fuel g : Nat, p ≤ fuel + g →
    (∃ h, g ≤ h ∧ h < p ∧ isGenerator p fs h = true) →
      ∃ h : Nat, generatorFrom p fs fuel g = .ok h ∧ g ≤ h ∧ h < p ∧ isGenerator p fs h = true ∧
        ∀ k, g ≤ k → k < h → isGenerator p fs k = false := by
  intro fuel
  induction fuel with
  | zero => rintro g hf ⟨h, h1, h2, -⟩; omega
  | succ fuel ih =>
    rintro g hf ⟨h, h1, h2, h3⟩
    rw [generatorFrom, if_neg (by omega)]
    by_cases hg : isGenerator p fs g = true
    · exact ⟨g, by rw [if_pos hg], le_rfl, by omega, hg, fun k _ _ => by omega⟩
    rw [if_neg hg]
    obtain ⟨k, h4, h5, h6, h7, h8⟩ := ih (g + 1) (by omega)
      ⟨h, Nat.lt_of_le_of_ne h1 fun he => hg (he ▸ h3), h2, h3⟩
    refine ⟨k, h4, by omega, h6, h7, fun j h9 h10 => ?_⟩
    rcases Nat.eq_or_lt_of_le h9 with rfl | h9
    · simpa using hg
    · exact h8 j h9 h10

/-- A number that is not prime is rejected (rule R154). -/
theorem findGenerator_of_not_prime (p : Int) (hp : ¬ p.toNat.Prime) :
    findGenerator p = .error ⟨.modulusNotPrime, 0⟩ := by
  rw [findGenerator, require_of_neg (by rw [isPrime_iff]; exact hp)]
  rfl

/-- There is no generator in `[2, 2)` (rule R154). -/
theorem findGenerator_two : findGenerator 2 = .error ⟨.noRoot, 0⟩ := by decide +kernel

/-- `findGenerator` of a prime above 2 answers the smallest element of order `p − 1` in `[2, p)` (rule
R154). -/
theorem findGenerator_of_prime (p : Int) (hp : p.toNat.Prime) (h3 : 3 ≤ p) :
    ∃ g : Nat, findGenerator p = .ok g ∧ 2 ≤ g ∧ g < p.toNat ∧ orderOf (g : ZMod p.toNat) = p.toNat - 1 ∧
      ∀ k : Nat, 2 ≤ k → k < g → orderOf (k : ZMod p.toNat) ≠ p.toNat - 1 := by
  obtain ⟨g, h4, h5, h6⟩ := exists_generator p.toNat hp (by omega)
  obtain ⟨h, h7, h8, h9, h10, h11⟩ := generatorFrom_spec p.toNat (primeFactors (p.toNat - 1)) p.toNat 2
    (by omega) ⟨g, h4, h5, (isGenerator_iff _ _ hp (by omega) h5).2 h6⟩
  refine ⟨h, ?_, h8, h9, (isGenerator_iff _ _ hp (by omega) h9).1 h10, fun k hk hlt hc => ?_⟩
  · rw [findGenerator, require_of_pos (by rw [isPrime_iff]; exact hp)]
    exact h7
  · have := h11 k hk hlt
    rw [(isGenerator_iff _ _ hp (by omega) (by omega)).2 hc] at this
    cases this

/-- An order that is below 1 or does not divide `p − 1` is rejected (rule R155). -/
theorem rootOfUnity_of_bad_order (n p : Int) (hp : p.toNat.Prime) (hn : ¬ (1 ≤ n ∧ fmod (p - 1) n = 0)) :
    rootOfUnity n p = .error ⟨.noRoot, 0⟩ := by
  rw [rootOfUnity, require_of_pos (by rw [isPrime_iff]; exact hp), require_of_neg hn]
  rfl

/-- `rootOfUnity` of an order that divides `p − 1` answers the power of the smallest generator, an element of
that order (rule R155). -/
theorem rootOfUnity_of_order (n p : Int) (hp : p.toNat.Prime) (h3 : 3 ≤ p) (hn : 1 ≤ n)
    (hd : fmod (p - 1) n = 0) :
    ∃ r g : Nat, rootOfUnity n p = .ok r ∧ findGenerator p = .ok g ∧
      (r : ZMod p.toNat) = (g : ZMod p.toNat) ^ ((p - 1) / n).toNat ∧ r < p.toNat ∧
      orderOf (r : ZMod p.toNat) = n.toNat := by
  obtain ⟨g, h4, -, -, h5, -⟩ := findGenerator_of_prime p hp h3
  have hdvd : n ∣ p - 1 := Int.dvd_of_emod_eq_zero hd
  obtain ⟨k, hk⟩ := hdvd
  have hkpos : 1 ≤ k := by nlinarith
  have hquot : (p - 1) / n = k := by rw [hk]; exact Int.mul_ediv_cancel_left k (by omega)
  obtain ⟨h6, h7⟩ := fmod_bounds ((g : Int) ^ ((p - 1) / n).toNat) p (by omega)
  have hcast : (((fmod ((g : Int) ^ ((p - 1) / n).toNat) p).toNat : Nat) : ZMod p.toNat) =
      (g : ZMod p.toNat) ^ ((p - 1) / n).toNat := by
    rw [← Int.cast_natCast, Int.toNat_of_nonneg h6]
    have hm := (ZMod.intCast_eq_intCast_iff (fmod ((g : Int) ^ ((p - 1) / n).toNat) p)
      ((g : Int) ^ ((p - 1) / n).toNat) p.toNat).2
      (by rw [show ((p.toNat : Nat) : Int) = p by omega]; exact Int.mod_modEq _ _)
    rw [hm]
    push_cast
    rfl
  refine ⟨(fmod ((g : Int) ^ ((p - 1) / n).toNat) p).toNat, g, ?_, h4, hcast, by omega, ?_⟩
  · rw [rootOfUnity, require_of_pos (by rw [isPrime_iff]; exact hp), require_of_pos ⟨hn, hd⟩, h4]
    simp only [bind, Except.bind]
    rw [modExp_eq _ _ _ (by omega) (by omega), Int.toNat_of_nonneg h6]
  · rw [hcast, hquot]
    have hpk : p.toNat - 1 = n.toNat * k.toNat := by
      rw [← Int.toNat_mul (by omega) (by omega), ← hk]
      omega
    rw [orderOf_pow_of_dvd (by omega) (by rw [h5, hpk]; exact dvd_mul_left _ _), h5, hpk]
    exact Nat.mul_div_cancel _ (by omega)

end Sys2Proof.Machine
end

