-- ==== Sys2Proof/Laws/Wide.lean ====
section
/-! SUPPORT. Laws of the build's parameters and of wide patterns: which numbers a wide register holds, that the
operations that make a pattern keep its form, and reading a limb back (spec/00_scope.md rules R6, R7;
spec/10_state.md rules R25, R26). -/

namespace Sys2Proof

theorem Build.wideW_bounds (b : Build) : 128 ≤ b.wideW ∧ b.wideW ≤ 4096 := ⟨b.legal.1.1, b.legal.1.2.1⟩

/-- A wide register is a whole number of limbs (rule R26). -/
theorem Build.wideLimbs_eq (b : Build) : 64 * b.wideLimbs = b.wideW :=
  Nat.mul_div_cancel' (Nat.dvd_of_mod_eq_zero b.legal.1.2.2)

theorem Build.wideLimbs_le (b : Build) : b.wideLimbs ≤ 64 := by
  have h1 := b.wideLimbs_eq
  have h2 := b.wideW_bounds
  omega

theorem Build.nMax_bounds (b : Build) : 2 ≤ b.nMax ∧ b.nMax ≤ 1048576 := ⟨b.legal.2.1.1, b.legal.2.1.2.1⟩

/-- `NMAX` is a power of two (rule R6). -/
theorem Build.nMax_pow (b : Build) : 2 ^ b.nMax.log2 = b.nMax := b.legal.2.1.2.2

/-- A buffer holds the limbs of a result of `POLY.MULC` (rules R6, R386). -/
theorem Build.room (b : Build) : b.nMax * b.wideLimbs ≤ b.vcapMax := b.legal.2.2.1.1

theorem Build.vcapMax_le (b : Build) : b.vcapMax ≤ 16777216 := b.legal.2.2.1.2

theorem Build.nPrimeMax_bounds (b : Build) : 1 ≤ b.nPrimeMax ∧ b.nPrimeMax ≤ 255 := b.legal.2.2.2

/-- A vector of the slot's dimension fits a buffer (rule R386). -/
theorem Build.nMax_le_vcapMax (b : Build) : b.nMax ≤ b.vcapMax := by
  have h1 := b.room
  have h2 := b.wideLimbs_eq
  have h3 := b.wideW_bounds
  exact le_trans (Nat.le_mul_of_pos_right _ (by omega)) h1

namespace Machine

/-- A wide register's number lies in the wide range, whatever the pattern (rule R7). -/
theorem wideInt_bounds (b : Build) (v : Wide) :
    -2 ^ (b.wideW - 1) ≤ wideInt b v ∧ wideInt b v < 2 ^ (b.wideW - 1) :=
  ⟨BitVec.le_toInt _, BitVec.toInt_lt⟩

/-- The lower end of the wide range is as far from 0 as the upper one, and `fitsWide` says that a number lies
between them (rule R25). -/
theorem fitsWide_iff (b : Build) (n : Int) :
    fitsWide b n = true ↔ -2 ^ (b.wideW - 1) ≤ n ∧ n < 2 ^ (b.wideW - 1) := by
  simp [fitsWide]

theorem isPattern_setWidth (b : Build) (v : BitVec b.wideW) : IsPattern b (v.setWidth Config.wideMax) := by
  rw [IsPattern, BitVec.toNat_setWidth]
  exact lt_of_le_of_lt (Nat.mod_le _ _) v.isLt

theorem wideInt_setWidth (b : Build) (v : BitVec b.wideW) : wideInt b (v.setWidth Config.wideMax) = v.toInt := by
  rw [wideInt, BitVec.setWidth_setWidth_of_le _ b.wideW_bounds.2, BitVec.setWidth_eq]

/-- What a write of an integer that fits leaves in a wide register (rule R25). -/
theorem isPatternOf_ofWideInt (b : Build) (n : Int) (h : fitsWide b n = true) :
    IsPatternOf b (ofWideInt b n) n := by
  obtain ⟨h1, h2⟩ := (fitsWide_iff b n).1 h
  refine ⟨isPattern_setWidth b _, ?_⟩
  rw [ofWideInt, wideInt_setWidth]
  exact BitVec.toInt_ofInt_eq_self (by have := b.wideW_bounds; omega) h1 h2

/-- What `WSETX` leaves in a wide register (rule R135). -/
theorem isPatternOf_widen (b : Build) (v : Word) : IsPatternOf b (widen b v) (sint v) := by
  refine ⟨isPattern_setWidth b _, ?_⟩
  rw [widen, wideInt_setWidth, sint]
  exact BitVec.toInt_signExtend_of_le (by have := b.wideW_bounds; omega)

/-- A number that is not negative and fits is its own pattern (rule R44). -/
theorem ofWideNat_toNat (b : Build) (n : Nat) (h : n < 2 ^ (b.wideW - 1)) : (ofWideNat n).toNat = n := by
  have := b.wideW_bounds
  rw [ofWideNat, BitVec.toNat_ofNat]
  exact Nat.mod_eq_of_lt (lt_of_lt_of_le h (Nat.pow_le_pow_right (by norm_num) (by simp only [Config.wideMax]; omega)))

/-- A pattern below `2^(WIDEW−1)` stands for itself (rule R7). -/
theorem isPatternOf_toNat (b : Build) (d : Wide) (h : d.toNat < 2 ^ (b.wideW - 1)) :
    IsPatternOf b d d.toNat := by
  have hw := b.wideW_bounds
  have h2 : 2 * 2 ^ (b.wideW - 1) = 2 ^ b.wideW := by
    rw [← pow_succ']
    congr 1
    omega
  generalize 2 ^ (b.wideW - 1) = half at h h2
  have hlt : d.toNat < 2 ^ b.wideW := by omega
  refine ⟨hlt, ?_⟩
  have hn : (d.setWidth b.wideW).toNat = d.toNat := by
    rw [BitVec.toNat_setWidth]
    exact Nat.mod_eq_of_lt hlt
  rw [wideInt, BitVec.toInt_eq_toNat_cond, hn, if_pos (by omega)]

/-- Reading a limb after a host write of one (rule R26). -/
theorem limb_setLimb (v : Wide) (l k : Nat) (d : Word) (hl : l < 64) (hk : k < 64) :
    limb (setLimb v l d) k = if k = l then d else limb v k := by
  refine BitVec.eq_of_getLsbD_eq fun i hi => ?_
  have h1 : (limb (setLimb v l d) k).getLsbD i = (setLimb v l d).getLsbD (64 * k + i) := by
    simp [limb, hi]
  rw [h1, setLimb]
  simp only [BitVec.getLsbD_or, BitVec.getLsbD_and, BitVec.getLsbD_not, BitVec.getLsbD_shiftLeft,
    BitVec.getLsbD_setWidth, BitVec.getLsbD_allOnes]
  have hb : 64 * k + i < Config.wideMax := by simp only [Config.wideMax]; omega
  split_ifs with h
  · subst h
    have h2 : ¬ 64 * k + i < 64 * k := by omega
    have h3 : 64 * k + i - 64 * k = i := by omega
    have h4 : i < Config.wideMax := by omega
    simp [hb, h2, h3, h4, hi]
  · have h5 : (limb v k).getLsbD i = v.getLsbD (64 * k + i) := by simp [limb, hi]
    rw [h5]
    by_cases hlt : 64 * k + i < 64 * l
    · simp [hb, hlt]
    · have h6 : ¬ 64 * k + i - 64 * l < 64 := by omega
      have h7 : d.getLsbD (64 * k + i - 64 * l) = false := BitVec.getLsbD_of_ge _ _ (by omega)
      simp [hb, h6, h7]

/-- A host write of a limb keeps the form of a wide pattern (rules R25, R26). -/
theorem isPattern_setLimb (b : Build) (v : Wide) (l : Nat) (d : Word) (hl : l < b.wideLimbs) (h : IsPattern b v) :
    IsPattern b (setLimb v l d) := by
  have hw := b.wideLimbs_eq
  rw [IsPattern, setLimb, BitVec.toNat_or]
  refine Nat.or_lt_two_pow ?_ ?_
  · rw [BitVec.toNat_and]
    exact lt_of_le_of_lt Nat.and_le_left h
  · rw [BitVec.toNat_shiftLeft, Nat.shiftLeft_eq, BitVec.toNat_setWidth]
    refine lt_of_le_of_lt (Nat.mod_le _ _) (lt_of_lt_of_le ((Nat.mul_lt_mul_right (by positivity)).2
      (lt_of_le_of_lt (Nat.mod_le _ _) d.isLt)) ?_)
    rw [← pow_add]
    exact Nat.pow_le_pow_right (by norm_num) (by omega)

end Machine

end Sys2Proof
end

