-- ==== Sys2Proof/Laws/Ntt.lean ====
section
/-! SUPPORT. Laws of Machine/Zp.lean and Machine/Ntt.lean: what the slots of a good state hold, and what the
transform computes (spec/42_zp64.md, spec/43_ntt.md). -/

namespace Sys2Proof.Machine

/-- What a valid `ZP` slot holds (rule R42). -/
theorem ZpCtx.Valid.modulus (c : ZpCtx) (h : c.Valid) :
    (sint c.p).toNat.Prime ∧ 2 ≤ sint c.p ∧ sint c.p < 2 ^ 63 := by
  obtain ⟨p, h2, hlt, hp, rfl⟩ := h
  simp only [buildZp]
  rw [sint_u64 p (by omega) hlt]
  exact ⟨hp, h2, hlt⟩

/-- The power of two test says what its name says. -/
theorem isPowerOfTwo_iff (n : Nat) : isPowerOfTwo n = true ↔ ∃ k, n = 2 ^ k := by
  simp only [isPowerOfTwo, Bool.and_eq_true, bne_iff_ne, ne_eq, beq_iff_eq]
  constructor
  · rintro ⟨-, h⟩
    exact ⟨_, h.symm⟩
  · rintro ⟨k, rfl⟩
    exact ⟨by positivity, by rw [Nat.log2_two_pow]⟩

/-- The checks of a ring dimension (rules R214, R242). -/
theorem dimension_check (n : Int) (bound : Nat) :
    (1 ≤ n ∧ isPowerOfTwo n.toNat = true ∧ n ≤ bound) ↔ PowerOfTwo n ∧ n ≤ bound := by
  rw [isPowerOfTwo_iff, PowerOfTwo]
  constructor
  · rintro ⟨h1, ⟨k, hk⟩, h2⟩
    exact ⟨⟨k, by zify at hk; rwa [Int.toNat_of_nonneg (by omega)] at hk⟩, h2⟩
  · rintro ⟨⟨k, rfl⟩, h2⟩
    exact ⟨one_le_pow₀ (by norm_num), ⟨k, by rw [show (2 : Int) ^ k = ((2 ^ k : Nat) : Int) by push_cast; rfl,
      Int.toNat_natCast]⟩, h2⟩

theorem powerTable_eq (root p : Int) (n : Nat) (hr : 0 ≤ root) (hp : 0 ≤ p) :
    powerTable root p n = (List.range n).map fun k => root ^ k % p := by
  refine List.map_congr_left fun k _ => ?_
  rw [powMod_eq]
  push_cast
  rw [Int.toNat_of_nonneg hr, Int.toNat_of_nonneg hp]

/-- The slot that `NTT.INIT` builds on parameters that pass its checks (rules R211, R212, R214). -/
theorem buildNtt_eq (n p : Int) (hn : 1 ≤ n) (hp : p.toNat.Prime) (hd : fmod (p - 1) (2 * n) = 0) :
    ∃ (psi g : Nat) (psiinv ninv : Int), findGenerator p = .ok g ∧
      (psi : ZMod p.toNat) = (g : ZMod p.toNat) ^ ((p - 1) / (2 * n)).toNat ∧ psi < p.toNat ∧
      orderOf (psi : ZMod p.toNat) = (2 * n).toNat ∧
      0 ≤ psiinv ∧ psiinv < p ∧ (psi : Int) * psiinv % p = 1 ∧
      0 ≤ ninv ∧ ninv < p ∧ n * ninv % p = 1 ∧
      buildNtt n p = .ok
        { n := u64 n, p := u64 p, psi := u64 psi, psiinv := u64 psiinv, ninv := u64 ninv,
          rou := (List.range n.toNat).map fun k => u64 ((psi : Int) ^ k % p),
          rouinv := (List.range n.toNat).map fun k => u64 (psiinv ^ k % p) } := by
  have hp2 := hp.two_le
  have hdvd : 2 * n ∣ p - 1 := Int.dvd_of_emod_eq_zero hd
  have hle : 2 * n ≤ p - 1 := Int.le_of_dvd (by omega) hdvd
  obtain ⟨psi, g, h1, h2, h3, h4, h5⟩ := rootOfUnity_of_order (2 * n) p hp (by omega) (by omega) hd
  have := Fact.mk hp
  have hcop : ∀ a : Int, 0 < a → a < p → Int.gcd a p = 1 := by
    intro a ha hlt
    have hc : (a.toNat).Coprime p.toNat := by
      rw [Nat.coprime_comm, hp.coprime_iff_not_dvd]
      exact fun h => absurd (Nat.le_of_dvd (by omega) h) (by omega)
    rw [show a = (a.toNat : Int) by omega, show p = (p.toNat : Int) by omega, Int.gcd_natCast_natCast]
    exact hc
  have hpsi : 0 < psi := by
    rcases Nat.eq_zero_or_pos psi with rfl | h
    · have h0 := pow_orderOf_eq_one ((0 : Nat) : ZMod p.toNat)
      rw [h5, Nat.cast_zero, zero_pow (by omega)] at h0
      exact absurd h0 zero_ne_one
    · exact h
  obtain ⟨psiinv, h6, h7, h8, h9⟩ := modInv_of_coprime psi p (by omega) (hcop _ (by omega) (by omega))
  obtain ⟨ninv, h10, h11, h12, h13⟩ := modInv_of_coprime n p (by omega) (hcop _ (by omega) (by omega))
  have h1p : fmod 1 p = 1 := Int.emod_eq_of_lt (by omega) (by omega)
  refine ⟨psi, g, psiinv, ninv, h2, h3, h4, h5, h7, h8, h9.trans h1p, h11, h12, h13.trans h1p, ?_⟩
  rw [buildNtt, h1]
  simp only [bind, Except.bind, pure, Except.pure, h6, h10]
  rw [powerTable_eq _ _ _ (by omega) (by omega), powerTable_eq _ _ _ h7 (by omega), List.map_map,
    List.map_map]
  rfl

/-- What a valid `NTT` slot holds (rules R43, R211, R212). -/
theorem NttCtx.Valid.fields (b : Build) (c : NttCtx) (h : c.Valid b) :
    1 ≤ c.n.toNat ∧ c.n.toNat ≤ b.nMax ∧ sint c.n = c.n.toNat ∧ PowerOfTwo (sint c.n) ∧
      (sint c.p).toNat.Prime ∧ 3 ≤ sint c.p ∧
      orderOf ((sint c.psi : Int) : ZMod (sint c.p).toNat) = 2 * c.n.toNat ∧
      0 ≤ sint c.psi ∧ sint c.psi < sint c.p ∧ 0 ≤ sint c.psiinv ∧ sint c.psiinv < sint c.p ∧
      sint c.psi * sint c.psiinv % sint c.p = 1 ∧
      0 ≤ sint c.ninv ∧ sint c.ninv < sint c.p ∧ c.n.toNat * sint c.ninv % sint c.p = 1 ∧
      c.rou.map sint = (List.range c.n.toNat).map (fun k => sint c.psi ^ k % sint c.p) ∧
      c.rouinv.map sint = (List.range c.n.toNat).map (fun k => sint c.psiinv ^ k % sint c.p) := by
  obtain ⟨n, p, hpow, hn, hlt, hp, hd, hb⟩ := h
  have h1 : 1 ≤ n := by obtain ⟨k, rfl⟩ := hpow; exact one_le_pow₀ (by norm_num)
  obtain ⟨psi, g, psiinv, ninv, -, -, h4, h5, h6, h7, h8, h9, h10, h11, h12⟩ := buildNtt_eq n p h1 hp hd
  have hle : 2 * n ≤ p - 1 := Int.le_of_dvd (by have := hp.two_le; omega) (Int.dvd_of_emod_eq_zero hd)
  rw [h12] at hb
  obtain rfl := (Except.ok.inj hb).symm
  have hs : ∀ z : Int, 0 ≤ z → z < p → sint (u64 z) = z := fun z h0 h1 => sint_u64 z (by omega) (by omega)
  have hb20 := b.nMax_bounds
  have hnn : (u64 n).toNat = n.toNat := by
    have := hs n (by omega) (by omega)
    rw [sint, BitVec.toInt_eq_toNat_cond] at this
    split at this <;> omega
  rw [sint_u64 p (by omega) hlt]
  simp only [hnn, hs n (by omega) (by omega), hs psi (by omega) (by omega),
    hs psiinv h6 h7, hs ninv h9 h10, List.map_map]
  have hmap : ∀ r : Int, (List.range n.toNat).map (sint ∘ fun k => u64 (r ^ k % p)) =
      (List.range n.toNat).map fun k => r ^ k % p := by
    intro r
    refine List.map_congr_left fun k _ => ?_
    exact hs _ (Int.emod_nonneg _ (by omega)) (Int.emod_lt_of_pos _ (by omega))
  rw [Int.cast_natCast, h5]
  refine ⟨by omega, by omega, by omega, hpow, hp, by omega, by omega, by omega,
    by omega, h6, h7, h8, h9, h10, ?_, hmap _, hmap _⟩
  rw [Int.toNat_of_nonneg (by omega)]
  exact h11

/-- Horner's order computes the value of the polynomial modulo `p` (rule R213). -/
theorem polyAt_eq (p x : Int) (a : List Int) :
    polyAt p x a = (∑ j ∈ Finset.range a.length, a.getD j 0 * x ^ j) % p := by
  induction a with
  | nil => simp [polyAt]
  | cons c t ih =>
    rw [polyAt, List.foldr_cons, ← polyAt, ih, List.length_cons, Finset.sum_range_succ']
    simp only [List.getD_cons_succ, List.getD_cons_zero, pow_zero, mul_one, norm, fmod, pow_succ]
    rw [Int.emod_add_emod, ← Int.add_emod_emod, Int.mul_emod, Int.emod_emod, ← Int.mul_emod,
      Int.add_emod_emod, add_comm, Finset.mul_sum]
    congr 2
    exact Finset.sum_congr rfl fun j _ => by ring

/-- Two sums with congruent terms have one residue. -/
theorem sum_emod_congr (p : Int) (n : Nat) (f g : Nat → Int) (h : ∀ j < n, f j % p = g j % p) :
    (∑ j ∈ Finset.range n, f j) % p = (∑ j ∈ Finset.range n, g j) % p := by
  rw [Finset.sum_int_mod, Finset.sum_int_mod (f := g)]
  exact congrArg (· % p) (Finset.sum_congr rfl fun j hj => h j (Finset.mem_range.1 hj))

/-- The transform of a vector over a root table (rule R213). -/
theorem transform_eq (p : Int) (table a : List Int) (hp : 0 ≤ p) (hw : 0 ≤ omegaOf p table) :
    transform p table a = (List.range a.length).map fun k =>
      (∑ j ∈ Finset.range a.length, a.getD j 0 * omegaOf p table ^ (j * k)) % p := by
  refine List.map_congr_left fun k _ => ?_
  rw [polyAt_eq, powMod_eq]
  refine sum_emod_congr _ _ _ _ fun j _ => ?_
  push_cast
  rw [Int.toNat_of_nonneg hp, Int.toNat_of_nonneg hw, mul_comm j k, pow_mul]
  exact (((Int.mod_modEq _ _).pow j).mul_left _)

/-- The step `ω` of the transform over a table of the powers of `r` (rules R212, R213). -/
theorem omegaOf_powers (p r : Int) (n : Nat) (hp : 2 ≤ p) (hn : 1 ≤ n) :
    0 ≤ omegaOf p ((List.range n).map fun k => r ^ k % p) ∧
      ∀ j : Nat, n = 1 ∨ omegaOf p ((List.range n).map fun k => r ^ k % p) ^ j % p = r ^ (2 * j) % p := by
  rcases n with _ | _ | n
  · omega
  · simp [omegaOf]
  · have h : omegaOf p ((List.range (n + 2)).map fun k => r ^ k % p) = fmod (r % p * (r % p)) p := by
      simp [List.range_succ_eq_map, omegaOf]
    rw [h]
    refine ⟨Int.emod_nonneg _ (by omega), fun j => .inr ?_⟩
    rw [pow_mul]
    refine ((Int.mod_modEq _ p).pow j).trans (Int.ModEq.pow j ?_)
    rw [sq]
    exact (Int.mod_modEq r p).mul (Int.mod_modEq r p)

/-- The transform over a table of the powers of `r`: the values at the powers of `r²` (rule R213). -/
theorem transform_powers (p r : Int) (a : List Int) (hp : 2 ≤ p) (hn : 1 ≤ a.length) :
    transform p ((List.range a.length).map fun k => r ^ k % p) a = (List.range a.length).map fun k =>
      (∑ j ∈ Finset.range a.length, a.getD j 0 * r ^ (2 * (j * k))) % p := by
  obtain ⟨h0, h1⟩ := omegaOf_powers p r a.length hp hn
  rw [transform_eq _ _ _ (by omega) h0]
  refine List.map_congr_left fun k hk => ?_
  refine sum_emod_congr _ _ _ _ fun j hj => ?_
  rcases h1 (j * k) with h | h
  · have : k = 0 := by have := List.mem_range.1 hk; omega
    simp [this]
  · exact Int.ModEq.mul_left _ h

/-- Elementwise products, one by one (rule R218). -/
theorem pointwise_eq (p : Int) (a b : List Int) (h : a.length = b.length) :
    pointwise p a b = (List.range a.length).map fun i => a.getD i 0 * b.getD i 0 % p := by
  refine List.ext_getElem (by simp [pointwise, h]) fun i h1 h2 => ?_
  simp only [List.length_map, List.length_range] at h2
  simp [pointwise, norm, fmod, h2, h ▸ h2, ← Int.mul_emod]

/-- The forward transform (rule R216): the values at the odd powers of `ψ`. -/
theorem nttForward_eq (b : Build) (c : NttCtx) (h : c.Valid b) (a : List Int) (ha : a.length = c.n.toNat) :
    nttForward c a = (List.range c.n.toNat).map fun k =>
      (∑ j ∈ Finset.range c.n.toNat, a.getD j 0 * sint c.psi ^ ((2 * k + 1) * j)) % sint c.p := by
  obtain ⟨h1, -, -, -, -, h3, -, -, -, -, -, -, -, -, -, h4, -⟩ := NttCtx.Valid.fields b c h
  have hl : (pointwise c.modulus a (c.rou.map sint)).length = c.n.toNat := by
    rw [pointwise_eq _ _ _ (by rw [h4]; simp [ha])]
    simp [ha]
  rw [nttForward, NttCtx.modulus, pointwise_eq _ _ _ (by rw [h4]; simp [ha]), ha, h4]
  rw [NttCtx.modulus, pointwise_eq _ _ _ (by rw [h4]; simp [ha]), ha, h4] at hl
  have := transform_powers (sint c.p) (sint c.psi) _ (by omega) (by rw [hl]; exact h1)
  rw [hl] at this
  rw [this]
  refine List.map_congr_left fun k _ => ?_
  refine sum_emod_congr _ _ _ _ fun j hj => ?_
  simp only [List.getD_eq_getElem?_getD, List.getElem?_map, List.getElem?_range hj, Option.map_some,
    Option.getD_some]
  rw [show (2 * k + 1) * j = j + 2 * (j * k) by ring, pow_add, ← mul_assoc (_ : Int)]
  change _ ≡ _ [ZMOD _]
  exact ((Int.mod_modEq _ _).trans ((Int.mod_modEq _ _).mul_left _)).mul_right _

/-- The inverse transform (rule R217). -/
theorem nttInverse_eq (b : Build) (c : NttCtx) (h : c.Valid b) (y : List Int) (hy : y.length = c.n.toNat) :
    nttInverse c y = (List.range c.n.toNat).map fun i =>
      sint c.ninv * sint c.psiinv ^ i *
        (∑ j ∈ Finset.range c.n.toNat, y.getD j 0 * sint c.psiinv ^ (2 * i * j)) % sint c.p := by
  obtain ⟨h1, -, -, -, -, h3, -, -, -, -, -, -, -, -, -, -, h4⟩ := NttCtx.Valid.fields b c h
  have := transform_powers (sint c.p) (sint c.psiinv) y (by omega) (by rw [hy]; exact h1)
  rw [hy] at this
  rw [nttInverse, NttCtx.modulus, h4, this]
  refine List.ext_getElem (by simp) fun i h5 h6 => ?_
  simp only [List.getElem_zipWith, List.getElem_map, List.getElem_range, fmod]
  change _ ≡ _ [ZMOD _]
  refine (((Int.mod_modEq _ _).mul_right _).mul (Int.mod_modEq _ _)).trans ?_
  rw [show ∀ a b d : Int, a * b * d = b * d * a by intros; ring]
  refine Int.ModEq.mul_left _ ?_
  rw [Finset.sum_congr rfl fun j _ => by rw [show 2 * (j * i) = 2 * i * j by ring]]

end Sys2Proof.Machine
end

