-- ==== Sys2Proof/Laws/Crt.lean ====
section
/-! SUPPORT. Laws of Machine/Crt.lean: which primes the search finds, what a valid `CRT` slot holds, and what
the reconstruction sum is modulo each prime (spec/44_crt.md). -/

namespace Sys2Proof.Machine

/-- A prime the search of rule R241 accepts. -/
def SearchPrime (d q : Nat) : Prop := q.Prime ∧ q % (2 * d) = 1 ∧ q < 2 ^ 63

theorem SearchPrime.next (d k q : Nat) (h1 : k * 2 * d + 1 ≤ q) (h : SearchPrime d q) :
    q = k * 2 * d + 1 ∨ (k + 1) * 2 * d + 1 ≤ q := by
  obtain ⟨-, hm, -⟩ := h
  have hdm := Nat.mod_add_div q (2 * d)
  rw [hm] at hdm
  rcases Nat.lt_or_ge k (q / (2 * d)) with h | h
  · right
    nlinarith [Nat.mul_le_mul_left (2 * d) h]
  · left
    nlinarith [Nat.mul_le_mul_left (2 * d) h]

/-- What the search from `k` upward answers: the primes found so far and the next ones in ascending order, or,
where they run out below 2^63, how many there were (rule R241). -/
theorem searchPrimes_spec (d want : Nat) (hd : 1 ≤ d) : ∀ (fuel k : Nat) (found : List Nat),
    2 ^ 63 ≤ fuel + k → 1 ≤ fuel → 1 ≤ k → found.length ≤ want →
    (∃ ext : List Nat, searchPrimes d want fuel k found = .ok (found ++ ext) ∧ found.length + ext.length = want ∧
      ext.Pairwise (· < ·) ∧ (∀ q ∈ ext, k * 2 * d + 1 ≤ q ∧ SearchPrime d q) ∧
      ∀ q, k * 2 * d + 1 ≤ q → SearchPrime d q → q ∈ ext ∨ ∀ r ∈ ext, r < q) ∨
    ∃ ext : List Nat, searchPrimes d want fuel k found = .error ⟨.noPrimeFound, u64 (found.length + ext.length : Nat)⟩ ∧
      found.length + ext.length < want ∧
      ext.Pairwise (· < ·) ∧ (∀ q ∈ ext, k * 2 * d + 1 ≤ q ∧ SearchPrime d q) ∧
      ∀ q, k * 2 * d + 1 ≤ q → SearchPrime d q → q ∈ ext := by
  intro fuel
  induction fuel with
  | zero => intro k found _ h; omega
  | succ fuel ih =>
    intro k found hf _ hk hl
    rw [searchPrimes]
    by_cases hlen : found.length < want
    · rw [if_pos hlen]
      dsimp only
      by_cases hc : k * 2 * d + 1 < 2 ^ 63
      · rw [if_pos hc]
        have hk2 : k * 2 ≤ k * 2 * d := Nat.le_mul_of_pos_right _ hd
        by_cases hp : isPrime ((k * 2 * d + 1 : Nat) : Int) = true
        · have hp' := (isPrime_iff _).1 hp
          rw [Int.toNat_natCast] at hp'
          have hs : SearchPrime d (k * 2 * d + 1) := ⟨hp', by
            rw [mul_assoc, Nat.add_mod, Nat.mul_mod_left, zero_add, Nat.mod_mod]
            exact Nat.mod_eq_of_lt (by omega), hc⟩
          have hlow : ∀ q, (k + 1) * 2 * d + 1 ≤ q → k * 2 * d + 1 < q := fun q h => by nlinarith
          rw [if_pos hp]
          rcases ih (k + 1) (found ++ [k * 2 * d + 1]) (by omega) (by omega) (by omega)
              (by simp; omega) with ⟨e, h1, h2, h3, h4, h5⟩ | ⟨e, h1, h2, h3, h4, h5⟩
          · refine .inl ⟨(k * 2 * d + 1) :: e, by simpa using h1, by simp at h2 ⊢; omega,
              List.pairwise_cons.2 ⟨fun q hq => hlow q (h4 q hq).1, h3⟩, ?_, ?_⟩
            · rintro q (_ | ⟨_, hq⟩)
              · exact ⟨le_rfl, hs⟩
              · exact ⟨(hlow q (h4 q hq).1).le, (h4 q hq).2⟩
            · intro q hq1 hq2
              rcases hq2.next d k q hq1 with rfl | hq3
              · exact .inl (List.mem_cons_self ..)
              · rcases h5 q hq3 hq2 with h | h
                · exact .inl (List.mem_cons_of_mem _ h)
                · refine .inr fun r hr => ?_
                  rcases List.mem_cons.1 hr with rfl | hr
                  · exact hlow q hq3
                  · exact h r hr
          · refine .inr ⟨(k * 2 * d + 1) :: e, ?_, by simp at h2 ⊢; omega,
              List.pairwise_cons.2 ⟨fun q hq => hlow q (h4 q hq).1, h3⟩, ?_, ?_⟩
            · rw [h1, List.length_append, List.length_cons, List.length_nil, List.length_cons,
                Nat.add_assoc, Nat.add_comm e.length]
            · rintro q (_ | ⟨_, hq⟩)
              · exact ⟨le_rfl, hs⟩
              · exact ⟨(hlow q (h4 q hq).1).le, (h4 q hq).2⟩
            · intro q hq1 hq2
              rcases hq2.next d k q hq1 with rfl | hq3
              · exact List.mem_cons_self ..
              · exact List.mem_cons_of_mem _ (h5 q hq3 hq2)
        · have hnot : ∀ q, k * 2 * d + 1 ≤ q → SearchPrime d q → (k + 1) * 2 * d + 1 ≤ q := by
            intro q hq1 hq2
            rcases hq2.next d k q hq1 with rfl | hq3
            · exact absurd ((isPrime_iff _).2 (by rw [Int.toNat_natCast]; exact hq2.1)) hp
            · exact hq3
          have hlow : ∀ q, (k + 1) * 2 * d + 1 ≤ q → k * 2 * d + 1 ≤ q := fun q h => by nlinarith
          rw [if_neg hp]
          rcases ih (k + 1) found (by omega) (by omega) (by omega) hl with
            ⟨e, h1, h2, h3, h4, h5⟩ | ⟨e, h1, h2, h3, h4, h5⟩
          · exact .inl ⟨e, h1, h2, h3, fun q hq => ⟨hlow q (h4 q hq).1, (h4 q hq).2⟩,
              fun q hq1 hq2 => h5 q (hnot q hq1 hq2) hq2⟩
          · exact .inr ⟨e, h1, h2, h3, fun q hq => ⟨hlow q (h4 q hq).1, (h4 q hq).2⟩,
              fun q hq1 hq2 => h5 q (hnot q hq1 hq2) hq2⟩
      · rw [if_neg hc]
        exact .inr ⟨[], by simp, by simpa using hlen, .nil, by simp, fun q h1 h2 => absurd h2.2.2 (by omega)⟩
    · rw [if_neg hlen]
      exact .inl ⟨[], by simp, by simp; omega, .nil, by simp, by simp⟩

/-- Where the search starts: the candidates at or above it are those above `2^s` (rule R241). -/
theorem searchStart_spec (s d k : Nat) (hd : 1 ≤ d) (hk : 1 ≤ k) :
    searchStart s d ≤ k ↔ 2 ^ s < k * 2 * d + 1 := by
  rw [searchStart, max_le_iff, Nat.div_le_iff_le_mul_add_pred (by omega)]
  have h : 2 * d * k = k * 2 * d := by ring
  rw [h]
  generalize k * 2 * d = m
  omega

/-- What the prime search answers (rule R241): the `n` smallest primes above `2^s` that are 1 modulo `2d`, in
ascending order, or the number of them below 2^63 when it is smaller. -/
theorem generatePrimes_spec (n s d : Nat) (hd : 1 ≤ d) :
    (∃ l : List Nat, generatePrimes n s d = .ok l ∧ l.length = n ∧ l.Pairwise (· < ·) ∧
      (∀ q ∈ l, 2 ^ s < q ∧ SearchPrime d q) ∧
      ∀ q, 2 ^ s < q → SearchPrime d q → q ∈ l ∨ ∀ r ∈ l, r < q) ∨
    ∃ l : List Nat, generatePrimes n s d = .error ⟨.noPrimeFound, u64 (l.length : Nat)⟩ ∧ l.length < n ∧
      l.Pairwise (· < ·) ∧ (∀ q ∈ l, 2 ^ s < q ∧ SearchPrime d q) ∧
      ∀ q, 2 ^ s < q → SearchPrime d q → q ∈ l := by
  have hstart : 1 ≤ searchStart s d := le_max_left _ _
  have hform : ∀ q, SearchPrime d q → ∃ k, 1 ≤ k ∧ q = k * 2 * d + 1 := by
    rintro q ⟨hp, hm, -⟩
    have hdm := Nat.mod_add_div q (2 * d)
    rw [hm] at hdm
    refine ⟨q / (2 * d), ?_, by rw [mul_assoc, mul_comm]; omega⟩
    rcases Nat.eq_zero_or_pos (q / (2 * d)) with h | h
    · rw [h] at hdm
      exact absurd hp.two_le (by omega)
    · exact h
  have hiff : ∀ q, SearchPrime d q → (searchStart s d * 2 * d + 1 ≤ q ↔ 2 ^ s < q) := by
    intro q hq
    obtain ⟨k, hk, rfl⟩ := hform q hq
    rw [← searchStart_spec s d k hd hk]
    constructor
    · intro h
      have : searchStart s d * (2 * d) ≤ k * (2 * d) := by rw [← mul_assoc, ← mul_assoc]; omega
      exact Nat.le_of_mul_le_mul_right this (by omega)
    · intro h
      have := Nat.mul_le_mul_right (2 * d) h
      rw [← mul_assoc, ← mul_assoc] at this
      omega
  rcases searchPrimes_spec d n hd (2 ^ 63) (searchStart s d) [] (by omega) (by norm_num) hstart (by simp)
    with ⟨l, h1, h2, h3, h4, h5⟩ | ⟨l, h1, h2, h3, h4, h5⟩
  · refine .inl ⟨l, h1, by simpa using h2, h3, fun q hq => ⟨(hiff q (h4 q hq).2).1 (h4 q hq).1, (h4 q hq).2⟩,
      fun q hq1 hq2 => h5 q ((hiff q hq2).2 hq1) hq2⟩
  · refine .inr ⟨l, by rw [generatePrimes, h1]; simp, by simpa using h2, h3,
      fun q hq => ⟨(hiff q (h4 q hq).2).1 (h4 q hq).1, (h4 q hq).2⟩,
      fun q hq1 hq2 => h5 q ((hiff q hq2).2 hq1) hq2⟩

/-- A list of distinct primes below 2^63, as the search answers it. -/
def PrimeList (l : List Nat) : Prop := l.Pairwise (· < ·) ∧ ∀ q ∈ l, q.Prime ∧ q < 2 ^ 63

theorem PrimeList.tail {q : Nat} {l : List Nat} (h : PrimeList (q :: l)) : PrimeList l :=
  ⟨(List.pairwise_cons.1 h.1).2, fun r hr => h.2 r (List.mem_cons_of_mem _ hr)⟩

theorem prime_dvd_prod_iff {q : Nat} {l : List Nat} (hq : q.Prime) (h : ∀ r ∈ l, r.Prime) :
    q ∣ l.prod ↔ q ∈ l := ⟨fun hd => prime_dvd_prod_mem h hq hd, List.dvd_prod⟩

/-- The cofactor `M / q` keeps every other prime of the list and loses `q` (rule R248). -/
theorem PrimeList.cofactor {l : List Nat} (h : PrimeList l) {q : Nat} (hq : q ∈ l) :
    l.prod = q * (l.prod / q) ∧ Nat.Coprime (l.prod / q) q ∧ ∀ r ∈ l, r ≠ q → r ∣ l.prod / q := by
  have hnd : l.Nodup := h.1.imp fun hlt => Nat.ne_of_lt hlt
  have hpq := (h.2 q hq).1
  have hprod : l.prod = q * (l.erase q).prod := by rw [← List.prod_cons]; exact (List.perm_cons_erase hq).prod_eq
  have hdiv : l.prod / q = (l.erase q).prod := by rw [hprod]; exact Nat.mul_div_cancel_left _ hpq.pos
  rw [hdiv]
  refine ⟨hprod, ?_, fun r hr hne => List.dvd_prod ((List.mem_erase_of_ne hne).2 hr)⟩
  rw [Nat.coprime_comm, hpq.coprime_iff_not_dvd, prime_dvd_prod_iff hpq
    fun r hr => (h.2 r (List.mem_of_mem_erase hr)).1]
  exact hnd.not_mem_erase

theorem PrimeList.prod_lt {l : List Nat} (h : PrimeList l) : l.prod ≤ 2 ^ (63 * l.length) := by
  induction l with
  | nil => simp
  | cons q l ih =>
    rw [List.prod_cons, List.length_cons, Nat.mul_add, mul_one, Nat.add_comm, pow_add]
    exact Nat.mul_le_mul (h.2 q (List.mem_cons_self ..)).2.le (ih h.tail)

theorem PrimeList.prod_pos {l : List Nat} (h : PrimeList l) : 0 < l.prod :=
  List.prod_pos fun q hq => (h.2 q hq).1.pos

/-- A map that succeeds on every element gives the list of its results. -/
theorem mapM_ok {α β : Type} (f : α → Except Exn β) (P : α → β → Prop) (l : List α)
    (h : ∀ a ∈ l, ∃ b, f a = .ok b ∧ P a b) : ∃ bs, l.mapM f = .ok bs ∧ List.Forall₂ P l bs := by
  induction l with
  | nil => exact ⟨[], rfl, .nil⟩
  | cons a l ih =>
    obtain ⟨b, h1, h2⟩ := h a (List.mem_cons_self ..)
    obtain ⟨bs, h3, h4⟩ := ih fun x hx => h x (List.mem_cons_of_mem _ hx)
    exact ⟨b :: bs, by simp [List.mapM_cons, h1, h3, bind, Except.bind, pure, Except.pure], .cons h2 h4⟩

/-- The slot built on a list of distinct primes, or `WIDE_OVERFLOW` when their product does not fit (rules R241,
R242, R248). -/
theorem buildCrt_eq (b : Build) (n s d : Int) (l : List Nat) (hl : PrimeList l)
    (hg : generatePrimes n.toNat s.toNat d.toNat = .ok l) :
    ∃ ys : List Int,
      List.Forall₂ (fun (q : Nat) (y : Int) => 0 ≤ y ∧ y < q ∧ ((l.prod / q : Nat) : Int) * y % q = 1) l ys ∧
      buildCrt b n s d =
        if l.prod < 2 ^ (b.wideW - 1) then .ok
          { numPrimes := u64 n, primeSize := u64 s, degree := u64 d,
            limbs := u64 ((bitLength l.prod + 63) / 64 : Nat)
            primes := l.map fun q : Nat => u64 q, miInv := ys.map u64,
            bigM := ofWideNat l.prod, mi := l.map fun q => ofWideNat (l.prod / q) }
        else .error ⟨.wideOverflow, 0⟩ := by
  obtain ⟨ys, h1, h2⟩ := mapM_ok (fun q : Nat => modInv (fmod ((l.prod / q : Nat) : Int) q) q)
    (fun (q : Nat) (y : Int) => 0 ≤ y ∧ y < q ∧ ((l.prod / q : Nat) : Int) * y % q = 1) l (by
      intro q hq
      have hq2 := (hl.2 q hq).1.two_le
      obtain ⟨t, h1, h2, h3, h4⟩ := modInv_of_coprime (fmod ((l.prod / q : Nat) : Int) q) q (by omega) (by
        rw [fmod, Int.gcd_emod, Int.gcd_natCast_natCast]
        exact (hl.cofactor hq).2.1)
      refine ⟨t, h1, h2, h3, ?_⟩
      have h5 : fmod 1 (q : Int) = 1 := Int.emod_eq_of_lt (by omega) (by omega)
      rw [← h5, ← h4]
      exact (((Int.mod_modEq _ _).mul_right t)).symm)
  refine ⟨ys, h2, ?_⟩
  have hprod : l.foldr (fun a b => a * b) 1 = l.prod := by
    induction l with
    | nil => rfl
    | cons q l ih => simp [List.prod]
  rw [buildCrt, hg]
  simp only [bind, Except.bind, pure, Except.pure]
  have hf : l.foldr (· * ·) 1 = l.prod := hprod
  rw [hf]
  split_ifs with hlt
  · rw [require_of_pos hlt]
    simp only [h1]
  · rw [require_of_neg hlt]

/-- The reconstruction sum modulo one of the primes (rule R244): every other prime's term vanishes, and its own
is its residue. -/
theorem crtSum_emod (bigM : Nat) (q : Nat) : ∀ (l : List Nat) (r : List Int) (ms : List Wide) (ys : List Word),
    l.Nodup → r.length = l.length → ms.map (fun m => (m.toNat : Int)) = l.map (fun p => ((bigM / p : Nat) : Int)) →
    List.Forall₂ (fun (p : Nat) (y : Word) => ((bigM / p : Nat) : Int) * sint y % p = 1) l ys →
    (∀ p ∈ l, p ≠ q → q ∣ bigM / p) →
      (q ∉ l → (q : Int) ∣ crtSum r ms ys) ∧
      ∀ i, l[i]? = some q → crtSum r ms ys % q = r.getD i 0 % q := by
  intro l
  induction l with
  | nil =>
    intro r ms ys _ hr _ _ _
    rw [List.length_eq_zero_iff.1 hr]
    exact ⟨fun _ => dvd_zero _, fun i hi => by simp at hi⟩
  | cons p l ih =>
    intro r ms ys hnd hr hms hys hq
    rcases r with _ | ⟨z, r⟩
    · simp at hr
    rcases ms with _ | ⟨m, ms⟩
    · simp at hms
    rcases hys with _ | ⟨hy, hys⟩
    rename_i y ys
    simp only [List.map_cons, List.cons.injEq] at hms
    obtain ⟨hm, hms⟩ := hms
    obtain ⟨h1, h2⟩ := ih r ms ys (List.nodup_cons.1 hnd).2 (by simpa using hr) hms hys
      fun a ha => hq a (List.mem_cons_of_mem _ ha)
    have hother : p ≠ q → (q : Int) ∣ z * m.toNat * sint y := by
      intro hne
      rw [hm]
      exact ((Int.natCast_dvd_natCast.2 (hq p (List.mem_cons_self ..) hne)).mul_left z).mul_right _
    rw [crtSum]
    refine ⟨fun hmem => ?_, fun i hi => ?_⟩
    · rw [List.mem_cons, not_or] at hmem
      exact dvd_add (hother (Ne.symm hmem.1)) (h1 hmem.2)
    · rcases i with _ | i
      · simp only [List.getElem?_cons_zero, Option.some.injEq] at hi
        subst hi
        have hz : z * m.toNat * sint y ≡ z * 1 [ZMOD p] := by
          rw [mul_assoc, hm]
          exact Int.ModEq.mul_left z (by
            rw [Int.ModEq, hy]
            refine (Int.emod_eq_of_lt (by norm_num) ?_).symm
            have h3 := Int.emod_nonneg (((bigM / p : Nat) : Int) * sint y) (b := p) (by
              rintro h0
              rw [Int.natCast_eq_zero.1 h0] at hy
              simp at hy)
            by_contra hle
            have : p = 0 ∨ p = 1 := by omega
            rcases this with rfl | rfl
            · simp at hy
            · simp at hy)
        have hsum := h1 (List.nodup_cons.1 hnd).1
        have := hz.add (Int.modEq_zero_iff_dvd.2 hsum)
        simpa [Int.ModEq] using this
      · simp only [List.getElem?_cons_succ] at hi
        have hne : p ≠ q := fun h => (List.nodup_cons.1 hnd).1 (h ▸ List.mem_of_getElem? hi)
        rw [List.getD_cons_succ, ← h2 i hi]
        rw [Int.add_emod, Int.emod_eq_zero_of_dvd (hother hne), zero_add, Int.emod_emod]

/-- Two integers that agree modulo every prime of a list agree modulo the product (rule R244). -/
theorem PrimeList.modEq_prod {l : List Nat} (h : PrimeList l) (a b : Int)
    (hab : ∀ q ∈ l, a % q = b % q) : a % l.prod = b % l.prod := by
  induction l with
  | nil => simp
  | cons q l ih =>
    have hcop : Nat.Coprime q l.prod := by
      have hpq := (h.2 q (List.mem_cons_self ..)).1
      rw [hpq.coprime_iff_not_dvd, prime_dvd_prod_iff hpq fun r hr => (h.2 r (List.mem_cons_of_mem _ hr)).1]
      exact fun hm => absurd ((List.pairwise_cons.1 h.1).1 q hm) (lt_irrefl q)
    have h1 : a ≡ b [ZMOD q] := hab q (List.mem_cons_self ..)
    have h2 : a ≡ b [ZMOD l.prod] := ih h.tail fun r hr => hab r (List.mem_cons_of_mem _ hr)
    rw [List.prod_cons, Nat.cast_mul]
    exact (Int.modEq_and_modEq_iff_modEq_mul (by rwa [Int.natAbs_natCast, Int.natAbs_natCast])).1 ⟨h1, h2⟩

/-- What a valid `CRT` slot holds (rules R44, R241, R248). -/
theorem CrtCtx.Valid.fields (b : Build) (c : CrtCtx) (h : c.Valid b) :
    ∃ l : List Nat, PrimeList l ∧ (∀ q ∈ l, sint c.primeSize < 2 ^ 63 ∧ 2 ^ c.primeSize.toNat < q ∧
        q % (2 * c.degree.toNat) = 1) ∧
      1 ≤ l.length ∧ l.length ≤ b.nPrimeMax ∧ c.numPrimes.toNat = l.length ∧
      1 ≤ c.degree.toNat ∧ c.degree.toNat ≤ b.nMax ∧ PowerOfTwo c.degree.toNat ∧
      c.limbs.toNat = (bitLength l.prod + 63) / 64 ∧ c.limbs.toNat ≤ b.wideLimbs ∧ c.primes = l.map (fun q : Nat => u64 q) ∧
      c.primes.map sint = l.map (fun q : Nat => (q : Int)) ∧
      l.prod < 2 ^ (b.wideW - 1) ∧ c.bigM.toNat = l.prod ∧
      c.mi.map (fun m => (m.toNat : Int)) = l.map (fun q : Nat => ((l.prod / q : Nat) : Int)) ∧
      List.Forall₂ (fun (q : Nat) (y : Word) =>
        0 ≤ sint y ∧ sint y < q ∧ ((l.prod / q : Nat) : Int) * sint y % q = 1) l c.miInv := by
  obtain ⟨n, s, d, hn1, hn2, hs1, hs2, hpow, hd, hb⟩ := h
  have hd1 : 1 ≤ d := by obtain ⟨k, rfl⟩ := hpow; exact one_le_pow₀ (by norm_num)
  have hb1 := b.nMax_bounds
  have hb2 := b.nPrimeMax_bounds
  have hb3 := b.wideW_bounds
  have hb4 := b.wideLimbs_eq
  have hnat : ∀ z : Int, 0 ≤ z → z < 2 ^ 63 → (u64 z).toNat = z.toNat := by
    intro z h0 h1
    have := sint_u64 z (by omega) h1
    rw [sint, BitVec.toInt_eq_toNat_cond] at this
    split at this <;> omega
  rcases generatePrimes_spec n.toNat s.toNat d.toNat (by omega) with
    ⟨l, h1, h2, h3, h4, -⟩ | ⟨l, h1, -⟩
  · have hl : PrimeList l := ⟨h3, fun q hq => ⟨(h4 q hq).2.1, (h4 q hq).2.2.2⟩⟩
    obtain ⟨ys, h5, h7⟩ := buildCrt_eq b n s d l hl h1
    rw [h7] at hb
    split_ifs at hb with h6
    obtain rfl := (Except.ok.inj hb).symm
    have hbits : bitLength l.prod ≤ b.wideW := by
      have := (Nat.log2_lt hl.prod_pos.ne').2 h6
      simp only [bitLength]
      omega
    have hq : ∀ q ∈ l, sint (u64 (q : Int)) = q := fun q hq => sint_u64 _ (by omega) (by
      have := (hl.2 q hq).2
      omega)
    refine ⟨l, hl, fun q hq => ⟨(sint_bounds _).2, ?_, ?_⟩, by omega, by omega, ?_, ?_, ?_, ?_, ?_, ?_, rfl, ?_,
      h6, ?_, ?_, ?_⟩
    · rw [hnat s hs1 (by omega)]
      exact (h4 q hq).1
    · rw [hnat d (by omega) (by omega)]
      exact (h4 q hq).2.2.1
    · rw [hnat n (by omega) (by omega), h2]
    · rw [hnat d (by omega) (by omega)]
      omega
    · rw [hnat d (by omega) (by omega)]
      omega
    · rw [hnat d (by omega) (by omega), Int.toNat_of_nonneg (by omega)]
      exact hpow
    · rw [hnat _ (by omega) (by omega), Int.toNat_natCast]
    · rw [hnat _ (by omega) (by omega), Int.toNat_natCast]
      omega
    · rw [List.map_map]
      exact List.map_congr_left hq
    · dsimp only
      exact ofWideNat_toNat b l.prod h6
    · rw [List.map_map]
      refine List.map_congr_left fun q _ => ?_
      rw [Function.comp_apply]
      rw [ofWideNat_toNat b (l.prod / q) (lt_of_le_of_lt (Nat.div_le_self _ _) h6)]
    · rw [List.forall₂_map_right_iff]
      refine ((List.forall₂_and_left _ _).2 ⟨fun q hq => (hl.2 q hq).2, h5⟩).imp ?_
      rintro q y ⟨hlt, h8, h9, h10⟩
      rw [sint_u64 y (by omega) (by omega)]
      exact ⟨h8, h9, h10⟩
  · rw [buildCrt, h1] at hb
    cases hb

end Sys2Proof.Machine
end

