-- ==== Sys2Proof/Laws/Memory.lean ====
section
/-! SUPPORT. Laws of the data memory: the form `size ≤ cap ≤ VCAPMAX` of rule R29 holds at reset, and every
operation that writes a buffer keeps it. -/

namespace Sys2Proof.Machine

/-- The reset memory has the form (rules R29, R32). -/
theorem Memory.wf_reset (b : Build) : (State.resetOf b).v.wf b := by
  intro i
  simp [State.resetOf, Buffer.size]

/-- Writing a buffer of the right form keeps the form of the memory. -/
theorem State.writeV_wf (s : State) (r : VReg) (b : Buffer) (h : s.v.wf s.build) (h1 : b.size ≤ b.cap)
    (h2 : b.cap ≤ s.build.vcapMax) : (s.writeV r b).v.wf s.build := by
  intro i
  rw [State.writeV_get]
  split
  · exact ⟨h1, h2⟩
  · exact h i

@[simp] theorem Buffer.size_write (b : Buffer) (k : Nat) (d : Word) : (b.write k d).size = b.size := by
  simp [Buffer.write, Buffer.size]

@[simp] theorem Buffer.cap_write (b : Buffer) (k : Nat) (d : Word) : (b.write k d).cap = b.cap := rfl

/-- A word is read back where it was written (rule R72). -/
theorem Buffer.read_write_same (b : Buffer) (k : Nat) (d : Word) (h : k < b.size) :
    (b.write k d).read k = some d := by
  rw [Buffer.read, Buffer.write, List.getElem?_set_self h]

/-- Every other word is left alone (rule R72). -/
theorem Buffer.read_write_other (b : Buffer) (j k : Nat) (d : Word) (h : j ≠ k) :
    (b.write k d).read j = b.read j := by
  rw [Buffer.read, Buffer.read, Buffer.write, List.getElem?_set_ne (Ne.symm h)]

@[simp] theorem Buffer.size_resize (b : Buffer) (n : Nat) : (b.resize n).size = n := by
  simp only [Buffer.resize, Buffer.size, List.length_append, List.length_take, List.length_replicate]
  omega

@[simp] theorem Buffer.cap_resize (b : Buffer) (n : Nat) : (b.resize n).cap = max b.cap n := rfl

@[simp] theorem Buffer.size_reserve (b : Buffer) (c : Nat) : (b.reserve c).size = b.size := rfl

@[simp] theorem Buffer.cap_reserve (b : Buffer) (c : Nat) : (b.reserve c).cap = max b.cap c := rfl

@[simp] theorem Buffer.size_shrink (b : Buffer) : b.shrink.size = b.size := rfl

@[simp] theorem Buffer.cap_shrink (b : Buffer) : b.shrink.cap = b.size := rfl

/-- The elements after a resize (rule R343): the old ones below both sizes, and zeros above the old size. -/
theorem Buffer.read_resize (b : Buffer) (n k : Nat) (h : k < n) :
    (b.resize n).read k = some (if k < b.size then b.elems.getD k 0 else 0) := by
  rw [Buffer.read, Buffer.resize]
  by_cases hk : k < b.elems.length
  · rw [List.getElem?_append_left (by rw [List.length_take]; omega), List.getElem?_take_of_lt h,
      if_pos (show k < b.size from hk), List.getElem?_eq_getElem hk, List.getD_eq_getElem _ _ hk]
  · rw [List.getElem?_append_right (by rw [List.length_take]; omega), if_neg (show ¬ k < b.size from hk),
      List.getElem?_replicate_of_lt]
    rw [List.length_take, Buffer.size]
    omega

/-- `VecAssign` keeps the form (rules R29, R31). -/
theorem vecAssign_wf (s t : State) (r : VReg) (l : List Int) (h : s.v.wf s.build) (ht : vecAssign s r l = .ok t) :
    t.v.wf s.build := by
  obtain ⟨hl, rfl⟩ := (vecAssign_eq_ok _ _ _ _).1 ht
  refine State.writeV_wf s r _ h ?_ (max_le (h r).2 hl)
  simp [Buffer.size]

/-- An element write keeps the form (rule R348). -/
theorem State.writeElement_wf (s : State) (r : VReg) (k : Nat) (d : Word) (h : s.v.wf s.build) :
    (s.writeV r (s.v[r].write k d)).v.wf s.build := by
  obtain ⟨h1, h2⟩ := h r
  exact State.writeV_wf s r _ h (by rwa [Buffer.size_write, Buffer.cap_write]) (by rwa [Buffer.cap_write])

/-- A resize keeps the form (rule R343). -/
theorem State.resize_wf (s : State) (r : VReg) (n : Nat) (h : s.v.wf s.build) (hn : n ≤ s.build.vcapMax) :
    (s.writeV r (s.v[r].resize n)).v.wf s.build := by
  obtain ⟨h1, h2⟩ := h r
  exact State.writeV_wf s r _ h (by rw [Buffer.size_resize, Buffer.cap_resize]; exact le_max_right _ _)
    (by rw [Buffer.cap_resize]; exact max_le h2 hn)

/-- A reserve keeps the form (rule R344). -/
theorem State.reserve_wf (s : State) (r : VReg) (n : Nat) (h : s.v.wf s.build) (hn : n ≤ s.build.vcapMax) :
    (s.writeV r (s.v[r].reserve n)).v.wf s.build := by
  obtain ⟨h1, h2⟩ := h r
  exact State.writeV_wf s r _ h (by rw [Buffer.size_reserve, Buffer.cap_reserve]; exact le_max_of_le_left h1)
    (by rw [Buffer.cap_reserve]; exact max_le h2 hn)

/-- A shrink keeps the form (rule R345). -/
theorem State.shrink_wf (s : State) (r : VReg) (h : s.v.wf s.build) : (s.writeV r s.v[r].shrink).v.wf s.build := by
  obtain ⟨h1, h2⟩ := h r
  exact State.writeV_wf s r _ h (by rw [Buffer.size_shrink, Buffer.cap_shrink])
    (by rw [Buffer.cap_shrink]; exact le_trans h1 h2)

/-- A host write leaves the parameters of the build alone (rule R412). -/
theorem writeMapped_build (s : State) (n : Nat) (d : Word) : (writeMapped s n d).build = s.build := by
  have hack : s.acknowledge.build = s.build := by unfold State.acknowledge; split <;> rfl
  rw [writeMapped]
  generalize 0x10000000 = b1, 0x20000000 = b2, 0x30000000 = b3, 0x01000000 = b4
  dsimp only
  split_ifs <;> first | rfl | exact hack

/-- A host write keeps the form (rules R29, R30). -/
theorem writeMapped_wf (s : State) (n : Nat) (d : Word) (h : s.v.wf s.build) : (writeMapped s n d).v.wf s.build := by
  have hack : s.acknowledge.v.wf s.build := by
    rw [show s.acknowledge.v = s.v by unfold State.acknowledge; split <;> rfl]
    exact h
  rw [writeMapped]
  generalize 0x10000000 = b1, 0x20000000 = b2, 0x30000000 = b3, 0x01000000 = b4
  dsimp only
  split_ifs
  · exact h
  · exact hack
  · exact h
  · exact h
  · exact State.writeElement_wf s _ _ d h
  · exact h
  · exact h

end Sys2Proof.Machine
end

