-- ==== Sys2Proof/Tests/Slice0.lean ====
section
/-! SUPPORT. Tests: the ill-formed words, the decoding of every command, one step of every command, and for
every statement with hypotheses a state that meets them. Expected results are the spec's own
(spec/95_test_vectors.md and the examples of the rules), not the model's. -/

namespace Sys2Proof.Tests

set_option Elab.async false -- one theorem at a time: a thread for each needs more memory than the check gives

open Sys2Proof.Machine

/-! ### The well-formedness checks: one ill-formed term for each -/

/-- Fields with a `rd` of 9 for a buffer (spec/95 §2.9, the word `0x07900000`). -/
theorem test_wellFormed_refuses_rd :
    Shape.firstBad ⟨.v, .v, .zero, .zero, .zero⟩ ⟨0x07, 9, 0, 0, 0, 0⟩ = some .badRd := by decide

theorem test_wellFormed_refuses_ra :
    Shape.firstBad ⟨.w, .w, .zero, .zero, .zero⟩ ⟨0x04, 0, 4, 0, 0, 0⟩ = some .badRa := by decide

/-- `MOV` with a nonzero `rb` (spec/95 §2.9, the word `0x03521000`). -/
theorem test_wellFormed_refuses_rb :
    Shape.firstBad ⟨.x, .x, .zero, .zero, .zero⟩ ⟨0x03, 5, 2, 1, 0, 0⟩ = some .badRb := by decide

/-- `ZP.GEN` with a nonzero `rc` (spec/95 §2.9, the word `0x27900100`). -/
theorem test_wellFormed_refuses_rc :
    Shape.firstBad ⟨.x, .zero, .zero, .zero, .zero⟩ ⟨0x27, 9, 0, 0, 1, 0⟩ = some .badRc := by decide

/-- `NTT.RAW` with bit 1 of `imm8` set (spec/95 §2.9, the word `0x31000002`). -/
theorem test_wellFormed_refuses_imm :
    Shape.firstBad ⟨.v, .zero, .zero, .zero, .sel⟩ ⟨0x31, 0, 0, 0, 0, 2⟩ = some .badImm := by decide

theorem test_wellFormed_refuses_opcode : decode 0xFF000000 = .error .unassignedOpcode := by decide

/-- The illegal words of spec/95 §2.9. -/
theorem test_illegal_words :
    [0x08000000, 0x90000000, 0x00000001, 0x00100000, 0x01110005, 0x03520001, 0x03521000, 0x05400000,
      0x07900000, 0x20110000, 0x31000002, 0x62900200, 0x27900100].all
      (fun c : CmdWord => (decode c).toOption.isNone) = true := by decide

/-! ### The decoding of every command, by the words of the spec's examples -/

theorem test_decode_family0 :
    decode 0x00000000 = .ok .nop ∧ decode 0x0120FFFF = .ok (.li 2 0xFFFF) ∧
    decode 0x0210ABCD = .ok (.lsi 1 0xABCD) ∧ decode 0x03520000 = .ok (.mov 5 2) ∧
    decode 0x04100000 = .ok (.wmov 1 0) ∧ decode 0x05260000 = .ok (.wsetx 2 6) ∧
    decode 0x06510000 = .ok (.wgetx 5 1) ∧ decode 0x07300000 = .ok (.vmov 3 0) := by decide

theorem test_decode_family1 :
    decode 0x10201000 = .ok (.ntModinv 2 0 1) ∧ decode 0x11301200 = .ok (.ntModexp 3 0 1 2) ∧
    decode 0x12100000 = .ok (.ntIsprime 1 0) ∧ decode 0x13201000 = .ok (.ntRoot 2 0 1) ∧
    decode 0x14100000 = .ok (.ntFindgen 1 0) := by decide

theorem test_decode_family2 :
    decode 0x20010000 = .ok (.zpInit 1) ∧ decode 0x21423000 = .ok (.zpAdd 4 2 3) ∧
    decode 0x22623000 = .ok (.zpSub 6 2 3) ∧ decode 0x23523000 = .ok (.zpMul 5 2 3) ∧
    decode 0x24723000 = .ok (.zpExp 7 2 3) ∧ decode 0x25720000 = .ok (.zpInv 7 2) ∧
    decode 0x26840000 = .ok (.zpRoot 8 4) ∧ decode 0x27900000 = .ok (.zpGen 9) := by decide

theorem test_decode_family3 :
    decode 0x30012000 = .ok (.nttInit 1 2) ∧ decode 0x31000000 = .ok (.nttRaw 0 false) ∧
    decode 0x31000001 = .ok (.nttRaw 0 true) ∧ decode 0x32000000 = .ok (.nttFwd 0) ∧
    decode 0x33100000 = .ok (.nttInv 1) ∧ decode 0x34201000 = .ok (.nttPmul 2 0 1) := by decide

theorem test_decode_family4 :
    decode 0x40012300 = .ok (.crtInit 1 2 3) ∧ decode 0x41000000 = .ok (.crtEnc 0 0) ∧
    decode 0x42100000 = .ok (.crtDec 1 0) ∧ decode 0x43100000 = .ok (.crtPrimes 1) ∧
    decode 0x44200000 = .ok (.crtMod 2) := by decide

theorem test_decode_family5 :
    decode 0x50010000 = .ok (.galInit 1) ∧ decode 0x51320000 = .ok (.galElt 3 2) ∧
    decode 0x52100000 = .ok (.galElts 1 0) ∧ decode 0x53430000 = .ok (.galIdx 4 3) ∧
    decode 0x54000000 = .ok (.galAll 0) := by decide

theorem test_decode_family6 :
    decode 0x60201300 = .ok (.polyAdd 2 0 1 3) ∧ decode 0x61201300 = .ok (.polySub 2 0 1 3) ∧
    decode 0x62201300 = .ok (.polyMul 2 0 1 3) ∧ decode 0x63201000 = .ok (.polyMuln 2 0 1) ∧
    decode 0x64201000 = .ok (.polyMulc 2 0 1) ∧ decode 0x65523000 = .ok (.polyEq 5 2 3) := by decide

theorem test_decode_family7 :
    decode 0x70012000 = .ok (.rndHwt 0 1 2) ∧ decode 0x71130000 = .ok (.rndTri 1 3) ∧
    decode 0x72245600 = .ok (.rndUni 2 4 5 6) := by decide

theorem test_decode_family8 :
    decode 0x80100000 = .ok (.vsize 1 0) ∧ decode 0x81100000 = .ok (.vcap 1 0) ∧
    decode 0x82100000 = .ok (.vempty 1 0) ∧ decode 0x83010000 = .ok (.vresize 0 1) ∧
    decode 0x84010000 = .ok (.vreserve 0 1) ∧ decode 0x85000000 = .ok (.vshrink 0) ∧
    decode 0x86302000 = .ok (.vat 3 0 2) ∧ decode 0x87024000 = .ok (.vset 0 2 4) := by decide

/-- Every mnemonic of the table stands in one row, and the numbering of the words is the table's. -/
theorem test_table_words :
    opcodeTable.length = 53 ∧ (opcodeTable.map TableRow.mnemonic).Nodup ∧
    decodeTableWord 32 0x62201300 = some (.polyMul 2 0 1 3) ∧ decodeTableWord 32 0x03521000 = none := by
  decide

/-! ### One step of every command -/

/-- The slot `(19)` of rule R183's example. -/
def zp19 : ZpCtx := ⟨19, 5⟩

/-- The slot `(4, 73)` of rule R214's example. -/
def ntt73 : NttCtx :=
  { n := 4, p := 73, psi := 10, psiinv := 22, ninv := 55, rou := [1, 10, 27, 51],
    rouinv := [1, 22, 46, 63] }

/-- The slot `(2, 4, 4)` of rule R242's second example. -/
def crt697 : CrtCtx :=
  { numPrimes := 2, primeSize := 4, degree := 4, limbs := 1, primes := [17, 41], miInv := [5, 29],
    bigM := 697, mi := [41, 17] }

/-- A state with every slot valid. -/
def slots : State :=
  { State.reset with zp := some zp19, ntt := some ntt73, crt := some crt697, gal := some ⟨8⟩ }

/-- The state with some scalar registers and buffers set; a buffer's capacity is its size. -/
def given (s : State) (xs : List (XReg × Int)) (vs : List (VReg × List Int)) : State :=
  vs.foldl (fun s e => s.writeV e.1 ⟨e.2.map u64, e.2.length⟩)
    (xs.foldl (fun s e => s.writeX e.1 (u64 e.2)) s)

/-- The state with some wide registers set. -/
def givenWide (s : State) (ws : List (WReg × Int)) : State :=
  ws.foldl (fun s e => s.writeW e.1 (ofWideInt s.build e.2)) s

/-- The state after the step that takes up the command word `w`. -/
def after (s : State) (w : Nat) : State :=
  match step (s.withFetchWord 32 w) with
  | .next t => t
  | _ => s

/-- The fault record: run state, cause, information word and `CSEQ`. -/
def record (s : State) : RunState × Nat × Int × Nat := (s.run, s.fcause.toNat, sint s.finfo, s.cseq.toNat)

theorem test_nop : (after { slots with cseq := 7 } 0x00000000).cseq = 8 := by decide +kernel

theorem test_li : (after slots 0x01208000).xInt 2 = -32768 := by decide +kernel

theorem test_lsi :
    (after (slots.writeX 1 0xFFFF000000000001) 0x02100002).x[1] = 0x0000000000010002 := by decide +kernel

theorem test_mov : (after (given slots [(2, 5), (5, 9)] []) 0x03520000).xInt 5 = 5 := by decide +kernel

theorem test_wmov : (after (givenWide slots [(0, 2 ^ 100)]) 0x04100000).wInt 1 = 2 ^ 100 := by
  decide +kernel

theorem test_wsetx : limb (after (given slots [(6, -5)] []) 0x05260000).w[2] 15 = 0xFFFFFFFFFFFFFFFF := by
  decide +kernel

theorem test_wgetx_most_negative :
    (after (givenWide slots [(1, -2 ^ 63)]) 0x06510000).x[5] = 0x8000000000000000 := by decide +kernel

theorem test_wgetx_overflow :
    record (after (givenWide slots [(1, 2 ^ 63)]) 0x06510000) = (.faulted, 11, 0, 0) := by decide +kernel

theorem test_vmov :
    (after (given slots [] [(0, [1, 2, 3]), (1, [9, 9, 9, 9])]) 0x07100000).v[1] = ⟨[1, 2, 3], 4⟩ := by
  decide +kernel

theorem test_modinv_wide :
    (after (givenWide slots [(0, 2), (1, 2 ^ 127 - 1)]) 0x10201000).wInt 2 = 2 ^ 126 := by decide +kernel

theorem test_modinv_not_coprime :
    record (after (givenWide slots [(0, 6), (1, 9)]) 0x10201000) = (.faulted, 7, 0, 0) := by decide +kernel

theorem test_modexp_negative_base :
    (after (givenWide slots [(0, -2), (1, 5), (2, 19)]) 0x11301200).wInt 3 = 6 := by decide +kernel

theorem test_isprime : (after (givenWide slots [(0, 7681)]) 0x12100000).x[1] = 1 := by decide +kernel

theorem test_isprime_composite : (after (givenWide slots [(0, 513)]) 0x12100000).x[1] = 0 := by
  decide +kernel

theorem test_root : (after (givenWide slots [(0, 8), (1, 73)]) 0x13201000).wInt 2 = 10 := by decide +kernel

theorem test_findgen : (after (givenWide slots [(0, 7681)]) 0x14100000).wInt 1 = 17 := by decide +kernel

theorem test_findgen_two : record (after (givenWide slots [(0, 2)]) 0x14100000) = (.faulted, 6, 0, 0) := by
  decide +kernel

theorem test_zp_init : (after (given State.reset [(1, 19)] []) 0x20010000).zp = some zp19 := by
  decide +kernel

theorem test_zp_init_negative :
    record (after (slots.writeX 1 0x8000000000000000) 0x20010000) = (.faulted, 3, 0, 0) := by decide +kernel

theorem test_zp_add : (after (given slots [(2, -1), (3, -2)] []) 0x21423000).xInt 4 = 16 := by
  decide +kernel

theorem test_zp_sub : (after (given slots [(2, -2), (3, -1)] []) 0x22623000).xInt 6 = 18 := by
  decide +kernel

theorem test_zp_mul : (after (given slots [(2, -1), (3, -2)] []) 0x23523000).xInt 5 = 2 := by
  decide +kernel

theorem test_zp_exp : (after (given slots [(2, -2), (3, 5)] []) 0x24723000).xInt 7 = 6 := by decide +kernel

theorem test_zp_inv : (after (given slots [(2, 2)] []) 0x25720000).xInt 7 = 10 := by decide +kernel

theorem test_zp_root : (after (given slots [(4, 3)] []) 0x26840000).xInt 8 = 7 := by decide +kernel

theorem test_zp_root_no_order : record (after (given slots [(4, 4)] []) 0x26840000) = (.faulted, 6, 0, 0) := by
  decide +kernel

theorem test_zp_gen : (after slots 0x27900000).xInt 9 = 2 := by decide +kernel

theorem test_ntt_init : (after (given State.reset [(1, 4), (2, 73)] []) 0x30012000).ntt = some ntt73 := by
  decide +kernel

theorem test_ntt_init_no_root :
    record (after (given slots [(1, 4), (2, 19)] []) 0x30012000) = (.faulted, 6, 0, 0) := by decide +kernel

theorem test_ntt_raw : (after (given slots [] [(0, [0, 1, 4, 5])]) 0x31000000).elems 0 = [10, 34, 71, 31] := by
  decide +kernel

theorem test_ntt_raw_inverse_table :
    (after (given slots [] [(0, [10, 34, 71, 31])]) 0x31000001).elems 0 = [0, 4, 16, 20] := by decide +kernel

theorem test_ntt_fwd : (after (given slots [] [(0, [0, 1, 4, 5])]) 0x32000000).elems 0 = [8, 66, 62, 10] := by
  decide +kernel

theorem test_ntt_inv : (after (given slots [] [(1, [66, 44, 47, 19])]) 0x33100000).elems 1 = [44, 42, 64, 17] := by
  decide +kernel

theorem test_ntt_pmul :
    (after (given slots [] [(0, [8, 66, 62, 10]), (1, [63, 25, 9, 53])]) 0x34201000).elems 2 =
      [66, 44, 47, 19] := by decide +kernel

theorem test_crt_init :
    (after (given State.reset [(1, 2), (2, 4), (3, 4)] []) 0x40012300).crt = some crt697 := by
  decide +kernel

theorem test_crt_init_limbs :
    ((after (given State.reset [(1, 4), (2, 9), (3, 256)] []) 0x40012300).crt.map fun c =>
      (c.primes.map sint, c.bigM.toNat, c.miInv.map sint)) =
      some ([7681, 10753, 11777, 12289], 11953597553878529, [6233, 8322, 4392, 512]) := by decide +kernel

theorem test_crt_enc : (after (givenWide slots [(0, -5)]) 0x41000000).elems 0 = [12, 36] := by decide +kernel

theorem test_crt_dec : (after (given slots [] [(0, [15, 18])]) 0x42100000).wInt 1 = 100 := by decide +kernel

theorem test_crt_primes : (after slots 0x43100000).elems 1 = [17, 41] := by decide +kernel

theorem test_crt_mod : (after slots 0x44200000).wInt 2 = 697 := by decide +kernel

theorem test_gal_init : (after (given State.reset [(1, 8)] []) 0x50010000).gal = some ⟨8⟩ := by
  decide +kernel

theorem test_gal_elt_most_negative : (after (slots.writeX 2 0x8000000000000000) 0x51320000).xInt 3 = 1 := by
  decide +kernel

theorem test_gal_elts :
    (after (given slots [] [(0, [0, 1, -3, 2, -2, 3, -1])]) 0x52100000).elems 1 =
      [15, 3, 3, 9, 9, 11, 11] := by decide +kernel

theorem test_gal_idx : (after (given slots [(3, 11)] []) 0x53430000).xInt 4 = 5 := by decide +kernel

theorem test_gal_idx_out_of_range :
    record (after (given slots [(3, -1)] []) 0x53430000) = (.faulted, 9, -1, 0) := by decide +kernel

theorem test_gal_all : (after slots 0x54000000).elems 0 = [15, 3, 11, 9, 9] := by decide +kernel

theorem test_poly_add :
    (after (given slots [(3, 7)] [(0, [0, 1, 4, 5]), (1, [1, 2, 4, 3])]) 0x60201300).elems 2 =
      [1, 3, 1, 1] := by decide +kernel

theorem test_poly_sub :
    (after (given slots [(3, 73)] [(0, [0, 1, 4, 5]), (1, [1, 2, 4, 3])]) 0x61201300).elems 2 =
      [72, 72, 0, 2] := by decide +kernel

theorem test_poly_mul :
    (after (given slots [(3, 73)] [(0, [0, 1, 4, 5]), (1, [1, 2, 4, 3])]) 0x62201300).elems 2 =
      [44, 42, 64, 17] := by decide +kernel

theorem test_poly_length :
    record (after (given slots [(3, 0)] [(0, [0, 1, 4, 5]), (1, [1, 2])]) 0x62201300) = (.faulted, 8, 2, 0) := by
  decide +kernel

theorem test_poly_muln :
    (after (given slots [] [(0, [0, 1, 4, 5]), (1, [1, 2, 4, 3])]) 0x63201000).elems 2 =
      [44, 42, 64, 17] := by decide +kernel

theorem test_poly_mulc :
    (after (given slots [] [(0, [0, 1, 4, 5]), (1, [1, 2, 4, 3])]) 0x64201000).elems 2 =
      [668, 666, 688, 17] := by decide +kernel

theorem test_poly_eq : (after (given slots [] [(2, [-1]), (3, [72])]) 0x65523000).x[5] = 0 := by
  decide +kernel

/-- A draw of the rule's own example, and no draw outside its set (rule R321). -/
theorem test_rnd_hwt :
    drawTernary (fun k => [1, 0, 0, 2, 0, 0, 1, 0].getD k 0) 8 3 = [0, 1, 0, 0, -1, 0, 0, 1] ∧
    (after (given slots [(1, 4), (2, 0)] []) 0x70012000).elems 0 = [0, 0, 0, 0] := by decide +kernel

theorem test_rnd_hwt_weight :
    record (after (given slots [(1, 4), (2, 5)] []) 0x70012000) = (.faulted, 12, 0, 0) := by decide +kernel

theorem test_rnd_tri : (after (given slots [(3, 4)] []) 0x71130000).v[1].size = 4 := by decide +kernel

theorem test_rnd_tri_negative : record (after (given slots [(3, -2)] []) 0x71130000) = (.faulted, 12, 0, 0) := by
  decide +kernel

theorem test_rnd_uni :
    drawRange (fun k => 10 * k + 3) 7 8 3 = [7, 7, 7] ∧
    (after (given slots [(4, 0), (5, 3), (6, 5)] []) 0x72245600).v[2].size = 5 := by decide +kernel

theorem test_rnd_uni_empty_range :
    record (after (given slots [(4, 3), (5, 3), (6, 5)] []) 0x72245600) = (.faulted, 12, 0, 0) := by
  decide +kernel

theorem test_vsize : (after (given slots [] [(0, [5, 6])]) 0x80100000).xInt 1 = 2 := by decide +kernel

theorem test_vcap : (after (slots.writeV 0 ⟨[5], 9⟩) 0x81100000).xInt 1 = 9 := by decide +kernel

theorem test_vempty : (after (slots.writeV 0 ⟨[], 100⟩) 0x82100000).xInt 1 = 1 := by decide +kernel

theorem test_vresize_grow :
    (after (given (slots.writeV 0 ⟨[1, 2], 4⟩) [(1, 6)] []) 0x83010000).v[0] = ⟨[1, 2, 0, 0, 0, 0], 6⟩ := by
  decide +kernel

theorem test_vresize_shrink :
    (after (given slots [(1, 2)] [(0, [1, 2, 3, 4])]) 0x83010000).v[0] = ⟨[1, 2], 4⟩ := by decide +kernel

theorem test_vreserve :
    (after (given (slots.writeV 0 ⟨[1, 2], 4⟩) [(1, 10)] []) 0x84010000).v[0] = ⟨[1, 2], 10⟩ := by
  decide +kernel

theorem test_vshrink : (after (slots.writeV 0 ⟨[1, 2], 10⟩) 0x85000000).v[0] = ⟨[1, 2], 2⟩ := by
  decide +kernel

theorem test_vat : (after (given slots [(2, 3)] [(0, [13, 0, 0, 7])]) 0x86202000).xInt 2 = 7 := by
  decide +kernel

theorem test_vat_out_of_range :
    record (after (given (slots.writeV 0 ⟨[13], 4⟩) [(2, 1)] []) 0x86302000) = (.faulted, 9, 1, 0) := by
  decide +kernel

theorem test_vset : (after (given slots [(2, 2), (4, 2)] [(0, [0, 0, 0, 0])]) 0x87024000).elems 0 = [0, 0, 2, 0] := by
  decide +kernel

/-! ### The host port (spec/95 §2.10) -/

/-- The state after the step that takes up one host action. -/
def afterAction (s : State) (a : HostAction) : State :=
  match step { s with host := [a] } with
  | .next t => t
  | _ => s

theorem test_read_limbs :
    (afterAction (givenWide slots [(2, -5)]) (.read 0x10000200)).answer = .data 0xFFFFFFFFFFFFFFFB := by
  decide +kernel

theorem test_read_element_beyond_size :
    (afterAction (given slots [] [(1, [7676, 10748, 11772, 12284])]) (.read 0x21000002)).answer = .data 11772 ∧
    (afterAction (given slots [] [(1, [7676, 10748, 11772, 12284])]) (.read 0x21000004)).herr = true := by
  decide +kernel

theorem test_write_register :
    (afterAction slots (.write 0x00000003 42)).xInt 3 = 42 ∧
    afterAction slots (.write 0x00000017 42) = { slots with answer := .done } := by decide +kernel

theorem test_acknowledge :
    record (afterAction (after (given slots [(8, 4)] []) 0x53980000) (.write 0x00000011 0)) =
      (.idle, 0, 0, 0) := by decide +kernel

/-- The search gives up at 2^63 with the number of primes found: none in the last 24 odd numbers (rules R241,
R380). -/
theorem test_search_gives_up :
    searchPrimes 1 1 (2 ^ 63) (2 ^ 62 - 12) [] = .error ⟨.noPrimeFound, 0⟩ := by decide +kernel

/-! ### A build with other parameters (rule R6) -/

/-- The smallest build: two limbs, dimensions up to 2, buffers of four elements. -/
def small : Build := { wideW := 128, nMax := 2, vcapMax := 4, nPrimeMax := 16, legal := by decide }

/-- The slot `(5, 0, 1)`: more primes than a buffer of the smallest build holds. -/
def crt15015 : CrtCtx :=
  { numPrimes := 5, primeSize := 0, degree := 1, limbs := 1, primes := [3, 5, 7, 11, 13],
    miInv := [1, 2, 5, 1, 6], bigM := 15015, mi := [5005, 3003, 2145, 1365, 1155] }

theorem test_small_hwcfg :
    (afterAction (State.resetOf small) (.read 0x16)).answer = .data 0x0000000400801001 := by decide +kernel

theorem test_small_limbs :
    (afterAction (after ((State.resetOf small).writeX 6 0x8000000000000000) 0x05260000) (.read 0x10000201)).answer =
      .data 0xFFFFFFFFFFFFFFFF ∧
    (afterAction (State.resetOf small) (.read 0x10000202)).herr = true := by decide +kernel

theorem test_small_bounds :
    record (after (given (State.resetOf small) [(1, 5)] []) 0x83010000) = (.faulted, 10, 5, 0) ∧
    record (after (given (State.resetOf small) [(1, 4)] []) 0x50010000) = (.faulted, 3, 0, 0) := by decide +kernel

/-- Sixteen primes above 2^8 have a product above 2^127 (rules R242, R384). -/
theorem test_small_wide_overflow :
    record (after (given (State.resetOf small) [(1, 16), (2, 8), (3, 1)] []) 0x40012300) = (.faulted, 11, 0, 0) := by
  decide +kernel

theorem test_small_crt :
    (after (given (State.resetOf small) [(1, 5), (2, 0), (3, 1)] []) 0x40012300).crt = some crt15015 ∧
    record (after { State.resetOf small with crt := some crt15015 } 0x43100000) = (.faulted, 10, 5, 0) := by
  decide +kernel

theorem test_small_reset :
    afterAction ((State.resetOf small).writeX 1 7) .rst = State.resetOf small := by decide +kernel

/-! ### A witness for every statement with hypotheses -/

theorem zp19_valid : zp19.Valid := ⟨19, by decide, by decide, (by norm_num : Nat.Prime 19), by decide +kernel⟩

/-- The smallest prime, at which `ZP.ROOT` and `ZP.GEN` fail. -/
def zp2 : ZpCtx := ⟨2, 2⟩

theorem zp2_valid : zp2.Valid := ⟨2, by decide, by decide, Nat.prime_two, by decide +kernel⟩

theorem ntt73_valid : ntt73.Valid Build.default :=
  ⟨4, 73, ⟨2, rfl⟩, by decide, by decide, (by norm_num : Nat.Prime 73), by decide, by decide +kernel⟩

/-- The slot `(1, 3)`: the smallest dimension. -/
def ntt3 : NttCtx := { n := 1, p := 3, psi := 2, psiinv := 2, ninv := 1, rou := [1], rouinv := [1] }

theorem ntt3_valid : ntt3.Valid Build.default :=
  ⟨1, 3, ⟨0, rfl⟩, by decide, by decide, Nat.prime_three, by decide, by decide +kernel⟩

theorem crt697_valid : crt697.Valid Build.default :=
  ⟨2, 4, 4, by decide, by decide, by decide, by decide, ⟨2, rfl⟩, by decide, by decide +kernel⟩

theorem gal8_valid : GalCtx.Valid ⟨8⟩ Build.default := ⟨8, by decide, ⟨3, rfl⟩, by decide, by decide⟩

theorem gal2_valid : GalCtx.Valid ⟨2⟩ Build.default := ⟨2, by decide, ⟨1, rfl⟩, by decide, by decide⟩

theorem slots_inv : slots.Inv where
  wide := by intro r; simp [IsPattern, slots, State.reset, State.resetOf]
  memory := by decide
  faultRecord := by simp [State.FaultRecordOk, slots, State.reset, State.resetOf]
  notBusy := by decide
  zp := by rintro c ⟨⟩; exact zp19_valid
  ntt := by rintro c ⟨⟩; exact ntt73_valid
  crt := by rintro c ⟨⟩; exact crt697_valid
  gal := by rintro c ⟨⟩; exact gal8_valid

theorem witness_EncodeOfDecodedWord : decode 0x62201300 = .ok (.polyMul 2 0 1 3) := by decide

theorem witness_OpcodeTableDecoding :
    (⟨"POLY.MUL", 0x62000000, 0xFF8880FF⟩ : TableRow) ∈ opcodeTable ∧
    TableRow.covers ⟨"POLY.MUL", 0x62000000, 0xFF8880FF⟩ 0x62201300 = true := by decide

theorem witness_StepRunsDecodedCommand :
    (slots.present 0x0120FFFF).run = .idle ∧ (slots.present 0x0120FFFF).host = .command 0x0120FFFF :: [] ∧
    decode 0x0120FFFF = .ok (.li 2 0xFFFF) := by decide +kernel

theorem witness_StepRejectsWordsOutsideTheTable :
    (slots.present 0x05400000).run = .idle ∧ (slots.present 0x05400000).host = .command 0x05400000 :: [] ∧
    ∀ row ∈ opcodeTable, row.covers 0x05400000 = false := by decide +kernel

/-- A faulted state with the given actions pending. -/
def faulted (l : List HostAction) : State := { slots with run := .faulted, fcause := 1, fcmd := 1, host := l }

theorem witness_FaultedCoreHoldsCommands :
    (faulted [.command 0, .read 0x11]).run = .faulted ∧
    (step (faulted [.command 0, .read 0x11]) =
      .next { faulted [.command 0] with answer := .data 1 }) ∧
    (∀ a ∈ (faulted [.command 0, .command 1]).host, a.isCommand = true) ∧
    (faulted [.command 0, .read 0x11]).host = [.command 0] ++ .read 0x11 :: [] ∧
    (faulted [.command 0, .write 0x11 0]).host = [.command 0] ++ .write 0x11 0 :: [] ∧
    ∀ c ∈ [HostAction.command 0], c.isCommand = true := by
  refine ⟨rfl, ?_, by decide, rfl, rfl, by decide⟩
  rfl

theorem witness_AcknowledgeReturnsFromFault :
    (faulted [.write 0x11 5]).host = .write 0x11 5 :: [] ∧ (faulted [.write 0x11 5]).run = .faulted ∧
    ({ slots with host := [.write 0x11 5] } : State).run = .idle := by decide

theorem witness_ResetSignalRestoresResetState :
    ({ slots with run := .busy, host := [.rst] } : State).host = .rst :: [] := by decide

theorem witness_ResetStateValues :
    (0x0000000F : BitVec 32) ≠ 0x16 ∧ (0x0000000F : BitVec 32) ≠ 0x17 ∧
    readWord State.reset 0x0000000F = some 0 := by decide +kernel

theorem witness_RegisterMapReads :
    slots.Inv ∧ slots.ntt = some ntt73 ∧ slots.crt = some crt697 ∧ crt697.mi[1]? = some 17 ∧
    State.reset.crt = none ∧ State.reset.Inv ∧ 15 < slots.build.wideLimbs ∧ 0xFFFFFF < 0x01000000 :=
  ⟨slots_inv, rfl, rfl, rfl, rfl,
    ⟨by intro r; simp [IsPattern, State.reset, State.resetOf], by decide,
      by simp [State.FaultRecordOk, State.reset, State.resetOf], by decide, by rintro c ⟨⟩, by rintro c ⟨⟩,
      by rintro c ⟨⟩, by rintro c ⟨⟩⟩, by decide, by decide⟩

/-- One element in `v7`, whose register number is the last of the data memory. -/
def oneElement : State := given slots [] [(7, [-1])]

theorem witness_HostReadsAndRefusedAccesses :
    oneElement.run ≠ .busy ∧ ({ oneElement with host := [.read 0x27000000] } : State).host = [.read 0x27000000] ∧
    readWord oneElement 0x27000000 = some 0xFFFFFFFFFFFFFFFF ∧ readWord oneElement 0x27000001 = none ∧
    oneElement.v[7].size ≤ 1 := by decide +kernel

theorem witness_HostWrites :
    oneElement.v.wf oneElement.build ∧ oneElement.run ≠ .busy ∧
    ({ oneElement with host := [.write 0x27000000 1] } : State).host = [.write 0x27000000 1] ∧
    oneElement.Writable (0x27000000 : BitVec 32).toNat ∧ oneElement.Writable (0x1000030F : BitVec 32).toNat ∧
    oneElement.Writable (0x0000000F : BitVec 32).toNat ∧
    (readWord oneElement 0x00000010).isSome = true ∧ (0x00000010 : BitVec 32) ≠ 0x11 ∧
    ¬ oneElement.Writable (0x00000010 : BitVec 32).toNat := by
  refine ⟨by decide, by decide, rfl, .inr (.inr ⟨7, 0, by decide, by decide⟩),
    .inr (.inl ⟨3, 15, by decide, by decide, by decide⟩), .inl (by decide), by decide +kernel, by decide, ?_⟩
  rintro (h | ⟨j, l, -, -, h⟩ | ⟨i, k, -, h⟩)
  · exact absurd h (by decide)
  · have : (0x00000010 : BitVec 32).toNat = 16 := rfl
    omega
  · have : (0x00000010 : BitVec 32).toNat = 16 := rfl
    omega

theorem witness_StepKeepsInvariant : ∃ t, slots.Inv ∧ step (slots.present 0x21423000) = .next t ∧
    (slots.present 0x21423000).Inv :=
  ⟨_, slots_inv, rfl, ⟨slots_inv.wide, slots_inv.memory, by simp [State.FaultRecordOk, State.present], by decide,
    slots_inv.zp, slots_inv.ntt, slots_inv.crt, slots_inv.gal⟩⟩

theorem witness_FaultCodes : slots.Inv ∧ slots.fcause = 0 := ⟨slots_inv, rfl⟩

theorem witness_RaisedCausesOfEachCommand :
    slots.Inv ∧ exec (.vat 0 0 0) slots = .next (slots.rejected (.vat 0 0 0) .indexOutOfRange 0) ∧
    Instr.causes .nop = [] := ⟨slots_inv, by rfl, rfl⟩

/-- One rejection for each cause of the statement that a run can show; no parameters of `CRT.INIT` at the
default sizes are known to run out of primes (see `test_search_gives_up` for the search itself). -/
theorem witness_FaultInformationWords :
    slots.Inv ∧
    exec (.galInit 0) slots = .next (slots.rejected (.galInit 0) .badParameter 0) ∧
    exec (.nttFwd 0) slots = .next (slots.rejected (.nttFwd 0) .lengthMismatch 0) ∧
    exec (.vset 0 0 0) slots = .next (slots.rejected (.vset 0 0 0) .indexOutOfRange 0) ∧
    exec (.zpInit 1) (slots.writeX 1 4) =
      .next ((slots.writeX 1 4).rejected (.zpInit 1) .modulusNotPrime 0) ∧
    exec (.vresize 0 1) (slots.writeX 1 65537) =
      .next ((slots.writeX 1 65537).rejected (.vresize 0 1) .capacityExceeded 65537) ∧
    exec (.zpAdd 0 0 0) { slots with zp := none } =
      .next (({ slots with zp := none } : State).rejected (.zpAdd 0 0 0) .noContext 0) :=
  ⟨slots_inv, by rfl, by rfl, by rfl, by rfl, by rfl, by rfl⟩

theorem witness_OnlyDestinationsChange :
    exec (.mov 5 2) slots = .next { slots.writeX 5 0 with cseq := 1 } ∧
    Instr.xDest (.mov 5 2) ≠ some 15 ∧ Instr.wDest (.mov 5 2) ≠ some 3 ∧ Instr.vDest (.mov 5 2) ≠ some 7 ∧
    Instr.initSlot (.mov 5 2) ≠ some 0 ∧ Instr.initSlot (.mov 5 2) ≠ some 1 ∧
    Instr.initSlot (.mov 5 2) ≠ some 2 ∧ Instr.initSlot (.mov 5 2) ≠ some 3 := by
  refine ⟨by rfl, ?_⟩
  decide

theorem witness_DataMemoryFrame :
    (∃ t, exec (.vset 7 0 1) oneElement = .next t) ∧ (∃ t, exec (.vresize 7 0) oneElement = .next t) ∧
    (∃ t, exec (.vshrink 7) oneElement = .next t) ∧ (∃ t, exec (.vreserve 7 0) oneElement = .next t) ∧
    0xFFFFFF < 0x01000000 ∧ Instr.vDest (.vset 7 0 1) ≠ some 6 ∧
    ¬ ((7 : VReg) = 7 ∧ ((1 : Nat) : Int) = oneElement.xInt 0) ∧ 0 < oneElement.v[7].size ∧
    ((6 : VReg) = 7 → ((0 : Nat) : Int) < oneElement.xInt 0) :=
  ⟨⟨_, rfl⟩, ⟨_, rfl⟩, ⟨_, rfl⟩, ⟨_, rfl⟩, by decide, by decide, by decide +kernel, by decide, by decide⟩

/-- A program of three commands whose second one faults: the third stays pending (rule R375). -/
theorem test_program_stops_at_fault :
    ∃ t, core.run 3 { slots with host := [.command 0, .command 0x86302000, .command 0x0120FFFF] } = .next t ∧
      t.run = .faulted ∧ t.cseq = 1 ∧ t.host = [.command 0x0120FFFF] := ⟨_, rfl, by decide +kernel⟩

theorem witness_ProgramStatements :
    slots.run = .idle ∧ (slots.present 0x03520000).host = [.mov 5 2].map (fun i => .command (encode i)) := by
  decide +kernel

theorem witness_WideAndBufferMoves :
    slots.v.wf slots.build ∧ -2 ^ 63 ≤ (givenWide slots [(1, -2 ^ 63)]).wInt 1 ∧
    (givenWide slots [(1, 2 ^ 63 - 1)]).wInt 1 < 2 ^ 63 ∧
    ¬ (-2 ^ 63 ≤ (givenWide slots [(1, 2 ^ 63)]).wInt 1 ∧ (givenWide slots [(1, 2 ^ 63)]).wInt 1 < 2 ^ 63) := by
  decide +kernel

theorem witness_ModularInverse :
    (givenWide slots [(1, 0)]).wInt 1 < 1 ∧
    Int.gcd ((givenWide slots [(0, 6), (1, 9)]).wInt 0 % (givenWide slots [(0, 6), (1, 9)]).wInt 1) 9 ≠ 1 ∧
    1 ≤ (givenWide slots [(0, 5), (1, 1)]).wInt 1 ∧
    Int.gcd ((givenWide slots [(0, 5), (1, 1)]).wInt 0 % (givenWide slots [(0, 5), (1, 1)]).wInt 1) 1 = 1 := by
  decide +kernel

theorem witness_ModularPower :
    (givenWide slots [(2, 0)]).wInt 2 < 1 ∧ (givenWide slots [(1, -1), (2, 1)]).wInt 1 < 0 ∧
    1 ≤ (givenWide slots [(1, 0), (2, 1)]).wInt 2 ∧ 0 ≤ (givenWide slots [(1, 0), (2, 1)]).wInt 1 := by
  decide +kernel

theorem witness_PrimalityAnswer :
    (2 ≤ (givenWide slots [(0, 2)]).wInt 0 ∧
      ∀ d : Int, 1 < d → d < (givenWide slots [(0, 2)]).wInt 0 → ¬ d ∣ (givenWide slots [(0, 2)]).wInt 0) ∧
    ¬ 2 ≤ (givenWide slots [(0, 1)]).wInt 0 := by
  have h : (givenWide slots [(0, 2)]).wInt 0 = 2 := by decide +kernel
  rw [h]
  exact ⟨⟨by decide, fun d h1 h2 => by omega⟩, by decide +kernel⟩

theorem witness_GeneratorsAndRoots :
    (givenWide slots [(0, 2)]).wInt 0 = 2 ∧ ¬ (1 : Int).toNat.Prime ∧ (givenWide slots [(0, 1)]).wInt 0 = 1 ∧
    (3 : Int).toNat.Prime ∧ (givenWide slots [(0, 2), (1, 3)]).wInt 1 = 3 ∧
    (givenWide slots [(0, 2), (1, 3)]).wInt 0 ∣ 3 - 1 ∧ (givenWide slots [(0, 0), (1, 3)]).wInt 0 < 1 := by
  refine ⟨by decide +kernel, Nat.not_prime_one, by decide +kernel, Nat.prime_three, ?_⟩
  decide +kernel

theorem witness_ZpInitBuildsSlot :
    (given slots [(1, 1)] []).xInt 1 < 2 ∧ ¬ (4 : Int).toNat.Prime ∧ (given slots [(1, 4)] []).xInt 1 = 4 ∧
    (2 : Int).toNat.Prime ∧ (given slots [(1, 2)] []).xInt 1 = 2 := by
  refine ⟨by decide +kernel, (by norm_num : ¬ Nat.Prime 4), by decide +kernel, Nat.prime_two,
    by decide +kernel⟩

theorem witness_ZpStatements :
    State.reset.zp = none ∧ slots.zp = some zp19 ∧ zp19.Valid ∧
    ({ slots with zp := some zp2 } : State).zp = some zp2 ∧ zp2.Valid ∧ sint zp2.p = 2 ∧
    (given slots [(3, -1)] []).xInt 3 < 0 ∧ 0 ≤ slots.xInt 3 ∧ sint zp19.p ∣ (given slots [(2, -19)] []).xInt 2 ∧
    ¬ sint zp19.p ∣ (given slots [(2, 18)] []).xInt 2 ∧ slots.xInt 4 < 1 ∧
    ¬ (given slots [(4, 4)] []).xInt 4 ∣ sint zp19.p - 1 ∧ sint zp19.p ≠ 2 ∧
    1 ≤ (given slots [(4, 18)] []).xInt 4 ∧ (given slots [(4, 18)] []).xInt 4 ∣ sint zp19.p - 1 :=
  ⟨rfl, rfl, zp19_valid, rfl, zp2_valid, by decide +kernel⟩

theorem witness_ZpFieldLaws :
    (given slots [(1, -2), (2, 18)] []).run = .idle ∧ (given slots [(1, -2), (2, 18)] []).zp = some zp19 ∧
    zp19.Valid ∧ (given slots [(1, -2), (2, 18)] []).xInt 1 % sint zp19.p ≠ 0 ∧
    (given slots [(1, -2), (2, 18)] []).xInt 2 = sint zp19.p - 1 ∧
    sint 17 % sint zp19.p = (given slots [(1, -2), (2, 18)] []).xInt 1 % sint zp19.p ∧
    sint (-1) % sint zp19.p = (given slots [(1, -2), (2, 18)] []).xInt 2 % sint zp19.p :=
  ⟨rfl, rfl, zp19_valid, by decide +kernel⟩

theorem witness_NttInitBuildsSlot :
    PowerOfTwo ((given slots [(1, 4096), (2, 73)] []).xInt 1) ∧
    (given slots [(1, 4096), (2, 1)] []).xInt 1 ≤ 4096 ∧ (given slots [(1, 4096), (2, 1)] []).xInt 2 < 2 ∧
    ¬ (4 : Int).toNat.Prime ∧ (given slots [(1, 1), (2, 4)] []).xInt 2 = 4 ∧
    (73 : Int).toNat.Prime ∧ (given slots [(1, 4), (2, 73)] []).xInt 2 = 73 ∧
    2 * (given slots [(1, 4), (2, 73)] []).xInt 1 ∣ 73 - 1 ∧
    ¬ 2 * (given slots [(1, 4096), (2, 73)] []).xInt 1 ∣ 73 - 1 ∧
    ¬ (given slots [(1, 8192), (2, 73)] []).xInt 1 ≤ 4096 := by
  refine ⟨⟨12, by decide +kernel⟩, by decide +kernel, by decide +kernel, (by norm_num : ¬ Nat.Prime 4),
    by decide +kernel, (by norm_num : Nat.Prime 73), ?_⟩
  decide +kernel

theorem witness_NttStatements :
    State.reset.ntt = none ∧ slots.ntt = some ntt73 ∧ ntt73.Valid slots.build ∧ slots.run = .idle ∧
    ({ slots with ntt := some ntt3 } : State).ntt = some ntt3 ∧ ntt3.Valid slots.build ∧
    slots.v[0].size ≠ ntt73.n.toNat ∧ (given slots [] [(0, [0, 1, 4, 5])]).v[0].size = ntt73.n.toNat ∧
    (given slots [] [(0, [0, 1, 4, 5]), (1, [1, 2, 4, 3])]).v[1].size = ntt73.n.toNat ∧
    (given slots [] [(0, [0, 1, 4, 5])]).v[1].size ≠ ntt73.n.toNat ∧ (0 : VReg) ≠ 1 ∧
    (given slots [] [(0, [-1])]).v[0].size = ntt3.n.toNat :=
  ⟨rfl, rfl, ntt73_valid, rfl, rfl, ntt3_valid, by decide +kernel⟩

theorem witness_CrtInitBuildsSlot :
    ¬ (1 ≤ slots.xInt 1 ∧ slots.xInt 1 ≤ 16) ∧ ¬ (0 ≤ (slots.writeX 2 63).xInt 2 ∧ (slots.writeX 2 63).xInt 2 ≤ 62) ∧
    ¬ PowerOfTwo 0 ∧ slots.xInt 3 = 0 ∧ PowerOfTwo 4 ∧ [17, 41].Pairwise ((· < ·) : Int → Int → Prop) ∧
    (∀ q ∈ [17, 41], CrtPrime 4 4 q) ∧
    (([17, 41] : List Int).length : Int) = (given slots [(1, 2), (2, 4), (3, 4)] []).xInt 1 ∧
    ∀ q, CrtPrime 4 4 q → q ∈ [17, 41] ∨ ∀ r ∈ ([17, 41] : List Int), r < q := by
  refine ⟨by decide +kernel, by decide +kernel, ?_, by decide +kernel, ⟨2, rfl⟩, by decide, ?_, by decide +kernel, ?_⟩
  · rintro ⟨k, hk⟩
    have : (0 : Int) < 2 ^ k := by positivity
    omega
  · intro q hq
    rcases List.mem_cons.1 hq with rfl | hq
    · exact ⟨(by norm_num : Nat.Prime 17), by decide, by decide, by decide⟩
    · obtain rfl := List.mem_singleton.1 hq
      exact ⟨(by norm_num : Nat.Prime 41), by decide, by decide, by decide⟩
  · rintro q ⟨hp, h1, -, h2⟩
    by_cases hq : q ≤ 41
    · have h16 : (2 : Int) ^ (4 : Int).toNat = 16 := rfl
      rw [h16] at h1
      have : q = 17 ∨ q = 25 ∨ q = 33 ∨ q = 41 := by omega
      rcases this with rfl | rfl | rfl | rfl
      · simp
      · exact absurd hp (by norm_num : ¬ Nat.Prime 25)
      · exact absurd hp (by norm_num : ¬ Nat.Prime 33)
      · simp
    · refine .inr fun r hr => ?_
      rcases List.mem_cons.1 hr with rfl | hr
      · omega
      · obtain rfl := List.mem_singleton.1 hr
        omega

/-- The sixteen primes of `test_small_wide_overflow` (rule R241). -/
def primesAbove256 : List Nat :=
  [257, 263, 269, 271, 277, 281, 283, 293, 307, 311, 313, 317, 331, 337, 347, 349]

/-- A prime list whose product does not fit the wide registers of the smallest build. -/
theorem witness_CrtInitOverflows :
    ∃ found : List Int, found.Pairwise (· < ·) ∧ (∀ q ∈ found, CrtPrime 8 1 q) ∧ (found.length : Int) = 16 ∧
      (∀ q, CrtPrime 8 1 q → q ∈ found ∨ ∀ r ∈ found, r < q) ∧ ¬ found.prod < 2 ^ (small.wideW - 1) := by
  have hg : generatePrimes 16 8 1 = .ok primesAbove256 := by decide +kernel
  rcases generatePrimes_spec 16 8 1 le_rfl with ⟨l, h1, h2, h3, h4, h5⟩ | ⟨l, h1, -⟩
  · rw [hg] at h1
    obtain rfl := Except.ok.inj h1
    have h8 : (2 : Int) ^ (8 : Int).toNat = 256 := by decide
    refine ⟨primesAbove256.map (fun q : Nat => (q : Int)), ?_, ?_, by rw [List.length_map, h2]; rfl, ?_, by decide +kernel⟩
    · exact h3.map _ fun a b h => by exact_mod_cast h
    · intro q hq
      obtain ⟨a, ha, rfl⟩ := List.mem_map.1 hq
      obtain ⟨h6, h7, h9, h10⟩ := h4 a ha
      exact ⟨by rwa [Int.toNat_natCast], by rw [h8]; omega, by omega, by omega⟩
    · rintro q ⟨hp, h6, h7, h9⟩
      rw [h8] at h6
      rcases h5 q.toNat (by omega) ⟨hp, by omega, by omega⟩ with h | h
      · exact .inl (List.mem_map.2 ⟨q.toNat, h, by omega⟩)
      · refine .inr fun r hr => ?_
        obtain ⟨a, ha, rfl⟩ := List.mem_map.1 hr
        have := h a ha
        omega
  · rw [hg] at h1
    cases h1

/-- The buffers of the smallest build do not hold five primes, those of the default build hold two, and two primes
fit its wide registers. -/
theorem witness_CrtSmallBuild :
    crt15015.Valid small ∧ small.vcapMax < crt15015.numPrimes.toNat ∧
    crt697.numPrimes.toNat ≤ slots.build.vcapMax ∧ [17, 41].prod < 2 ^ (slots.build.wideW - 1) :=
  ⟨⟨5, 0, 1, by decide, by decide, by decide, by decide, ⟨0, rfl⟩, by decide, by decide +kernel⟩,
    by decide, by decide, lt_of_lt_of_le (by decide : [17, 41].prod < 2 ^ 10)
      (Nat.pow_le_pow_right (by decide) (by decide))⟩

theorem witness_CrtStatements :
    State.reset.crt = none ∧ slots.crt = some crt697 ∧ crt697.Valid slots.build ∧ slots.run = .idle ∧
    slots.v[0].size ≠ crt697.numPrimes.toNat ∧ (given slots [] [(0, [-1, 50])]).v[0].size = crt697.numPrimes.toNat ∧
    slots.v[0].size ≠ crt697.degree.toNat ∧
    (given slots [] [(0, [0, 1, 4, 5]), (1, [1, 2, 4, 3])]).v[0].size = crt697.degree.toNat ∧
    (given slots [] [(0, [0, 1, 4, 5]), (1, [1, 2, 4, 3])]).v[1].size = crt697.degree.toNat ∧
    (given slots [] [(0, [0, 1, 4, 5])]).v[1].size ≠ crt697.degree.toNat :=
  ⟨rfl, rfl, crt697_valid, rfl, by decide +kernel⟩

theorem witness_GaloisStatements :
    State.reset.gal = none ∧ slots.gal = some ⟨8⟩ ∧ GalCtx.Valid ⟨8⟩ slots.build ∧ GalCtx.Valid ⟨2⟩ slots.build ∧ slots.v.wf slots.build ∧
    slots.run = .idle ∧ PowerOfTwo 2 ∧ (given slots [(1, 2)] []).xInt 1 = 2 ∧ ¬ 2 ≤ (given slots [(1, 1)] []).xInt 1 ∧
    (given slots [(3, 15)] []).xInt 3 < 2 * 8 ∧ (given slots [(3, 15)] []).xInt 3 % 2 = 1 ∧
    ¬ (given slots [(3, 17)] []).xInt 3 < 2 * 8 :=
  ⟨rfl, rfl, gal8_valid, gal2_valid, by decide, rfl, ⟨1, rfl⟩, by decide +kernel⟩

theorem witness_GaloisLaws :
    (given slots [(1, 1), (2, -3), (3, -2)] []).xInt 1 ≠ 0 ∧
    (given slots [(1, 1), (2, -3), (3, -2)] []).xInt 2 ≠ 0 ∧
    (given slots [(1, 1), (2, -3), (3, -2)] []).xInt 3 ≠ 0 ∧
    (given slots [(1, 1), (2, -3), (3, -2)] []).xInt 2 =
      (given slots [(1, 1), (2, -3), (3, -2)] []).xInt 1 + -1 * (sint 8 / 2) ∧
    (given slots [(1, 1), (2, -3), (3, -2)] []).xInt 3 =
      (given slots [(1, 1), (2, -3), (3, -2)] []).xInt 1 +
        (given slots [(1, 1), (2, -3), (3, -2)] []).xInt 2 := by decide +kernel

theorem witness_PolyStatements :
    slots.v.wf slots.build ∧ (given slots [] [(0, [1])]).v[0].size ≠ (given slots [] [(0, [1])]).v[1].size ∧
    slots.v[0].size = slots.v[1].size ∧ slots.xInt 3 < 1 ∧ 1 ≤ (slots.writeX 3 1).xInt 3 ∧
    (∀ k < (given slots [] [(0, [1]), (1, [1])]).v[0].size,
      (given slots [] [(0, [1]), (1, [1])]).v[0].elems[k]? = (given slots [] [(0, [1]), (1, [1])]).v[1].elems[k]?) ∧
    (given slots [] [(0, [1]), (1, [1])]).v[0].size = (given slots [] [(0, [1]), (1, [1])]).v[1].size := by
  decide +kernel

theorem witness_SamplesLieInTheRulesSet :
    (given slots [(1, -1)] []).xInt 1 < 0 ∧ (given slots [(2, 1)] []).xInt 1 < (given slots [(2, 1)] []).xInt 2 ∧
    65536 < (given slots [(1, 65537)] []).xInt 1 ∧ (given slots [(1, 65536)] []).xInt 1 ≤ 65536 ∧
    0 ≤ (given slots [(1, 8), (2, 3)] []).xInt 2 ∧
    (given slots [(1, 8), (2, 3)] []).xInt 2 ≤ (given slots [(1, 8), (2, 3)] []).xInt 1 ∧
    slots.xInt 5 ≤ slots.xInt 4 ∧ (given slots [(5, 1)] []).xInt 4 < (given slots [(5, 1)] []).xInt 5 ∧
    0 ≤ slots.xInt 6 ∧ slots.xInt 6 ≤ 65536 := by decide +kernel

theorem witness_EveryMemberOfTheSetCanBeDrawn :
    ([1, 0, -1] : List Int).length = 3 ∧ (∀ z ∈ ([1, 0, -1] : List Int), z = -1 ∨ z = 0 ∨ z = 1) ∧
    ([1, 0, -1] : List Int).countP (· ≠ 0) = 2 ∧
    (∀ z ∈ ([2, -2] : List Int), -((2 : Nat) : Int) ≤ z ∧ z ≤ (2 : Nat)) ∧
    ∀ z ∈ ([0, 2] : List Int), 0 ≤ z ∧ z < 3 := by decide

theorem witness_BufferResizing :
    (given slots [(1, -1)] []).xInt 1 < 0 ∧ 65536 < (given slots [(1, 65537)] []).xInt 1 ∧
    0 ≤ (given slots [(1, 65536)] []).xInt 1 ∧ (given slots [(1, 65536)] []).xInt 1 ≤ 65536 := by decide +kernel

theorem witness_ElementAccess :
    ¬ ((oneElement.writeX 1 1).xInt 1 < oneElement.v[7].size) ∧ 0 ≤ oneElement.xInt 1 ∧
    oneElement.xInt 1 < oneElement.v[7].size ∧ ¬ 0 ≤ (oneElement.writeX 1 (-1)).xInt 1 := by decide +kernel

theorem witness_BufferKeepsSetElement :
    (given oneElement [(3, 65536), (4, 65536)] []).run = .idle ∧
    (given oneElement [(3, 65536), (4, 65536)] []).v.wf slots.build ∧
    0 ≤ (given oneElement [(3, 65536), (4, 65536)] []).xInt 1 ∧
    (given oneElement [(3, 65536), (4, 65536)] []).xInt 1 < (given oneElement [(3, 65536), (4, 65536)] []).v[7].size ∧
    (given oneElement [(3, 65536), (4, 65536)] []).xInt 1 < (given oneElement [(3, 65536), (4, 65536)] []).xInt 3 ∧
    (given oneElement [(3, 65536), (4, 65536)] []).xInt 3 ≤ 65536 ∧
    0 ≤ (given oneElement [(3, 65536), (4, 65536)] []).xInt 4 ∧
    (given oneElement [(3, 65536), (4, 65536)] []).xInt 4 ≤ 65536 := by decide +kernel

end Sys2Proof.Tests
end

/-! The destinations of a command: what a retiring command may write, and that it writes nothing else. -/

namespace Sys2Proof.Machine

/-- What the writes of command `i` in state `s` may leave, before it retires: nothing written, or its destination
register, its destination buffer (a sampler counts its draw with it) or the slot it builds written. -/
inductive DestinationWrite (i : Instr) (s : State) : State → Prop
  | nothing : DestinationWrite i s s
  | scalar (r : XReg) (d : Word) (h : i.xDest = some r) : DestinationWrite i s (s.writeX r d)
  | wide (r : WReg) (d : Wide) (h : i.wDest = some r) : DestinationWrite i s (s.writeW r d)
  | buffer (r : VReg) (b : Buffer) (h : i.vDest = some r) : DestinationWrite i s (s.writeV r b)
  | draw (r : VReg) (b : Buffer) (n : Nat) (h : i.vDest = some r) :
      DestinationWrite i s { s.writeV r b with draws := n }
  | zp (c : ZpCtx) (h : i.initSlot = some 0) : DestinationWrite i s { s with zp := some c }
  | ntt (c : NttCtx) (h : i.initSlot = some 1) : DestinationWrite i s { s with ntt := some c }
  | crt (c : CrtCtx) (h : i.initSlot = some 2) : DestinationWrite i s { s with crt := some c }
  | gal (c : GalCtx) (h : i.initSlot = some 3) : DestinationWrite i s { s with gal := some c }

/-- Where a meaning of command `i` answers a state, only the destinations of `i` are written in it. -/
def WritesDestination (i : Instr) (s : State) (r : Except Exn State) : Prop :=
  ∀ u, r = .ok u → DestinationWrite i s u

namespace WritesDestination

variable {i : Instr} {s : State}

theorem ok {u : State} (h : DestinationWrite i s u) : WritesDestination i s (.ok u) := by
  intro v hv
  cases hv
  exact h

/-- The checks and computations in front of a write write nothing themselves. -/
theorem bind {α : Type} {m : Except Exn α} {f : α → Except Exn State}
    (h : ∀ a, WritesDestination i s (f a)) : WritesDestination i s (m >>= f) := by
  intro u hu
  obtain ⟨a, -, hfa⟩ := (bind_eq_ok m f u).mp hu
  exact h a u hfa

theorem vecAssign {r : VReg} {l : List Int} (h : i.vDest = some r) :
    WritesDestination i s (vecAssign s r l) := by
  intro u hu
  obtain ⟨-, rfl⟩ := (vecAssign_eq_ok s u r l).mp hu
  exact .buffer r _ h

theorem storeWide {r : WReg} {n : Int} (h : i.wDest = some r) :
    WritesDestination i s (storeWide s r n) := by
  intro u hu
  obtain ⟨-, rfl⟩ := (storeWide_eq_ok s u r n).mp hu
  exact .wide r _ h

theorem storeDraw {r : VReg} {l : List Int} (h : i.vDest = some r) :
    WritesDestination i s (storeDraw s r l) := by
  intro u hu
  obtain ⟨t, ht, htu⟩ := (bind_eq_ok _ _ u).mp hu
  obtain ⟨-, rfl⟩ := (vecAssign_eq_ok s t r l).mp ht
  cases htu
  exact .draw r _ _ h

end WritesDestination

/-- Every meaning is the end of a command whose writes are to its destinations. -/
theorem exec_writesDestination (i : Instr) (s : State) :
    ∃ r, exec i s = finish i s r ∧ WritesDestination i s r := by
  cases i with
  | nop => exact ⟨_, rfl, .ok .nothing⟩
  | li | lsi | mov | ntIsprime | polyEq | vsize | vcap | vempty => exact ⟨_, rfl, .ok (.scalar _ _ rfl)⟩
  | wgetx | zpAdd | zpSub | zpMul | vat => exact ⟨_, rfl, .bind fun _ => .ok (.scalar _ _ rfl)⟩
  | galElt | galIdx => exact ⟨_, rfl, .bind fun _ => .bind fun _ => .ok (.scalar _ _ rfl)⟩
  | zpExp | zpInv | zpGen =>
    exact ⟨_, rfl, .bind fun _ => .bind fun _ => .bind fun _ => .ok (.scalar _ _ rfl)⟩
  | zpRoot =>
    exact ⟨_, rfl, .bind fun _ => .bind fun _ => .bind fun _ => .bind fun _ => .ok (.scalar _ _ rfl)⟩
  | wmov | wsetx => exact ⟨_, rfl, .ok (.wide _ _ rfl)⟩
  | crtMod => exact ⟨_, rfl, .bind fun _ => .ok (.wide _ _ rfl)⟩
  | ntModinv | ntModexp | ntRoot | ntFindgen => exact ⟨_, rfl, .bind fun _ => .storeWide rfl⟩
  | crtDec => exact ⟨_, rfl, .bind fun _ => .bind fun _ => .storeWide rfl⟩
  | vshrink => exact ⟨_, rfl, .ok (.buffer _ _ rfl)⟩
  | vset => exact ⟨_, rfl, .bind fun _ => .ok (.buffer _ _ rfl)⟩
  | vresize | vreserve => exact ⟨_, rfl, .bind fun _ => .bind fun _ => .ok (.buffer _ _ rfl)⟩
  | vmov => exact ⟨_, rfl, .vecAssign rfl⟩
  | crtEnc | crtPrimes | galAll | polyAdd | polySub | polyMul => exact ⟨_, rfl, .bind fun _ => .vecAssign rfl⟩
  | nttRaw | nttFwd | nttInv | galElts => exact ⟨_, rfl, .bind fun _ => .bind fun _ => .vecAssign rfl⟩
  | nttPmul | polyMuln => exact ⟨_, rfl, .bind fun _ => .bind fun _ => .bind fun _ => .vecAssign rfl⟩
  | polyMulc =>
    exact ⟨_, rfl, .bind fun _ => .bind fun _ => .bind fun _ => .bind fun _ => .vecAssign rfl⟩
  | rndTri => exact ⟨_, rfl, .bind fun _ => .bind fun _ => .storeDraw rfl⟩
  | rndHwt => exact ⟨_, rfl, .bind fun _ => .bind fun _ => .bind fun _ => .storeDraw rfl⟩
  | rndUni => exact ⟨_, rfl, .bind fun _ => .bind fun _ => .bind fun _ => .bind fun _ => .storeDraw rfl⟩
  | zpInit => exact ⟨_, rfl, .bind fun _ => .bind fun _ => .ok (.zp _ rfl)⟩
  | nttInit =>
    exact ⟨_, rfl, .bind fun _ => .bind fun _ => .bind fun _ => .bind fun _ => .bind fun _ => .ok (.ntt _ rfl)⟩
  | crtInit =>
    exact ⟨_, rfl, .bind fun _ => .bind fun _ => .bind fun _ => .bind fun _ => .ok (.crt _ rfl)⟩
  | galInit => exact ⟨_, rfl, .bind fun _ => .ok (.gal _ rfl)⟩

/-- What a command can do (rules R10, R36, R370): it retires with writes to its destinations, or it is rejected whole. -/
theorem exec_cases (i : Instr) (s t : State) (h : exec i s = .next t) :
    (∃ u, DestinationWrite i s u ∧ t = u.retire) ∨ ∃ e, t = s.raise (encode i) e := by
  obtain ⟨r, hr, hw⟩ := exec_writesDestination i s
  obtain ⟨u, hu, rfl⟩ | ⟨e, -, rfl⟩ := finish_cases i s t r (hr ▸ h)
  · exact .inl ⟨u, hw u hu, rfl⟩
  · exact .inr ⟨e, rfl⟩

/-- `t` agrees with `s` in every register, buffer and slot but the destinations of `i`, and in the build. -/
structure KeepsOthers (i : Instr) (s t : State) : Prop where
  x : ∀ r : XReg, i.xDest ≠ some r → t.x[r] = s.x[r]
  w : ∀ r : WReg, i.wDest ≠ some r → t.w[r] = s.w[r]
  v : ∀ r : VReg, i.vDest ≠ some r → t.v[r] = s.v[r]
  build : t.build = s.build
  zp : i.initSlot ≠ some 0 → t.zp = s.zp
  ntt : i.initSlot ≠ some 1 → t.ntt = s.ntt
  crt : i.initSlot ≠ some 2 → t.crt = s.crt
  gal : i.initSlot ≠ some 3 → t.gal = s.gal

theorem KeepsOthers.refl (i : Instr) (s : State) : KeepsOthers i s s where
  x _ _ := rfl
  w _ _ := rfl
  v _ _ := rfl
  build := rfl
  zp _ := rfl
  ntt _ := rfl
  crt _ := rfl
  gal _ := rfl

/-- A register that is not the destination is not the one written. -/
theorem ne_of_dest_ne {α : Type} {dest : Option α} {r q : α} (h : dest = some r) (hq : dest ≠ some q) : r ≠ q :=
  fun hrq => hq (hrq ▸ h)

theorem KeepsOthers.writeV (i : Instr) (s : State) (r : VReg) (b : Buffer) (h : i.vDest = some r) :
    KeepsOthers i s (s.writeV r b) :=
  { KeepsOthers.refl i s with
    v := fun q hq => (s.writeV_get r q b).trans (if_neg (ne_of_dest_ne h hq)) }

theorem DestinationWrite.keepsOthers {i : Instr} {s u : State} (h : DestinationWrite i s u) :
    KeepsOthers i s u := by
  have keep := KeepsOthers.refl i s
  cases h with
  | nothing => exact keep
  | scalar r d h =>
    exact { keep with x := fun q hq => (s.writeX_get r q d).trans (if_neg (ne_of_dest_ne h hq)) }
  | wide r d h =>
    exact { keep with w := fun q hq => (s.writeW_get r q d).trans (if_neg (ne_of_dest_ne h hq)) }
  | buffer r b h => exact .writeV i s r b h
  | draw r b n h => exact { KeepsOthers.writeV i s r b h with }
  | zp c h => exact { keep with zp := fun hne => absurd h hne }
  | ntt c h => exact { keep with ntt := fun hne => absurd h hne }
  | crt c h => exact { keep with crt := fun hne => absurd h hne }
  | gal c h => exact { keep with gal := fun hne => absurd h hne }

/-- The frame of a command (rules R10, R41, R412, R415), whether it retires or is rejected. -/
theorem exec_keepsOthers (i : Instr) (s t : State) (h : exec i s = .next t) : KeepsOthers i s t := by
  obtain ⟨u, hu, rfl⟩ | ⟨e, rfl⟩ := exec_cases i s t h
  · exact { hu.keepsOthers with }
  · exact { KeepsOthers.refl i s with }

/-- Settles O21: a command retires with a write to its destinations only, or is rejected with no write at all. -/
theorem onlyDestinationsChange : Obligations.OnlyDestinationsChange := by
  intro i s t h
  obtain ⟨hx, hw, hv, hbuild, hzp, hntt, hcrt, hgal⟩ := exec_keepsOthers i s t h
  exact ⟨hx, hw, hv, hbuild, hzp, hntt, hcrt, hgal⟩

end Sys2Proof.Machine

/-! The invariant of good states: it holds at reset, and every command, host access and reset keeps it. -/

namespace Sys2Proof.Machine

/-! ### What the invariant says of the reset state and of each update of the state -/

/-- The reset state of a build is good (rules R48, R411). -/
theorem State.inv_resetOf (b : Build) : (State.resetOf b).Inv where
  wide r := by simp [State.resetOf, IsPattern]
  memory := Memory.wf_reset b
  faultRecord := ⟨rfl, rfl, rfl⟩
  notBusy := nofun
  zp := by rintro c ⟨⟩
  ntt := by rintro c ⟨⟩
  crt := by rintro c ⟨⟩
  gal := by rintro c ⟨⟩

/-- Settles O14: nothing is written yet, and the build of `State.reset` has the defaults. -/
theorem invariantHoldsAtReset : Obligations.InvariantHoldsAtReset :=
  ⟨State.inv_resetOf, State.inv_resetOf _, rfl⟩

namespace State.Inv

variable {s : State}

theorem writeX (hs : s.Inv) (r : XReg) (d : Word) : (s.writeX r d).Inv := { hs with }

theorem writeW (hs : s.Inv) (r : WReg) {d : Wide} (hd : IsPattern s.build d) : (s.writeW r d).Inv :=
  { hs with
    wide := fun q => by
      rw [State.writeW_get]
      split
      · exact hd
      · exact hs.wide q }

theorem writeV (hs : s.Inv) {r : VReg} {b : Buffer} (hm : (s.writeV r b).v.wf s.build) : (s.writeV r b).Inv :=
  { hs with memory := hm }

theorem retire (hs : s.Inv) : s.retire.Inv := { hs with }

theorem withHost (hs : s.Inv) (l : List HostAction) : ({ s with host := l } : State).Inv := { hs with }

theorem withAnswer (hs : s.Inv) (a : HostAnswer) : ({ s with answer := a } : State).Inv := { hs with }

theorem withDraws (hs : s.Inv) (n : Nat) : ({ s with draws := n } : State).Inv := { hs with }

/-- A rejection records a cause of the list and a 32-bit word (rules R371, R372). -/
theorem raise (hs : s.Inv) (c : CmdWord) (e : Exn) : (s.raise c e).Inv :=
  { hs with
    faultRecord := ⟨⟨e.cause, rfl⟩, by
      rw [State.raise_fcmd, BitVec.toNat_setWidth]
      exact lt_of_le_of_lt (Nat.mod_le _ _) c.isLt⟩
    notBusy := nofun }

theorem acknowledge (hs : s.Inv) : s.acknowledge.Inv := by
  by_cases hrun : s.run = .faulted
  · rw [s.acknowledge_of_faulted hrun]
    exact { hs with faultRecord := ⟨rfl, rfl, rfl⟩, notBusy := nofun }
  · rwa [s.acknowledge_of_not_faulted hrun]

theorem initZp (hs : s.Inv) {c : ZpCtx} (hc : c.Valid) : ({ s with zp := some c } : State).Inv :=
  { hs with zp := fun _ h => Option.some.inj h ▸ hc }

theorem initNtt (hs : s.Inv) {c : NttCtx} (hc : c.Valid s.build) : ({ s with ntt := some c } : State).Inv :=
  { hs with ntt := fun _ h => Option.some.inj h ▸ hc }

theorem initCrt (hs : s.Inv) {c : CrtCtx} (hc : c.Valid s.build) : ({ s with crt := some c } : State).Inv :=
  { hs with crt := fun _ h => Option.some.inj h ▸ hc }

theorem initGal (hs : s.Inv) {c : GalCtx} (hc : c.Valid s.build) : ({ s with gal := some c } : State).Inv :=
  { hs with gal := fun _ h => Option.some.inj h ▸ hc }

end State.Inv

/-! ### The slots the INIT commands build, and the product a `CRT` slot holds -/

theorem buildZp_valid {v : Word} (h2 : 2 ≤ sint v) (hp : isPrime (sint v) = true) : (buildZp (sint v)).Valid :=
  ⟨sint v, h2, (sint_bounds v).2, (isPrime_iff _).mp hp, rfl⟩

theorem buildNtt_valid {b : Build} {n : Int} {v : Word} {c : NttCtx}
    (hn : 1 ≤ n ∧ isPowerOfTwo n.toNat = true ∧ n ≤ b.nMax) (hp : isPrime (sint v) = true)
    (hd : fmod (sint v - 1) (2 * n) = 0) (hc : buildNtt n (sint v) = .ok c) : c.Valid b :=
  have ⟨hpow, hmax⟩ := (dimension_check n b.nMax).mp hn
  ⟨n, sint v, hpow, hmax, (sint_bounds v).2, (isPrime_iff _).mp hp, hd, hc⟩

theorem buildCrt_valid {b : Build} {n size d : Int} {c : CrtCtx} (hn : 1 ≤ n ∧ n ≤ b.nPrimeMax)
    (hsize : 0 ≤ size ∧ size ≤ 62) (hd : 1 ≤ d ∧ isPowerOfTwo d.toNat = true ∧ d ≤ b.nMax)
    (hc : buildCrt b n size d = .ok c) : c.Valid b :=
  have ⟨hpow, hmax⟩ := (dimension_check d b.nMax).mp hd
  ⟨n, size, d, hn.1, hn.2, hsize.1, hsize.2, hpow, hmax, hc⟩

theorem galCtx_valid {b : Build} {n : Int} (hn : 2 ≤ n ∧ isPowerOfTwo n.toNat = true ∧ n ≤ b.nMax) :
    (GalCtx.mk (u64 n)).Valid b :=
  have ⟨h2, hpow, hmax⟩ := hn
  have ⟨hpow', _⟩ := (dimension_check n b.nMax).mp ⟨by omega, hpow, hmax⟩
  ⟨n, h2, hpow', hmax, rfl⟩

/-- The product `CRT.M` of a valid slot stands for itself in a wide register (rules R242, R246). -/
theorem CrtCtx.Valid.isPatternOf_bigM {b : Build} {c : CrtCtx} (hc : c.Valid b) :
    IsPatternOf b c.bigM c.bigM.toNat := by
  obtain ⟨l, -, -, -, -, -, -, -, -, -, -, -, -, hlt, hprod, -⟩ := CrtCtx.Valid.fields b c hc
  exact isPatternOf_toNat b c.bigM (hprod ▸ hlt)

/-! ### Every command keeps the invariant -/

/-- Whatever state a meaning answers is good. -/
def AnswersInv (r : Except Exn State) : Prop := ∀ u, r = .ok u → u.Inv

namespace AnswersInv

theorem ok {u : State} (hu : u.Inv) : AnswersInv (.ok u) := by
  rintro _ ⟨⟩
  exact hu

/-- A part in front of a write need not keep anything, but what it answers may be used behind it. -/
theorem bind {α : Type} {m : Except Exn α} {f : α → Except Exn State}
    (h : ∀ a, m = .ok a → AnswersInv (f a)) : AnswersInv (m >>= f) := by
  intro u hu
  obtain ⟨a, ha, hfa⟩ := (bind_eq_ok m f u).mp hu
  exact h a ha u hfa

/-- Behind a check its condition holds. -/
theorem require {c : Prop} [Decidable c] {cause : FaultCause} {info : Word} {f : Unit → Except Exn State}
    (h : c → AnswersInv (f ())) : AnswersInv (Machine.require c cause info >>= f) :=
  bind fun _ hc => h ((require_eq_ok ..).mp hc)

variable {s : State}

theorem vecAssign (hs : s.Inv) (r : VReg) (l : List Int) : AnswersInv (vecAssign s r l) := by
  intro u hu
  have hwf := vecAssign_wf s u r l hs.memory hu
  obtain ⟨-, rfl⟩ := (vecAssign_eq_ok s u r l).mp hu
  exact hs.writeV hwf

theorem storeDraw (hs : s.Inv) (r : VReg) (l : List Int) : AnswersInv (storeDraw s r l) :=
  bind fun t ht => .ok ((vecAssign hs r l t ht).withDraws _)

theorem storeWide (hs : s.Inv) (r : WReg) (n : Int) : AnswersInv (storeWide s r n) :=
  require fun _ => .ok (hs.writeW r (isPattern_setWidth s.build _))

end AnswersInv

/-- From a good state, whatever a command writes leaves a good state. -/
theorem exec_answersInv (i : Instr) {s : State} (hs : s.Inv) :
    ∃ r, exec i s = finish i s r ∧ AnswersInv r := by
  cases i with
  | nop => exact ⟨_, rfl, .ok hs⟩
  | li | lsi | mov | ntIsprime | polyEq | vsize | vcap | vempty => exact ⟨_, rfl, .ok (hs.writeX _ _)⟩
  | wgetx | zpAdd | zpSub | zpMul | vat => exact ⟨_, rfl, .bind fun _ _ => .ok (hs.writeX _ _)⟩
  | galElt | galIdx => exact ⟨_, rfl, .bind fun _ _ => .bind fun _ _ => .ok (hs.writeX _ _)⟩
  | zpExp | zpInv | zpGen =>
    exact ⟨_, rfl, .bind fun _ _ => .bind fun _ _ => .bind fun _ _ => .ok (hs.writeX _ _)⟩
  | zpRoot =>
    exact ⟨_, rfl, .bind fun _ _ => .bind fun _ _ => .bind fun _ _ => .bind fun _ _ => .ok (hs.writeX _ _)⟩
  | wmov _ ra => exact ⟨_, rfl, .ok (hs.writeW _ (hs.wide ra))⟩
  | wsetx => exact ⟨_, rfl, .ok (hs.writeW _ (isPatternOf_widen _ _).1)⟩
  | crtMod =>
    exact ⟨_, rfl, .bind fun c hc =>
      .ok (hs.writeW _ (hs.crt c ((needSlot_eq_ok ..).mp hc)).isPatternOf_bigM.1)⟩
  | ntModinv | ntModexp | ntRoot | ntFindgen => exact ⟨_, rfl, .bind fun _ _ => .storeWide hs _ _⟩
  | crtDec => exact ⟨_, rfl, .bind fun _ _ => .bind fun _ _ => .storeWide hs _ _⟩
  | vshrink rd => exact ⟨_, rfl, .ok (hs.writeV (s.shrink_wf rd hs.memory))⟩
  | vset rd => exact ⟨_, rfl, .bind fun _ _ => .ok (hs.writeV (s.writeElement_wf rd _ _ hs.memory))⟩
  | vresize rd =>
    exact ⟨_, rfl, .require fun _ => .require fun hn =>
      .ok (hs.writeV (s.resize_wf rd _ hs.memory (Int.toNat_le.mpr hn)))⟩
  | vreserve rd =>
    exact ⟨_, rfl, .require fun _ => .require fun hn =>
      .ok (hs.writeV (s.reserve_wf rd _ hs.memory (Int.toNat_le.mpr hn)))⟩
  | vmov => exact ⟨_, rfl, .vecAssign hs _ _⟩
  | crtEnc | crtPrimes | galAll | polyAdd | polySub | polyMul =>
    exact ⟨_, rfl, .bind fun _ _ => .vecAssign hs _ _⟩
  | nttRaw | nttFwd | nttInv | galElts => exact ⟨_, rfl, .bind fun _ _ => .bind fun _ _ => .vecAssign hs _ _⟩
  | nttPmul | polyMuln =>
    exact ⟨_, rfl, .bind fun _ _ => .bind fun _ _ => .bind fun _ _ => .vecAssign hs _ _⟩
  | polyMulc =>
    exact ⟨_, rfl, .bind fun _ _ => .bind fun _ _ => .bind fun _ _ => .bind fun _ _ => .vecAssign hs _ _⟩
  | rndTri => exact ⟨_, rfl, .bind fun _ _ => .bind fun _ _ => .storeDraw hs _ _⟩
  | rndHwt => exact ⟨_, rfl, .bind fun _ _ => .bind fun _ _ => .bind fun _ _ => .storeDraw hs _ _⟩
  | rndUni =>
    exact ⟨_, rfl, .bind fun _ _ => .bind fun _ _ => .bind fun _ _ => .bind fun _ _ => .storeDraw hs _ _⟩
  | zpInit =>
    exact ⟨_, rfl, .require fun h2 => .require fun hp => .ok (hs.initZp (buildZp_valid h2 hp))⟩
  | nttInit =>
    exact ⟨_, rfl, .require fun hn => .require fun _ => .require fun hp => .require fun hd =>
      .bind fun _ hc => .ok (hs.initNtt (buildNtt_valid hn hp hd hc))⟩
  | crtInit =>
    exact ⟨_, rfl, .require fun hn => .require fun hsize => .require fun hd =>
      .bind fun _ hc => .ok (hs.initCrt (buildCrt_valid hn hsize hd hc))⟩
  | galInit => exact ⟨_, rfl, .require fun hn => .ok (hs.initGal (galCtx_valid hn))⟩

theorem exec_inv {i : Instr} {s t : State} (hs : s.Inv) (h : exec i s = .next t) : t.Inv := by
  obtain ⟨r, hr, hgood⟩ := exec_answersInv i hs
  obtain ⟨u, hu, rfl⟩ | ⟨e, -, rfl⟩ := finish_cases i s t r (hr ▸ h)
  · exact (hgood u hu).retire
  · exact hs.raise _ e

theorem runCommand_inv {c : CmdWord} {s t : State} (hs : s.Inv) (h : runCommand c s = .next t) : t.Inv := by
  unfold runCommand at h
  split at h
  · exact exec_inv hs h
  · cases h
    exact hs.raise _ _

theorem runCommand_build {c : CmdWord} {s t : State} (h : runCommand c s = .next t) : t.build = s.build := by
  unfold runCommand at h
  split at h
  · exact (exec_keepsOthers _ s t h).build
  · cases h
    rfl

/-! ### Every host access keeps the invariant -/

/-- A readable number of region 1 is a limb below `WIDEW` (rules R26, R75). -/
theorem limb_lt_of_readWord {s : State} {a : BitVec 32} {v : Word} (h : readWord s a = some v)
    (hlow : 0x10000000 ≤ a.toNat) (hhigh : a.toNat < 0x20000000) :
    (a.toNat - 0x10000000) % 0x100 < s.build.wideLimbs := by
  rw [readWord, if_neg (Nat.not_lt.mpr hlow), if_pos hhigh, readWideLimb] at h
  by_contra hge
  simp [hge] at h

/-- A write the host port takes keeps the invariant: its number is readable, so no bit above `WIDEW` is written
(rules R26, R76, R77). -/
theorem writeMapped_inv {s : State} {a : BitVec 32} {v : Word} (hs : s.Inv) (h : readWord s a = some v) (d : Word) :
    (writeMapped s a.toNat d).Inv := by
  have hlimb := limb_lt_of_readWord h
  rw [writeMapped]
  generalize 0x10000000 = b1, 0x20000000 = b2, 0x30000000 = b3, 0x01000000 = b4 at *
  dsimp only
  split_ifs with _ _ hregion hw
  · exact hs.writeX _ d
  · exact hs.acknowledge
  · exact hs.writeW _ (isPattern_setLimb _ _ _ d (hlimb hregion.1 hregion.2) (hs.wide ⟨_, hw⟩))
  · exact hs
  · exact hs.writeV (s.writeElement_wf _ _ d hs.memory)
  · exact hs
  · exact hs

theorem hostRead_inv {s : State} (hs : s.Inv) (a : BitVec 32) : (hostRead s a).Inv := by
  unfold hostRead
  split <;> exact hs.withAnswer _

theorem hostWrite_inv {s : State} (hs : s.Inv) (a : BitVec 32) (d : Word) : (hostWrite s a d).Inv := by
  unfold hostWrite
  split
  · exact (writeMapped_inv hs ‹_› d).withAnswer _
  · exact hs.withAnswer _

theorem hostRead_build (s : State) (a : BitVec 32) : (hostRead s a).build = s.build := by
  unfold hostRead
  split <;> rfl

theorem hostWrite_build (s : State) (a : BitVec 32) (d : Word) : (hostWrite s a d).build = s.build := by
  unfold hostWrite
  split
  · exact writeMapped_build s a.toNat d
  · rfl

/-! ### Every step keeps the invariant -/

theorem applyReset_inv (s : State) : s.applyReset.Inv := { State.inv_resetOf s.build with }

theorem nextAction_inv {s u : State} {a : HostAction} (hs : s.Inv) (h : s.nextAction = some (a, u)) : u.Inv := by
  rw [nextAction_state s u a h]
  exact hs.withHost _

theorem nextAction_build {s u : State} {a : HostAction} (h : s.nextAction = some (a, u)) : u.build = s.build := by
  rw [nextAction_state s u a h]

/-- Settles O15, by what a step can do: wait, run a command, serve the host port, or reset. -/
theorem stepKeepsInvariant : Obligations.StepKeepsInvariant := by
  intro s t hs h
  obtain ⟨-, rfl⟩ | ⟨c, u, hu, hrun⟩ | ⟨a, u, hu, rfl⟩ | ⟨a, d, u, hu, rfl⟩ | ⟨u, hu, rfl⟩ := step_cases s t h
  case inl => exact ⟨hs, rfl⟩
  all_goals
    have hinv := nextAction_inv hs hu
    rw [← nextAction_build hu]
  · exact ⟨runCommand_inv hinv hrun, runCommand_build hrun⟩
  · exact ⟨hostRead_inv hinv a, hostRead_build u a⟩
  · exact ⟨hostWrite_inv hinv a d, hostWrite_build u a d⟩
  · exact ⟨applyReset_inv u, rfl⟩

/-! ### A command retires or is rejected whole -/

/-- The fields of the run state, the fault record, the retired commands and the ports are the same in `s` and `t`. -/
structure SameStatus (s t : State) : Prop where
  run : t.run = s.run
  cseq : t.cseq = s.cseq
  fcause : t.fcause = s.fcause
  finfo : t.finfo = s.finfo
  fcmd : t.fcmd = s.fcmd
  host : t.host = s.host
  answer : t.answer = s.answer

theorem DestinationWrite.sameStatus {i : Instr} {s u : State} (h : DestinationWrite i s u) : SameStatus s u := by
  cases h <;> constructor <;> rfl

/-- Settles O17: what a command writes before it retires is a destination, and a rejection writes the record only. -/
theorem commandRetiresOrIsRejectedWhole : Obligations.CommandRetiresOrIsRejectedWhole := by
  intro i s
  obtain ⟨t, ht⟩ := exec_next i s
  obtain ⟨u, hu, rfl⟩ | ⟨e, rfl⟩ := exec_cases i s t ht
  · obtain ⟨hrun, hcseq, hfcause, hfinfo, hfcmd, hhost, hanswer⟩ := hu.sameStatus
    exact .inl ⟨_, ht, congrArg (· + 1) hcseq, hrun, hfcause, hfinfo, hfcmd, hhost, hanswer⟩
  · exact .inr ⟨e.cause, e.info, ht⟩

end Sys2Proof.Machine

/-! Command words written as numbers, as the statements write them: their fields, and what they decode to; then the
residues and the constants of the `CRT` slot. -/

namespace Sys2Proof

/-- A format R word is the number its fields make, which 32 bits hold (rule R101). -/
theorem toNat_formatR {op rd ra rb rc imm8 : Nat} (hop : op < 256) (hrd : rd < 16) (hra : ra < 16) (hrb : rb < 16)
    (hrc : rc < 16) (himm : imm8 < 256) :
    (formatR op rd ra rb rc imm8).toNat =
      op * 16777216 + rd * 1048576 + ra * 65536 + rb * 4096 + rc * 256 + imm8 := by
  rw [formatR, BitVec.toNat_ofNat]
  exact Nat.mod_eq_of_lt (by omega)

/-- The fields of a format R word are the numbers it is made of (rules R101, R108). -/
theorem ofWord_formatR {op rd ra rb rc imm8 : Nat} (hop : op < 256) (hrd : rd < 16) (hra : ra < 16) (hrb : rb < 16)
    (hrc : rc < 16) (himm : imm8 < 256) :
    Fields.ofWord (formatR op rd ra rb rc imm8) =
      ⟨.ofNat 8 op, .ofNat 4 rd, .ofNat 4 ra, .ofNat 4 rb, .ofNat 4 rc, .ofNat 8 imm8⟩ := by
  have hnat := toNat_formatR hop hrd hra hrb hrc himm
  rw [Fields.ofWord, Fields.mk.injEq]
  refine ⟨?_, ?_, ?_, ?_, ?_, ?_⟩ <;>
    rw [← BitVec.toNat_inj, BitVec.extractLsb'_toNat, BitVec.toNat_ofNat, Nat.shiftRight_eq_div_pow, hnat] <;>
    omega

@[simp] theorem xOf_ofNat (r : XReg) : xOf (.ofNat 4 r) = r := by
  simp [xOf]

@[simp] theorem wOf_ofNat (r : WReg) : wOf (.ofNat 4 r) = r := by
  simp [wOf, Fin.ext_iff]

@[simp] theorem vOf_ofNat (r : VReg) : vOf (.ofNat 4 r) = r := by
  simp [vOf, Fin.ext_iff]

@[simp] theorem FieldClass.allows_zero : FieldClass.zero.allows 0#4 = true := rfl

@[simp] theorem FieldClass.allows_x (b : BitVec 4) : FieldClass.x.allows b = true := rfl

@[simp] theorem ImmClass.allows_zero : ImmClass.zero.allows 0#8 = true := rfl

@[simp] theorem FieldClass.allows_w_ofNat (r : WReg) : FieldClass.w.allows (.ofNat 4 r) = true := by
  simp [FieldClass.allows]
  omega

@[simp] theorem FieldClass.allows_v_ofNat (r : VReg) : FieldClass.v.allows (.ofNat 4 r) = true := by
  simp [FieldClass.allows]
  omega

/-- A format R word decodes to the command built from its fields when these lie in the classes of its opcode's shape
(rules R105, R106, R108). -/
theorem decode_formatR {op rd ra rb rc imm8 : Nat} {sh : Shape} {i : Instr}
    (hsh : shapeOf (.ofNat 8 op) = some sh)
    (hbuild : build ⟨.ofNat 8 op, .ofNat 4 rd, .ofNat 4 ra, .ofNat 4 rb, .ofNat 4 rc, .ofNat 8 imm8⟩ = some i)
    (hgood : sh.firstBad ⟨.ofNat 8 op, .ofNat 4 rd, .ofNat 4 ra, .ofNat 4 rb, .ofNat 4 rc, .ofNat 8 imm8⟩ = none)
    (hop : op < 256 := by omega) (hrd : rd < 16 := by omega) (hra : ra < 16 := by omega)
    (hrb : rb < 16 := by omega) (hrc : rc < 16 := by omega) (himm : imm8 < 256 := by omega) :
    decode (formatR op rd ra rb rc imm8) = .ok i := by
  rw [decode, ofWord_formatR hop hrd hra hrb hrc himm, decodeFields]
  dsimp only
  rw [hsh, hbuild]
  dsimp only
  rw [hgood]

theorem decode_crtEnc (rd : VReg) (ra : WReg) : decode (formatR 0x41 rd ra 0 0 0) = .ok (.crtEnc rd ra) :=
  decode_formatR rfl (by simp [build]) (by simp [Shape.firstBad])

theorem decode_crtPrimes (rd : VReg) : decode (formatR 0x43 rd 0 0 0 0) = .ok (.crtPrimes rd) :=
  decode_formatR rfl (by simp [build]) (by simp [Shape.firstBad])

theorem decode_crtMod (rd : WReg) : decode (formatR 0x44 rd 0 0 0 0) = .ok (.crtMod rd) :=
  decode_formatR rfl (by simp [build]) (by simp [Shape.firstBad])

namespace Machine

/-! ### What a command that reads a slot or ends in `VecAssign` answers -/

/-- A command whose slot is invalid is rejected with the slot's index (rules R373, R377). -/
theorem finish_needSlot_none {α : Type} (i : Instr) (s : State) (index : Word) (f : α → Except Exn State) :
    finish i s (needSlot none index >>= f) = .next (s.rejected i .noContext index) := rfl

/-- A command that ends in `VecAssign` retires with the list in its buffer when that fits (rules R31, R36). -/
theorem finish_vecAssign_of_le (i : Instr) {s : State} (r : VReg) {l : List Int} (hl : l.length ≤ s.build.vcapMax) :
    finish i s (vecAssign s r l) =
      .next { s.writeV r ⟨l.map u64, max s.v[r].cap l.length⟩ with cseq := s.cseq + 1 } := by
  rw [(vecAssign_eq_ok s _ r l).mpr ⟨hl, rfl⟩]
  rfl

/-- A command that ends in `VecAssign` is rejected with the number of elements when they do not fit (rule R31). -/
theorem finish_vecAssign_of_lt (i : Instr) {s : State} (r : VReg) {l : List Int} (hl : s.build.vcapMax < l.length) :
    finish i s (vecAssign s r l) = .next (s.rejected i .capacityExceeded (u64 l.length)) := by
  rw [(vecAssign_eq_error s r l _).mpr ⟨Nat.not_le.mpr hl, rfl⟩]
  rfl

/-! ### The residues and the constants of the `CRT` slot -/

section

variable {s : State} {c : CrtCtx}

theorem exec_crtEnc_of_some (rd : VReg) (wa : WReg) (hc : s.crt = some c) :
    exec (.crtEnc rd wa) s = finish (.crtEnc rd wa) s (vecAssign s rd (residues c (s.wInt wa))) := by
  rw [exec, execCrtEnc, hc]
  rfl

theorem exec_crtPrimes_of_some (rd : VReg) (hc : s.crt = some c) :
    exec (.crtPrimes rd) s = finish (.crtPrimes rd) s (vecAssign s rd (c.primes.map sint)) := by
  rw [exec, execCrtPrimes, hc]
  rfl

theorem exec_crtMod_of_some (wd : WReg) (hc : s.crt = some c) :
    exec (.crtMod wd) s = .next { s.writeW wd c.bigM with cseq := s.cseq + 1 } := by
  rw [exec, execCrtMod, hc]
  rfl

theorem exec_crt_of_none (rd : VReg) (wd wa : WReg) (hc : s.crt = none) :
    exec (.crtEnc rd wa) s = .next (s.rejected (.crtEnc rd wa) .noContext 2) ∧
      exec (.crtPrimes rd) s = .next (s.rejected (.crtPrimes rd) .noContext 2) ∧
      exec (.crtMod wd) s = .next (s.rejected (.crtMod wd) .noContext 2) := by
  simp only [exec, execCrtEnc, execCrtPrimes, execCrtMod, hc, finish_needSlot_none, and_self]

end

@[simp] theorem length_residues (c : CrtCtx) (value : Int) : (residues c value).length = c.primes.length :=
  List.length_map _

theorem map_u64_residues (c : CrtCtx) (value : Int) :
    (residues c value).map u64 = c.primes.map fun q => u64 (value % sint q) :=
  List.map_map

theorem map_u64_map_sint (l : List Word) : (l.map sint).map u64 = l := by
  simp [Function.comp_def]

/-- A valid slot holds as many primes as it counts (rule R44). -/
theorem CrtCtx.Valid.length_primes {b : Build} {c : CrtCtx} (hc : c.Valid b) : c.primes.length = c.numPrimes.toNat := by
  obtain ⟨l, -, -, -, -, hnum, -, -, -, -, -, hprimes, -⟩ := CrtCtx.Valid.fields b c hc
  rw [hprimes, List.length_map, hnum]

theorem u64_toNat (v : Word) : u64 v.toNat = v := by
  rw [u64, BitVec.ofInt_natCast, BitVec.ofNat_toNat, BitVec.setWidth_eq]

/-- Settles O45: each of the three reads the slot, and the first two end in `VecAssign` with one element a prime. -/
theorem crtResiduesAndConstants : Obligations.CrtResiduesAndConstants := by
  intro s rd wd wa
  refine ⟨decode_crtEnc rd wa, decode_crtPrimes rd, decode_crtMod wd, exec_crt_of_none rd wd wa, fun c hc hvalid => ?_⟩
  have hlen := hvalid.length_primes
  refine ⟨fun hle => ?_, fun hlt => ?_, hvalid.isPatternOf_bigM, exec_crtMod_of_some wd hc⟩
  · rw [exec_crtEnc_of_some rd wa hc, exec_crtPrimes_of_some rd hc,
      finish_vecAssign_of_le _ _ (by simpa [hlen] using hle), finish_vecAssign_of_le _ _ (by simpa [hlen] using hle),
      map_u64_residues, map_u64_map_sint, length_residues, List.length_map, hlen]
    exact ⟨rfl, rfl⟩
  · rw [exec_crtEnc_of_some rd wa hc, exec_crtPrimes_of_some rd hc,
      finish_vecAssign_of_lt _ _ (by simpa [hlen] using hlt), finish_vecAssign_of_lt _ _ (by simpa [hlen] using hlt),
      length_residues, List.length_map, hlen, u64_toNat]
    exact ⟨rfl, rfl⟩

end Machine

end Sys2Proof

/-! The host register space: what stands in each region of the map, and what a host write leaves in it; then the host
port's answers and the frame of the data memory. -/

namespace Sys2Proof.Machine

variable {s : State} {a : BitVec 32}

/-! ### The words of each region -/

/-- A register number that 32 bits hold is itself. -/
theorem toNat_number {n : Nat} (h : n < 0x100000000) : (BitVec.ofNat 32 n).toNat = n := Nat.mod_eq_of_lt h

theorem readWord_scalars (h : a.toNat < 0x10000000) : readWord s a = readScalars s a.toNat := if_pos h

theorem offset_parts {m l : Nat} (q : Nat) (hl : l < m) : (m * q + l) / m = q ∧ (m * q + l) % m = l :=
  ⟨by rw [Nat.mul_add_div (by omega), Nat.div_eq_of_lt hl, Nat.add_zero], by rw [Nat.mul_add_mod, Nat.mod_eq_of_lt hl]⟩

/-- Limb `l` of `w[j]` (rules R26, R75). -/
theorem readWord_limb {j : WReg} {l : Nat} (h : a.toNat = 0x10000000 + 0x100 * j + l) (hl : l < s.build.wideLimbs) :
    readWord s a = some (limb s.w[j] l) := by
  have hle := s.build.wideLimbs_le
  have hoff : a.toNat - 0x10000000 = 0x100 * j + l := by omega
  obtain ⟨hdiv, hmod⟩ := offset_parts j.val (show l < 0x100 by omega)
  rw [readWord, if_neg (by omega), if_pos (by omega), hoff, readWideLimb]
  simp [hdiv, hmod, hl]

/-- Element `k` of `v[i]` (rules R30, R75). -/
theorem readWord_element {i : VReg} {k : Nat} (h : a.toNat = 0x20000000 + 0x01000000 * i + k) (hk : k < 0x01000000) :
    readWord s a = s.v[i].read k := by
  have hoff : a.toNat - 0x20000000 = 0x01000000 * i + k := by omega
  obtain ⟨hdiv, hmod⟩ := offset_parts i.val (show k < 0x01000000 by omega)
  rw [readWord, if_neg (by omega), if_neg (by omega), if_pos (by omega), hoff, readElement]
  simp [hdiv, hmod]

section

variable {k : Nat}

theorem readWord_rou (h : a.toNat = 0x30000000 + k) (hk : k < 0x01000000) :
    readWord s a = readTable s.ntt NttCtx.rou k := by
  simp (disch := omega) only [readWord, h, if_neg, if_pos, Nat.add_sub_cancel_left]

theorem readWord_rouinv (h : a.toNat = 0x31000000 + k) (hk : k < 0x01000000) :
    readWord s a = readTable s.ntt NttCtx.rouinv k := by
  simp (disch := omega) only [readWord, h, if_neg, if_pos, Nat.add_sub_cancel_left]

theorem readWord_primes (h : a.toNat = 0x32000000 + k) (hk : k < 0x01000000) :
    readWord s a = readTable s.crt CrtCtx.primes k := by
  simp (disch := omega) only [readWord, h, if_neg, if_pos, Nat.add_sub_cancel_left]

theorem readWord_miInv (h : a.toNat = 0x33000000 + k) (hk : k < 0x01000000) :
    readWord s a = readTable s.crt CrtCtx.miInv k := by
  simp (disch := omega) only [readWord, h, if_neg, if_pos, Nat.add_sub_cancel_left]

theorem readWord_bigM (h : a.toNat = 0x34000000 + k) (hk : k < s.build.wideLimbs) :
    readWord s a = some (slotField s.crt fun c => limb c.bigM k) := by
  have hle := s.build.wideLimbs_le
  simp (disch := omega) only [readWord, h, if_neg, if_pos, Nat.add_sub_cancel_left, readBigM]

theorem readWord_cofactor {i : Nat} (h : a.toNat = 0x35000000 + 0x100 * i + k) (hk : k < s.build.wideLimbs) :
    readWord s a = readTable s.crt (fun c => c.mi.map fun m => limb m k) i := by
  have hle := s.build.wideLimbs_le
  have hoff : a.toNat - 0x35000000 = 0x100 * i + k := by omega
  obtain ⟨hdiv, hmod⟩ := offset_parts i (show k < 0x100 by omega)
  simp (disch := omega) only [readWord, if_neg, hoff, readCofactor, hdiv, hmod, hk, if_true]

end

/-! ### Which numbers of the register banks and of the data memory are readable -/

/-- A readable number of region 1 is a limb of a wide register (rules R26, R75). -/
theorem exists_limb_of_readWord (h : (readWord s a).isSome = true) (hlow : 0x10000000 ≤ a.toNat)
    (hhigh : a.toNat < 0x20000000) :
    ∃ (j : WReg) (l : Nat), l < s.build.wideLimbs ∧ a.toNat = 0x10000000 + 0x100 * j + l := by
  obtain ⟨v, hv⟩ := Option.isSome_iff_exists.mp h
  have hlimb := limb_lt_of_readWord hv hlow hhigh
  rw [readWord, if_neg (Nat.not_lt.mpr hlow), if_pos hhigh, readWideLimb] at h
  by_cases hreg : (a.toNat - 0x10000000) / 0x100 < 4
  · exact ⟨⟨_, hreg⟩, _, hlimb, by dsimp only; omega⟩
  · simp [hreg] at h

/-- A readable number of region 2 is an element below the size of its buffer (rules R30, R75). -/
theorem exists_element_of_readWord (h : (readWord s a).isSome = true) (hlow : 0x20000000 ≤ a.toNat)
    (hhigh : a.toNat < 0x30000000) :
    ∃ (i : VReg) (k : Nat), k < s.v[i].size ∧ k < 0x01000000 ∧ a.toNat = 0x20000000 + 0x01000000 * i + k := by
  by_cases hreg : (a.toNat - 0x20000000) / 0x01000000 < 8
  · obtain ⟨i, hi⟩ : ∃ i : VReg, i.val = (a.toNat - 0x20000000) / 0x01000000 := ⟨⟨_, hreg⟩, rfl⟩
    have hnum : a.toNat = 0x20000000 + 0x01000000 * i + (a.toNat - 0x20000000) % 0x01000000 := by omega
    have hk : (a.toNat - 0x20000000) % 0x01000000 < 0x01000000 := Nat.mod_lt _ (by omega)
    rw [readWord_element hnum hk, Buffer.read] at h
    exact ⟨i, _, by simpa [Buffer.size] using h, hk, hnum⟩
  · rw [readWord, if_neg (by omega), if_neg (by omega), if_pos hhigh, readElement, dif_neg hreg] at h
    cases h

/-! ### What a write of the host leaves at every number -/

theorem readScalars_writeX (r : XReg) (d : Word) (n : Nat) :
    readScalars (s.writeX r d) n = if n = r then some d else readScalars s n := by
  by_cases hn : n < 16
  · simp only [readScalars, dif_pos hn, State.writeX_x, Vector.getElem_set, eq_comm (a := n)]
    exact apply_ite some _ _ _
  · rw [if_neg (by omega), readScalars, readScalars, dif_neg hn, dif_neg hn]
    rfl

/-- A written scalar register is read back, and every other number is left alone (rules R21, R75). -/
theorem readWord_writeX (r : XReg) (d : Word) :
    readWord (s.writeX r d) a = if a.toNat = r then some d else readWord s a := by
  by_cases h : a.toNat < 0x10000000
  · rw [readWord_scalars h, readWord_scalars h, readScalars_writeX]
  · rw [if_neg (by omega), readWord, readWord, if_neg h, if_neg h]
    rfl

/-- The wide registers are seen in region 1 only (rule R75). -/
theorem readWord_writeW_of_not_region (j : WReg) (d : Wide) (h : ¬ (0x10000000 ≤ a.toNat ∧ a.toNat < 0x20000000)) :
    readWord (s.writeW j d) a = readWord s a := by
  by_cases hlow : a.toNat < 0x10000000
  · rw [readWord_scalars hlow, readWord_scalars hlow]
    rfl
  · have hhigh : ¬ a.toNat < 0x20000000 := by omega
    simp only [readWord, if_neg hlow, if_neg hhigh]
    rfl

/-- A written limb is read back, and every other number is left alone (rules R26, R75). -/
theorem readWord_writeLimb {j : WReg} {l : Nat} (d : Word) (hl : l < s.build.wideLimbs) :
    readWord (s.writeW j (setLimb s.w[j] l d)) a =
      if a.toNat = 0x10000000 + 0x100 * j + l then some d else readWord s a := by
  have hle := s.build.wideLimbs_le
  by_cases hlimb : ∃ (i : WReg) (m : Nat), m < s.build.wideLimbs ∧ a.toNat = 0x10000000 + 0x100 * i + m
  · obtain ⟨i, m, hm, ha⟩ := hlimb
    rw [readWord_limb ha hm, readWord_limb (s := s.writeW _ _) ha hm, State.writeW_get]
    by_cases hij : j = i
    · subst hij
      have hiff : a.toNat = 0x10000000 + 0x100 * j + l ↔ m = l := by omega
      rw [if_pos rfl, limb_setLimb _ _ _ d (by omega) (by omega), apply_ite some]
      simp only [hiff]
    · have hne := Fin.val_ne_of_ne hij
      rw [if_neg hij, if_neg (by omega)]
  · rw [if_neg fun ha => hlimb ⟨j, l, hl, ha⟩]
    by_cases hregion : 0x10000000 ≤ a.toNat ∧ a.toNat < 0x20000000
    · have hnone : ∀ t : State, t.build = s.build → readWord t a = none := fun t ht =>
        Option.not_isSome_iff_eq_none.mp fun h => hlimb (ht ▸ exists_limb_of_readWord h hregion.1 hregion.2)
      rw [hnone s rfl, hnone (s.writeW _ _) rfl]
    · exact readWord_writeW_of_not_region j _ hregion

/-- The extents of the buffers are seen in region 0, their elements in region 2 only (rule R75). -/
theorem readWord_writeElement_of_not_region (i : VReg) (k : Nat) (d : Word)
    (h : ¬ (0x20000000 ≤ a.toNat ∧ a.toNat < 0x30000000)) :
    readWord (s.writeV i (s.v[i].write k d)) a = readWord s a := by
  have hextent : ∀ q : VReg, (s.writeV i (s.v[i].write k d)).v[q].size = s.v[q].size ∧
      (s.writeV i (s.v[i].write k d)).v[q].cap = s.v[q].cap := by
    intro q
    rw [State.writeV_get]
    split
    case isTrue hq => simp [hq]
    case isFalse => exact ⟨rfl, rfl⟩
  by_cases hscalar : a.toNat < 0x10000000
  · rw [readWord_scalars hscalar, readWord_scalars hscalar]
    simp only [readScalars]
    split_ifs with h1 h2 h3
    · rfl
    · exact congrArg (fun n : Nat => some (u64 n)) (hextent ⟨a.toNat - 0x60, by omega⟩).1
    · exact congrArg (fun n : Nat => some (u64 n)) (hextent ⟨a.toNat - 0x68, by omega⟩).2
    · rfl
  · by_cases hwide : a.toNat < 0x20000000
    · simp only [readWord, if_neg hscalar, if_pos hwide]
      rfl
    · have hhigh : ¬ a.toNat < 0x30000000 := by omega
      simp only [readWord, if_neg hscalar, if_neg hwide, if_neg hhigh]
      rfl

/-- A written element is read back, and every other number is left alone (rules R30, R75). -/
theorem readWord_writeElement {i : VReg} {k : Nat} (d : Word) (hk : k < s.v[i].size) (hroom : k < 0x01000000) :
    readWord (s.writeV i (s.v[i].write k d)) a =
      if a.toNat = 0x20000000 + 0x01000000 * i + k then some d else readWord s a := by
  by_cases helem : ∃ (q : VReg) (m : Nat), m < 0x01000000 ∧ a.toNat = 0x20000000 + 0x01000000 * q + m
  · obtain ⟨q, m, hm, ha⟩ := helem
    rw [readWord_element ha hm, readWord_element ha hm, State.writeV_get]
    by_cases hiq : i = q
    · subst hiq
      rw [if_pos rfl]
      by_cases hmk : m = k
      · rw [if_pos (by omega), hmk, Buffer.read_write_same _ _ _ hk]
      · rw [if_neg (by omega), Buffer.read_write_other _ _ _ _ hmk]
    · have hne := Fin.val_ne_of_ne hiq
      rw [if_neg hiq, if_neg (by omega)]
  · rw [if_neg fun ha => helem ⟨i, k, hroom, ha⟩]
    by_cases hregion : 0x20000000 ≤ a.toNat ∧ a.toNat < 0x30000000
    · have hnone : ∀ t : State, readWord t a = none := fun t => Option.not_isSome_iff_eq_none.mp fun h => by
        obtain ⟨q, m, -, hm, ha⟩ := exists_element_of_readWord h hregion.1 hregion.2
        exact helem ⟨q, m, hm, ha⟩
      rw [hnone, hnone]
    · exact readWord_writeElement_of_not_region i k d hregion

/-! ### The host port -/

/-- An access of the host is taken up first, whether the CORE is IDLE or FAULTED (rules R71, R375). -/
theorem nextAction_of_access {x : HostAction} {rest : List HostAction} (hrun : s.run ≠ .busy)
    (hx : x.takenWhileFaulted = true) (hhost : s.host = x :: rest) :
    s.nextAction = some (x, { s with host := rest }) := by
  rw [State.nextAction, hhost]
  cases hr : s.run with
  | idle => rfl
  | faulted => simp [takeFirst, hx]
  | busy => exact absurd hr hrun

theorem step_read {rest : List HostAction} (hrun : s.run ≠ .busy) (hhost : s.host = .read a :: rest) :
    step s = .next (hostRead { s with host := rest } a) := by
  rw [step, nextAction_of_access hrun rfl hhost]

theorem step_write {d : Word} {rest : List HostAction} (hrun : s.run ≠ .busy) (hhost : s.host = .write a d :: rest) :
    step s = .next (hostWrite { s with host := rest } a d) := by
  rw [step, nextAction_of_access hrun rfl hhost]

theorem hostRead_of_some {v : Word} (h : readWord s a = some v) : hostRead s a = { s with answer := .data v } := by
  rw [hostRead, h]

theorem hostRead_of_none (h : readWord s a = none) : hostRead s a = { s with answer := .refused } := by
  rw [hostRead, h]

theorem hostWrite_of_isSome (d : Word) (h : (readWord s a).isSome = true) :
    hostWrite s a d = { writeMapped s a.toNat d with answer := .done } := by
  obtain ⟨v, hv⟩ := Option.isSome_iff_exists.mp h
  rw [hostWrite, hv]

theorem hostWrite_of_none (d : Word) (h : readWord s a = none) : hostWrite s a d = { s with answer := .refused } := by
  rw [hostWrite, h]

/-- What stands at the ports is in no register number. -/
@[simp] theorem readWord_withHost (l : List HostAction) : readWord { s with host := l } a = readWord s a := rfl

@[simp] theorem readWord_withAnswer (r : HostAnswer) : readWord { s with answer := r } a = readWord s a := rfl

/-- Settles O12: the access is the next action, and the port's answer is all it writes. -/
theorem hostReadsAndRefusedAccesses : Obligations.HostReadsAndRefusedAccesses := by
  intro s a d rest hrun
  refine ⟨fun hhost v hv => ?_, fun hhost hnone => ⟨_, ?_, rfl, rfl⟩, fun r k hsize hk => ?_⟩
  · rw [step_read hrun hhost, hostRead_of_some ((readWord_withHost rest).trans hv)]
  · obtain hhost | hhost := hhost
    · rw [step_read hrun hhost, hostRead_of_none ((readWord_withHost rest).trans hnone)]
    · rw [step_write hrun hhost, hostWrite_of_none d ((readWord_withHost rest).trans hnone)]
  · rw [readWord_element (toNat_number (by omega)) hk]
    exact List.getElem?_eq_none hsize

/-! ### What the host port writes -/

theorem writeMapped_scalar (r : XReg) (d : Word) : writeMapped s r d = s.writeX r d := dif_pos r.isLt

theorem writeMapped_limb {n : Nat} {j : WReg} {l : Nat} (d : Word) (h : n = 0x10000000 + 0x100 * j + l) (hl : l < 64) :
    writeMapped s n d = s.writeW j (setLimb s.w[j] l d) := by
  have hoff : n - 0x10000000 = 0x100 * j + l := by omega
  obtain ⟨hdiv, hmod⟩ := offset_parts j.val (show l < 0x100 by omega)
  rw [writeMapped, dif_neg (by omega), if_neg (by omega), if_pos (by omega)]
  simp [hoff, hdiv, hmod]

theorem writeMapped_element {n : Nat} {i : VReg} {k : Nat} (d : Word) (h : n = 0x20000000 + 0x01000000 * i + k)
    (hk : k < 0x01000000) : writeMapped s n d = s.writeV i (s.v[i].write k d) := by
  have hoff : n - 0x20000000 = 0x01000000 * i + k := by omega
  obtain ⟨hdiv, hmod⟩ := offset_parts i.val (show k < 0x01000000 by omega)
  rw [writeMapped, dif_neg (by omega), if_neg (by omega), if_neg (by omega), if_pos (by omega)]
  simp [hoff, hdiv, hmod]

/-- No buffer of a well-formed memory reaches into the numbers of the next one (rules R6, R29, R30). -/
theorem Memory.wf.index_lt {m : Memory} {b : Build} (hwf : m.wf b) {i : VReg} {k : Nat} (hk : k < m[i].size) :
    k < 0x01000000 :=
  lt_of_lt_of_le hk ((hwf i).1.trans ((hwf i).2.trans b.vcapMax_le))

/-- Every number with access RW is readable (rule R75). -/
theorem readWord_of_writable (hwf : s.v.wf s.build) (h : s.Writable a.toNat) : (readWord s a).isSome = true := by
  obtain hx | ⟨j, l, hj, hl, ha⟩ | ⟨i, k, hk, ha⟩ := h
  · rw [readWord_scalars (by omega), readScalars, dif_pos hx]
    rfl
  · rw [readWord_limb (j := ⟨j, hj⟩) ha hl]
    rfl
  · rw [readWord_element ha (Memory.wf.index_lt hwf hk)]
    simpa [Buffer.read, Buffer.size] using hk

/-- A write to a number with access RW puts its word there and leaves every other number and the run state alone
(rules R21, R26, R30, R75). -/
theorem writeMapped_of_writable (d : Word) (hwf : s.v.wf s.build) (h : s.Writable a.toNat) :
    (writeMapped s a.toNat d).run = s.run ∧ (writeMapped s a.toNat d).host = s.host ∧
      ∀ b, readWord (writeMapped s a.toNat d) b = if b = a then some d else readWord s b := by
  obtain hx | ⟨j, l, hj, hl, ha⟩ | ⟨i, k, hk, ha⟩ := h
  · obtain ⟨r, hr⟩ : ∃ r : XReg, r.val = a.toNat := ⟨⟨_, hx⟩, rfl⟩
    rw [← hr, writeMapped_scalar]
    refine ⟨rfl, rfl, fun b => ?_⟩
    simp only [readWord_writeX, hr, BitVec.toNat_inj]
  · have hle := s.build.wideLimbs_le
    rw [writeMapped_limb (j := ⟨j, hj⟩) d ha (by omega)]
    refine ⟨rfl, rfl, fun b => ?_⟩
    simp only [readWord_writeLimb d hl, ← ha, BitVec.toNat_inj]
  · have hroom := Memory.wf.index_lt hwf hk
    rw [writeMapped_element d ha hroom]
    refine ⟨rfl, rfl, fun b => ?_⟩
    simp only [readWord_writeElement d hk hroom, ← ha, BitVec.toNat_inj]

/-- A write to any other readable number but `FCAUSE` is ignored (rules R75, R395). -/
theorem writeMapped_of_not_writable (d : Word) (hsome : (readWord s a).isSome = true) (h : ¬ s.Writable a.toNat)
    (hcause : a ≠ 0x00000011) : writeMapped s a.toNat d = s := by
  rw [writeMapped, dif_neg fun hx => h (.inl hx), if_neg fun ha : a.toNat = 0x11 => hcause (BitVec.eq_of_toNat_eq ha)]
  by_cases hwide : 0x10000000 ≤ a.toNat ∧ a.toNat < 0x20000000
  · obtain ⟨j, l, hl, ha⟩ := exists_limb_of_readWord hsome hwide.1 hwide.2
    exact absurd (.inr (.inl ⟨j, l, j.isLt, hl, ha⟩)) h
  · rw [if_neg hwide]
    by_cases hdata : 0x20000000 ≤ a.toNat ∧ a.toNat < 0x30000000
    · obtain ⟨i, k, hk, -, ha⟩ := exists_element_of_readWord hsome hdata.1 hdata.2
      exact absurd (.inr (.inr ⟨i, k, hk, ha⟩)) h
    · rw [if_neg hdata]

/-- Settles O13: the port writes the one register, limb or element that the number names, or nothing. -/
theorem hostWrites : Obligations.HostWrites := by
  intro s a d rest hwf hrun hhost
  obtain ⟨u, hu⟩ : ∃ u : State, u = { s with host := rest } := ⟨_, rfl⟩
  have hread : ∀ b, readWord u b = readWord s b := fun b => hu ▸ readWord_withHost rest
  have hstep : step s = .next (hostWrite u a d) := hu ▸ step_write hrun hhost
  rw [hstep]
  refine ⟨fun hw => ?_, fun hsome hw hcause => ?_⟩
  · have hwf' : u.v.wf u.build := hu ▸ hwf
    have hw' : u.Writable a.toNat := hu ▸ hw
    obtain ⟨hkeep, hhostkeep, hwritten⟩ := writeMapped_of_writable d hwf' hw'
    rw [hostWrite_of_isSome d (readWord_of_writable hwf' hw')]
    refine ⟨_, rfl, by rw [hhostkeep, hu], rfl, ?_, fun b hb => ?_, by rw [hkeep, hu]⟩
    · rw [readWord_withAnswer, hwritten, if_pos rfl]
    · rw [readWord_withAnswer, hwritten, if_neg hb, hread]
  · rw [← hread] at hsome
    rw [hostWrite_of_isSome d hsome, writeMapped_of_not_writable d hsome (hu ▸ hw) hcause, hu]

/-! ### The frame of the data memory -/

@[simp] theorem Buffer.read_reserve (b : Buffer) (c k : Nat) : (b.reserve c).read k = b.read k := rfl

@[simp] theorem Buffer.read_shrink (b : Buffer) (k : Nat) : b.shrink.read k = b.read k := rfl

/-- A resize keeps every element below the old and the new size (rule R343). -/
theorem Buffer.read_resize_of_lt {b : Buffer} {n k : Nat} (hn : k < n) (hk : k < b.size) :
    (b.resize n).read k = b.read k := by
  rw [Buffer.read_resize b n k hn, if_pos hk, Buffer.read, List.getElem?_eq_getElem hk, List.getD_eq_getElem _ _ hk]

/-- A word that no write of a command changes is kept, since a rejection writes no buffer (rules R36, R370). -/
theorem finish_read {i : Instr} {t : State} {m : Except Exn State} (h : finish i s m = .next t) {r : VReg} {k : Nat}
    (hm : ∀ u, m = .ok u → u.v[r].read k = s.v[r].read k) : t.v[r].read k = s.v[r].read k := by
  obtain ⟨u, hu, rfl⟩ | ⟨e, -, rfl⟩ := finish_cases i s t m h
  · exact hm u hu
  · rfl

/-- Writing a buffer keeps the words that the new buffer has in common with the old one, and those of the others. -/
theorem State.read_writeV {rd r : VReg} {b : Buffer} {k : Nat} (h : r = rd → b.read k = s.v[r].read k) :
    (s.writeV rd b).v[r].read k = s.v[r].read k := by
  rw [State.writeV_get]
  split
  case isTrue hr => exact h hr.symm
  case isFalse => rfl

section

variable {t : State} {rd r : VReg} {k : Nat}

/-- `VSET` writes the word at its index only (rules R346, R348). -/
theorem exec_vset_read {ra rb : XReg} (h : exec (.vset rd ra rb) s = .next t)
    (hk : ¬ (r = rd ∧ (k : Int) = s.xInt ra)) : t.v[r].read k = s.v[r].read k := by
  refine finish_read (i := .vset rd ra rb) h fun u hu => ?_
  simp only [bind_eq_ok, boundedIndex, require_eq_ok] at hu
  obtain ⟨_, ⟨-, ⟨hlow, -⟩, ⟨⟩⟩, ⟨⟩⟩ := hu
  refine State.read_writeV fun hr => ?_
  subst hr
  exact Buffer.read_write_other _ _ _ _ fun hj => hk ⟨rfl, by rw [hj, State.xInt, Int.toNat_of_nonneg hlow]⟩

/-- `VRESIZE` writes no word below the old and the new size (rule R343). -/
theorem exec_vresize_read {ra : XReg} (h : exec (.vresize rd ra) s = .next t) (hk : k < s.v[r].size)
    (hn : r = rd → (k : Int) < s.xInt ra) : t.v[r].read k = s.v[r].read k := by
  refine finish_read (i := .vresize rd ra) h fun u hu => ?_
  simp only [bind_eq_ok] at hu
  obtain ⟨-, -, -, -, ⟨⟩⟩ := hu
  refine State.read_writeV fun hr => ?_
  subst hr
  exact Buffer.read_resize_of_lt (Int.lt_toNat.mpr (hn rfl)) hk

/-- `VRESERVE` writes no word (rule R344). -/
theorem exec_vreserve_read {ra : XReg} (h : exec (.vreserve rd ra) s = .next t) : t.v[r].read k = s.v[r].read k := by
  refine finish_read (i := .vreserve rd ra) h fun u hu => ?_
  simp only [bind_eq_ok] at hu
  obtain ⟨-, -, -, -, ⟨⟩⟩ := hu
  exact State.read_writeV fun hr => by rw [hr, Buffer.read_reserve]

/-- `VSHRINK` writes no word (rule R345). -/
theorem exec_vshrink_read (h : exec (.vshrink rd) s = .next t) : t.v[r].read k = s.v[r].read k := by
  refine finish_read (i := .vshrink rd) (m := .ok (s.writeV rd s.v[rd].shrink)) h fun u hu => ?_
  cases hu
  exact State.read_writeV fun hr => by rw [hr, Buffer.read_shrink]

end

/-- Settles O22: the word at an element number is the element, which only a write to its buffer can change. -/
theorem dataMemoryFrame : Obligations.DataMemoryFrame := by
  intro i s t r k h hk
  have hword : ∀ u : State, readWord u (.ofNat 32 (vbase r + k)) = u.v[r].read k :=
    fun u => readWord_element (toNat_number (by rw [vbase]; omega)) hk
  rw [hword, hword]
  refine ⟨fun hdest => ?_, ?_, ?_, ?_⟩
  · rw [(exec_keepsOthers i s t h).v r hdest]
  · rintro rd ra rb rfl hne
    exact exec_vset_read h hne
  · rintro rd ra rfl hsize hn
    exact exec_vresize_read h hsize hn
  · rintro rd (rfl | ⟨ra, rfl⟩)
    · exact exec_vshrink_read h
    · exact exec_vreserve_read h

/-! ### The rows of region 0 -/

theorem readWord_scalarRegister (r : XReg) : readWord s (.ofNat 32 r) = some s.x[r] := by
  have hnum : (BitVec.ofNat 32 r.val).toNat = r := toNat_number (by omega)
  rw [readWord_scalars (by omega), hnum]
  exact dif_pos r.isLt

theorem readWord_size (r : VReg) : readWord s (.ofNat 32 (0x60 + r)) = some (.ofNat 64 s.v[r].size) := by
  have hnum : (BitVec.ofNat 32 (0x60 + r.val)).toNat = 0x60 + r := toNat_number (by omega)
  rw [readWord_scalars (by omega), hnum, readScalars, dif_neg (by omega), dif_pos (by omega)]
  simp only [Nat.add_sub_cancel_left, u64, BitVec.ofInt_natCast, Fin.getElem_fin]

theorem readWord_cap (r : VReg) : readWord s (.ofNat 32 (0x68 + r)) = some (.ofNat 64 s.v[r].cap) := by
  have hnum : (BitVec.ofNat 32 (0x68 + r.val)).toNat = 0x68 + r := toNat_number (by omega)
  rw [readWord_scalars (by omega), hnum, readScalars, dif_neg (by omega), dif_neg (by omega), dif_pos (by omega)]
  simp only [Nat.add_sub_cancel_left, u64, BitVec.ofInt_natCast, Fin.getElem_fin]

/-- The bits of `CTXV` are the valid bits, and there are four of them (rule R41). -/
theorem ctxv_bits (s : State) :
    s.ctxv.toNat < 16 ∧ s.ctxv.getLsbD 0 = s.zp.isSome ∧ s.ctxv.getLsbD 1 = s.ntt.isSome ∧
      s.ctxv.getLsbD 2 = s.crt.isSome ∧ s.ctxv.getLsbD 3 = s.gal.isSome := by
  rw [State.ctxv]
  generalize s.zp.isSome = zp, s.ntt.isSome = ntt, s.crt.isSome = crt, s.gal.isSome = gal
  revert zp ntt crt gal
  decide

/-- The four fields of `HWCFG` are the parameters of the build (rule R40). -/
theorem hwcfg_fields (b : Build) :
    2 ^ ((hwcfg b).extractLsb' 0 8).toNat = b.nMax ∧ ((hwcfg b).extractLsb' 8 8).toNat = b.nPrimeMax ∧
      ((hwcfg b).extractLsb' 16 16).toNat = b.wideW ∧ ((hwcfg b).extractLsb' 32 32).toNat = b.vcapMax := by
  obtain ⟨-, hn⟩ := b.nMax_bounds
  obtain ⟨-, hp⟩ := b.nPrimeMax_bounds
  obtain ⟨-, hw⟩ := b.wideW_bounds
  have hv := b.vcapMax_le
  have hlog : b.nMax.log2 ≤ 20 := by
    by_contra hlt
    have hpow := Nat.pow_le_pow_right (show 0 < 2 by omega) (show 21 ≤ b.nMax.log2 by omega)
    rw [b.nMax_pow] at hpow
    omega
  have hnat : (hwcfg b).toNat = b.nMax.log2 + b.nPrimeMax * 2 ^ 8 + b.wideW * 2 ^ 16 + b.vcapMax * 2 ^ 32 := by
    rw [hwcfg, BitVec.toNat_ofNat]
    exact Nat.mod_eq_of_lt (by omega)
  have hfield : ((hwcfg b).extractLsb' 0 8).toNat = b.nMax.log2 := by
    rw [BitVec.extractLsb'_toNat, hnat, Nat.shiftRight_eq_div_pow]
    omega
  refine ⟨by rw [hfield, b.nMax_pow], ?_, ?_, ?_⟩ <;>
    rw [BitVec.extractLsb'_toNat, hnat, Nat.shiftRight_eq_div_pow] <;> omega

/-! ### The tables of the context slots -/

theorem readTable_isSome {α : Type} {slot : Option α} {table : α → List Word} {k : Nat} :
    (readTable slot table k).isSome = true ↔ ∃ c, slot = some c ∧ k < (table c).length := by
  cases slot <;> simp [readTable]

/-- In a good state the tables of the `NTT` slot have `NTT.N` entries each (rules R43, R75). -/
theorem State.Inv.ntt_lengths (hs : s.Inv) {c : NttCtx} (hc : s.ntt = some c) :
    c.rou.length = s.nttSize ∧ c.rouinv.length = s.nttSize ∧ s.nttSize < 0x01000000 := by
  obtain ⟨-, hn, -, -, -, -, -, -, -, -, -, -, -, -, -, hrou, hrouinv⟩ := (hs.ntt c hc).fields
  have hmax := s.build.nMax_bounds.2
  have hsize : s.nttSize = c.n.toNat := by rw [State.nttSize, hc, slotField]
  have hrou := congrArg List.length hrou
  have hrouinv := congrArg List.length hrouinv
  simp only [List.length_map, List.length_range] at hrou hrouinv
  omega

/-- In a good state the tables of the `CRT` slot have `CRT.numPrimes` entries each (rules R44, R75). -/
theorem State.Inv.crt_lengths (hs : s.Inv) {c : CrtCtx} (hc : s.crt = some c) :
    c.primes.length = s.crtSize ∧ c.miInv.length = s.crtSize ∧ c.mi.length = s.crtSize ∧ s.crtSize < 256 := by
  obtain ⟨l, -, -, -, hl, hnum, -, -, -, -, -, -, -, -, -, hmi, hmiInv⟩ := (hs.crt c hc).fields
  have hmax := s.build.nPrimeMax_bounds.2
  have hsize : s.crtSize = c.numPrimes.toNat := by rw [State.crtSize, hc, slotField]
  have hprimes := (hs.crt c hc).length_primes
  have hmi := congrArg List.length hmi
  have hmiInv := hmiInv.length_eq
  simp only [List.length_map] at hmi
  omega

theorem exists_ntt_of_lt_nttSize {k : Nat} (h : k < s.nttSize) : ∃ c, s.ntt = some c := by
  rw [State.nttSize] at h
  cases hc : s.ntt with
  | none => simp [hc, slotField] at h
  | some c => exact ⟨c, rfl⟩

theorem exists_crt_of_lt_crtSize {k : Nat} (h : k < s.crtSize) : ∃ c, s.crt = some c := by
  rw [State.crtSize] at h
  cases hc : s.crt with
  | none => simp [hc, slotField] at h
  | some c => exact ⟨c, rfl⟩

/-! ### The readable numbers are those of the map -/

/-- The rows of the map in region 0 (rule R75). -/
def ScalarRow (n : Nat) : Prop :=
  n < 0x18 ∨ n = 0x20 ∨ n = 0x21 ∨ (0x30 ≤ n ∧ n ≤ 0x34) ∨ (0x40 ≤ n ∧ n ≤ 0x43) ∨ n = 0x50 ∨
    (0x60 ≤ n ∧ n < 0x70)

/-- The rows of the map in region 3 (rule R75). -/
def State.TableRow (s : State) (n : Nat) : Prop :=
  (∃ k : Nat, k < s.nttSize ∧ (n = 0x30000000 + k ∨ n = 0x31000000 + k)) ∨
  (∃ i : Nat, i < s.crtSize ∧ (n = 0x32000000 + i ∨ n = 0x33000000 + i)) ∨
  (∃ l : Nat, l < s.build.wideLimbs ∧ n = 0x34000000 + l) ∨
  ∃ i l : Nat, i < s.crtSize ∧ l < s.build.wideLimbs ∧ n = 0x35000000 + 0x100 * i + l

/-- The map, region by region (rule R75). -/
theorem State.mapped_iff {n : Nat} :
    s.Mapped n ↔ ScalarRow n ∨
      (∃ j l : Nat, j < 4 ∧ l < s.build.wideLimbs ∧ n = 0x10000000 + 0x100 * j + l) ∨
      (∃ (i : VReg) (k : Nat), k < s.v[i].size ∧ n = 0x20000000 + 0x01000000 * i + k) ∨ s.TableRow n := by
  simp only [State.Mapped, ScalarRow, State.TableRow, or_assoc]

theorem readScalars_isSome_iff {n : Nat} : (readScalars s n).isSome = true ↔ ScalarRow n := by
  constructor
  · intro h
    unfold ScalarRow
    rw [readScalars] at h
    split_ifs at h
    · omega
    · omega
    · omega
    · split at h
      case h_21 => cases h
      all_goals omega
  · rintro (h | rfl | rfl | ⟨h, h'⟩ | ⟨h, h'⟩ | rfl | ⟨h, h'⟩)
    any_goals rfl
    all_goals interval_cases n <;> rfl

/-- A readable number of region 3 is in a table of a valid slot, or a limb of `CRT.M` (rules R43, R44, R75). -/
theorem tableRow_of_readWord (hs : s.Inv) (hlow : 0x30000000 ≤ a.toNat) (h : (readWord s a).isSome = true) :
    s.TableRow a.toNat := by
  have h1 : ¬ a.toNat < 0x10000000 := by omega
  have h2 : ¬ a.toNat < 0x20000000 := by omega
  have h3 : ¬ a.toNat < 0x30000000 := by omega
  simp only [readWord, if_neg h1, if_neg h2, if_neg h3] at h
  split_ifs at h
  · obtain ⟨c, hc, hk⟩ := readTable_isSome.mp h
    obtain ⟨hrou, -, -⟩ := hs.ntt_lengths hc
    exact .inl ⟨_, hrou ▸ hk, by omega⟩
  · obtain ⟨c, hc, hk⟩ := readTable_isSome.mp h
    obtain ⟨-, hrouinv, -⟩ := hs.ntt_lengths hc
    exact .inl ⟨_, hrouinv ▸ hk, by omega⟩
  · obtain ⟨c, hc, hk⟩ := readTable_isSome.mp h
    obtain ⟨hprimes, -, -, -⟩ := hs.crt_lengths hc
    exact .inr (.inl ⟨_, hprimes ▸ hk, by omega⟩)
  · obtain ⟨c, hc, hk⟩ := readTable_isSome.mp h
    obtain ⟨-, hmiInv, -, -⟩ := hs.crt_lengths hc
    exact .inr (.inl ⟨_, hmiInv ▸ hk, by omega⟩)
  · have hl := (Option.ite_none_right_eq_some.mp (Option.eq_some_of_isSome h)).1
    exact .inr (.inr (.inl ⟨_, hl, by omega⟩))
  · obtain ⟨hl, hread⟩ := Option.ite_none_right_eq_some.mp (Option.eq_some_of_isSome h)
    obtain ⟨c, hc, hk⟩ := readTable_isSome.mp (Option.isSome_of_eq_some hread)
    obtain ⟨-, -, hmi, -⟩ := hs.crt_lengths hc
    rw [List.length_map, hmi] at hk
    exact .inr (.inr (.inr ⟨_, _, hk, hl, by omega⟩))

theorem readWord_of_tableRow (hs : s.Inv) (h : s.TableRow a.toNat) : (readWord s a).isSome = true := by
  obtain ⟨k, hk, ha⟩ | ⟨k, hk, ha⟩ | ⟨l, hl, ha⟩ | ⟨i, l, hi, hl, ha⟩ := h
  · obtain ⟨c, hc⟩ := exists_ntt_of_lt_nttSize hk
    obtain ⟨hrou, hrouinv, hroom⟩ := hs.ntt_lengths hc
    obtain ha | ha := ha
    · rw [readWord_rou ha (hk.trans hroom), readTable_isSome]
      exact ⟨c, hc, hrou ▸ hk⟩
    · rw [readWord_rouinv ha (hk.trans hroom), readTable_isSome]
      exact ⟨c, hc, hrouinv ▸ hk⟩
  · obtain ⟨c, hc⟩ := exists_crt_of_lt_crtSize hk
    obtain ⟨hprimes, hmiInv, -, hroom⟩ := hs.crt_lengths hc
    obtain ha | ha := ha
    · rw [readWord_primes ha (by omega), readTable_isSome]
      exact ⟨c, hc, hprimes ▸ hk⟩
    · rw [readWord_miInv ha (by omega), readTable_isSome]
      exact ⟨c, hc, hmiInv ▸ hk⟩
  · rw [readWord_bigM ha hl]
    rfl
  · obtain ⟨c, hc⟩ := exists_crt_of_lt_crtSize hi
    obtain ⟨-, -, hmi, -⟩ := hs.crt_lengths hc
    rw [readWord_cofactor ha hl, readTable_isSome]
    exact ⟨c, hc, by rwa [List.length_map, hmi]⟩

theorem mapped_of_readWord (hs : s.Inv) (h : (readWord s a).isSome = true) : s.Mapped a.toNat := by
  rw [State.mapped_iff]
  by_cases h1 : a.toNat < 0x10000000
  · rw [readWord_scalars h1] at h
    exact .inl (readScalars_isSome_iff.mp h)
  by_cases h2 : a.toNat < 0x20000000
  · obtain ⟨j, l, hl, ha⟩ := exists_limb_of_readWord h (by omega) h2
    exact .inr (.inl ⟨j, l, j.isLt, hl, ha⟩)
  by_cases h3 : a.toNat < 0x30000000
  · obtain ⟨i, k, hk, -, ha⟩ := exists_element_of_readWord h (by omega) h3
    exact .inr (.inr (.inl ⟨i, k, hk, ha⟩))
  · exact .inr (.inr (.inr (tableRow_of_readWord hs (by omega) h)))

theorem readWord_of_mapped (hs : s.Inv) (h : s.Mapped a.toNat) : (readWord s a).isSome = true := by
  obtain hrow | hlimb | helem | htable := State.mapped_iff.mp h
  · have hlow : a.toNat < 0x70 := by unfold ScalarRow at hrow; omega
    rw [readWord_scalars (by omega)]
    exact readScalars_isSome_iff.mpr hrow
  · exact readWord_of_writable hs.memory (.inr (.inl hlimb))
  · exact readWord_of_writable hs.memory (.inr (.inr helem))
  · exact readWord_of_tableRow hs htable

/-- Settles O11: each row is read in its region, and in a good state nothing outside the rows is. -/
theorem registerMapReads : Obligations.RegisterMapReads := by
  intro s
  have hle := s.build.wideLimbs_le
  refine ⟨fun r => readWord_scalarRegister r, ?_, rfl, rfl, rfl, rfl, ⟨_, rfl, ctxv_bits s⟩,
    ⟨_, rfl, hwcfg_fields s.build⟩, rfl, rfl, rfl, rfl, rfl, rfl, rfl, rfl, rfl, rfl, rfl, rfl, rfl,
    fun r => ⟨readWord_size r, readWord_cap r⟩, fun r l hl => ?_, fun r k hk => ?_, fun c k hc hk => ?_,
    fun c k hc hk => ?_, fun c l hc hl => ⟨?_, fun i m hm hi => ?_⟩, fun l hc hl => ?_,
    fun hs a => ⟨mapped_of_readWord hs, readWord_of_mapped hs⟩⟩
  · show some s.status = _
    simp only [State.status, State.faultOut, beq_iff_eq]
  · exact readWord_limb (toNat_number (by omega)) hl
  · exact readWord_element (toNat_number (by omega)) hk
  · rw [readWord_rou (toNat_number (by omega)) hk, readWord_rouinv (toNat_number (by omega)) hk, hc]
    exact ⟨rfl, rfl⟩
  · rw [readWord_primes (toNat_number (by omega)) hk, readWord_miInv (toNat_number (by omega)) hk, hc]
    exact ⟨rfl, rfl⟩
  · rw [readWord_bigM (toNat_number (by omega)) hl, hc]
    rfl
  · rw [readWord_cofactor (toNat_number (by omega)) hl, hc, readTable, List.getElem?_map, hm]
    rfl
  · rw [readWord_bigM (toNat_number (by omega)) hl, hc]
    rfl

end Sys2Proof.Machine

/-! The encoding: a word decodes to a command exactly when it is that command's word (rules R101 to R108), and the
opcode table says the same by mask and match (rule R104). -/

namespace Sys2Proof

/-! ### Words and their fields -/

/-- A word put together from fields is the format R word of their numbers (rule R101). -/
theorem Fields.toWord_eq_formatR (f : Fields) :
    f.toWord = formatR f.op.toNat f.rd.toNat f.ra.toNat f.rb.toNat f.rc.toNat f.imm8.toNat := by
  rw [← BitVec.toNat_inj, toNat_formatR f.op.isLt f.rd.isLt f.ra.isLt f.rb.isLt f.rc.isLt f.imm8.isLt]
  show (f.op ++ f.rd ++ f.ra ++ f.rb ++ f.rc ++ f.imm8).toNat = _
  simp only [BitVec.toNat_append, ← Nat.shiftLeft_add_eq_or_of_lt (BitVec.isLt _)]
  omega

theorem Fields.ofWord_toWord (f : Fields) : Fields.ofWord f.toWord = f := by
  rw [toWord_eq_formatR, ofWord_formatR f.op.isLt f.rd.isLt f.ra.isLt f.rb.isLt f.rc.isLt f.imm8.isLt]
  simp only [BitVec.ofNat_toNat, BitVec.setWidth_eq]

open BitVec in
theorem Fields.toWord_ofWord (c : CmdWord) : (Fields.ofWord c).toWord = c := by
  simp only [ofWord, toWord]
  rw [extractLsb'_append_extractLsb'_eq_extractLsb' (rfl : 24 = 20 + 4),
    extractLsb'_append_extractLsb'_eq_extractLsb' (rfl : 20 = 16 + 4),
    extractLsb'_append_extractLsb'_eq_extractLsb' (rfl : 16 = 12 + 4),
    extractLsb'_append_extractLsb'_eq_extractLsb' (rfl : 12 = 8 + 4),
    extractLsb'_append_extractLsb'_eq_extractLsb' (rfl : 8 = 0 + 8)]
  exact extractLsb'_eq_self

theorem Fields.toWord_inj {f g : Fields} : f.toWord = g.toWord ↔ f = g :=
  ⟨fun h => by rw [← ofWord_toWord f, h, ofWord_toWord], congrArg toWord⟩

/-- The conjunction of two words is taken field by field. -/
theorem Fields.toWord_and (f g : Fields) :
    f.toWord &&& g.toWord =
      toWord ⟨f.op &&& g.op, f.rd &&& g.rd, f.ra &&& g.ra, f.rb &&& g.rb, f.rc &&& g.rc, f.imm8 &&& g.imm8⟩ := by
  simp only [toWord]
  iterate 5 rw [BitVec.and_append]

/-- The immediate of format I, put together again from its three parts (rule R102). -/
theorem Fields.imm16_of_parts (op : BitVec 8) (rd ra : BitVec 4) (imm : BitVec 16) :
    Fields.imm16 ⟨op, rd, ra, imm.extractLsb' 12 4, imm.extractLsb' 8 4, imm.extractLsb' 0 8⟩ = imm := by
  rw [imm16, BitVec.extractLsb'_append_extractLsb'_eq_extractLsb' (rfl : 12 = 8 + 4),
    BitVec.extractLsb'_append_extractLsb'_eq_extractLsb' (rfl : 8 = 0 + 8)]
  exact BitVec.extractLsb'_eq_self

open BitVec in
/-- The three parts of the immediate of format I (rule R102). -/
theorem Fields.parts_imm16 (f : Fields) :
    f.imm16.extractLsb' 12 4 = f.rb ∧ f.imm16.extractLsb' 8 4 = f.rc ∧ f.imm16.extractLsb' 0 8 = f.imm8 :=
  ⟨(extractLsb'_append_eq_of_le (xhi := f.rb ++ f.rc) (by decide)).trans extractLsb'_append_eq_left,
    (extractLsb'_append_eq_of_le (xhi := f.rb ++ f.rc) le_rfl).trans extractLsb'_append_eq_right,
    extractLsb'_append_eq_right⟩

/-! ### Operands and the fields that name them

A field is in its class exactly when encoding the operand read from it gives the field back. -/

@[simp] theorem xOf_xBits (r : XReg) : xOf (xBits r) = r := rfl

@[simp] theorem wOf_wBits (r : WReg) : wOf (wBits r) = r := wOf_ofNat r

@[simp] theorem vOf_vBits (r : VReg) : vOf (vBits r) = r := vOf_ofNat r

/-- What encoding writes to a 4-bit field for the operand that decoding reads from it. -/
def FieldClass.reencode : FieldClass → BitVec 4 → BitVec 4
  | .x, b => xBits (xOf b)
  | .w, b => wBits (wOf b)
  | .v, b => vBits (vOf b)
  | .zero, _ => 0
  | .imm, b => b

/-- What encoding writes to bits 7:0 for the operand that decoding reads from them. -/
def ImmClass.reencode : ImmClass → BitVec 8 → BitVec 8
  | .zero, _ => 0
  | .sel, b => if b.getLsbD 0 then 1 else 0
  | .imm, b => b

/-- The fields that encoding writes for the command that decoding reads from these. -/
def Shape.reencode (sh : Shape) (f : Fields) : Fields :=
  ⟨f.op, sh.rd.reencode f.rd, sh.ra.reencode f.ra, sh.rb.reencode f.rb, sh.rc.reencode f.rc,
    sh.imm.reencode f.imm8⟩

theorem FieldClass.allows_iff_reencode (k : FieldClass) : ∀ b, k.allows b = true ↔ k.reencode b = b := by
  cases k <;> decide

theorem ImmClass.allows_iff_reencode (k : ImmClass) : ∀ b, k.allows b = true ↔ k.reencode b = b := by
  cases k <;> decide

/-- Fields are well-formed exactly when each is in its class (rule R106). -/
theorem Shape.firstBad_eq_none_iff (sh : Shape) (f : Fields) :
    sh.firstBad f = none ↔ sh.rd.allows f.rd = true ∧ sh.ra.allows f.ra = true ∧ sh.rb.allows f.rb = true ∧
      sh.rc.allows f.rc = true ∧ sh.imm.allows f.imm8 = true := by
  simp only [Shape.firstBad]
  split_ifs <;> simp_all

theorem Shape.firstBad_eq_none_iff_reencode (sh : Shape) (f : Fields) :
    sh.firstBad f = none ↔ sh.reencode f = f := by
  rw [firstBad_eq_none_iff, reencode, Fields.mk.injEq]
  simp only [FieldClass.allows_iff_reencode, ImmClass.allows_iff_reencode, true_and]

/-! ### What decodes, and to what -/

/-- The command built from any fields has these fields again, each re-encoded by its class: an opcode has a shape
exactly when it has a command, and the operands of the command are where the shape says (rule R104). -/
theorem map_fields_build (f : Fields) :
    (build f).map Instr.fields = (shapeOf f.op).map fun sh => sh.reencode f := by
  obtain ⟨op, rd, ra, rb, rc, imm8⟩ := f
  unfold build shapeOf
  dsimp only
  split
  case h_54 => rfl -- an unassigned opcode
  all_goals
    rename_i hop
    obtain ⟨-, rfl⟩ := BitVec.toNat_eq_nat.mp hop
  case h_2 | h_3 => -- format I, `LI` and `LSI`
    simp [Instr.fields, Shape.reencode, FieldClass.reencode, ImmClass.reencode, Fields.parts_imm16]
  all_goals rfl

/-- Building from a command's own fields gives the command back (rule R104). -/
theorem build_fields (i : Instr) : build i.fields = some i := by
  cases i with
  | li | lsi => simp [Instr.fields, build, Fields.imm16_of_parts]
  | nttRaw rd sel => cases sel <;> simp [Instr.fields, build]
  | _ => simp [Instr.fields, build]

theorem exists_build {f : Fields} {sh : Shape} (h : shapeOf f.op = some sh) : ∃ i, build f = some i := by
  have hmap := map_fields_build f
  rw [h, Option.map_some, Option.map_eq_some_iff] at hmap
  obtain ⟨i, hbuild, -⟩ := hmap
  exact ⟨i, hbuild⟩

theorem decodeFields_eq_ok_iff (f : Fields) (i : Instr) :
    decodeFields f = .ok i ↔ build f = some i ∧ ∃ sh, shapeOf f.op = some sh ∧ sh.firstBad f = none := by
  unfold decodeFields
  cases shapeOf f.op <;> cases build f <;> simp
  split <;> simp_all

/-- Fields decode to a command exactly when it is built from them and they are its own fields: the checks of rule R106
say no more and no less than the second. -/
theorem decodeFields_eq_ok_iff_fields (f : Fields) (i : Instr) :
    decodeFields f = .ok i ↔ build f = some i ∧ i.fields = f := by
  rw [decodeFields_eq_ok_iff]
  refine and_congr_right fun hbuild => ?_
  have hmap := map_fields_build f
  rw [hbuild, Option.map_some, eq_comm, Option.map_eq_some_iff] at hmap
  obtain ⟨sh, hsh, hfields⟩ := hmap
  rw [hsh, ← hfields]
  simp [Shape.firstBad_eq_none_iff_reencode]

/-- The fields of a word are those of the command it decodes to. -/
theorem fields_of_decode {c : CmdWord} {i : Instr} (h : decode c = .ok i) : i.fields = Fields.ofWord c :=
  ((decodeFields_eq_ok_iff_fields _ _).mp h).2

/-- Settles O1: the fields survive the word, and a command is built from its own fields. -/
theorem decodeOfEncodedCommand : Obligations.DecodeOfEncodedCommand := by
  intro i
  rw [decode, encode, Fields.ofWord_toWord]
  exact (decodeFields_eq_ok_iff_fields _ _).mpr ⟨build_fields i, rfl⟩

/-- Settles O2: the word of the command has the fields of the word decoded. -/
theorem encodeOfDecodedWord : Obligations.EncodeOfDecodedWord := by
  intro c i h
  rw [encode, fields_of_decode h, Fields.toWord_ofWord]

/-! ### The opcode table

A row's value is its opcode, and its mask covers the opcode and the bits that the classes of its shape require to be
zero. So the row covers a word exactly when the word has its opcode and decodes. -/

/-- The bits of a field that its class requires to be zero (rules R105, R106). -/
def FieldClass.mask : FieldClass → BitVec 4
  | .x => 0x0
  | .w => 0xC
  | .v => 0x8
  | .zero => 0xF
  | .imm => 0x0

/-- The bits of 7:0 that their class requires to be zero (rule R106). -/
def ImmClass.mask : ImmClass → BitVec 8
  | .zero => 0xFF
  | .sel => 0xFE
  | .imm => 0x00

/-- The mask of a shape: the whole opcode, and the bits required to be zero (rule R104). -/
def Shape.mask (sh : Shape) : Fields :=
  ⟨0xFF, sh.rd.mask, sh.ra.mask, sh.rb.mask, sh.rc.mask, sh.imm.mask⟩

/-- The word of an opcode with every other bit zero. -/
def opcodeWord (op : BitVec 8) : CmdWord := Fields.toWord ⟨op, 0, 0, 0, 0, 0⟩

/-- The opcode a row of the table is about. -/
def TableRow.opcode (r : TableRow) : BitVec 8 := (Fields.ofWord r.value).op

theorem FieldClass.allows_iff_mask (k : FieldClass) : ∀ b, k.allows b = true ↔ b &&& k.mask = 0 := by
  cases k <;> decide

theorem ImmClass.allows_iff_mask (k : ImmClass) : ∀ b, k.allows b = true ↔ b &&& k.mask = 0 := by
  cases k <;> decide

/-- Mask and match test the opcode and the classes of the fields (rules R104, R106). -/
theorem Shape.and_mask_iff (sh : Shape) (op : BitVec 8) (c : CmdWord) :
    c &&& sh.mask.toWord = opcodeWord op ↔ (Fields.ofWord c).op = op ∧ sh.firstBad (Fields.ofWord c) = none := by
  have hop : ∀ b : BitVec 8, b &&& 0xFF = b := by decide
  conv_lhs => rw [← Fields.toWord_ofWord c, Fields.toWord_and, opcodeWord, Fields.toWord_inj, Fields.mk.injEq]
  simp only [mask, hop, firstBad_eq_none_iff, FieldClass.allows_iff_mask, ImmClass.allows_iff_mask]

/-- Each row of the table is its opcode's shape as a value and a mask. -/
theorem shapeOf_row : ∀ row ∈ opcodeTable,
    row.value = opcodeWord row.opcode ∧ (shapeOf row.opcode).map (fun sh => sh.mask.toWord) = some row.mask := by
  decide

/-- A row covers the words that decode to a command of its opcode. -/
theorem TableRow.covers_iff {row : TableRow} (hrow : row ∈ opcodeTable) (c : CmdWord) :
    row.covers c = true ↔ ∃ i, decode c = .ok i ∧ i.fields.op = row.opcode := by
  obtain ⟨hvalue, hmask⟩ := shapeOf_row row hrow
  obtain ⟨sh, hsh, hmask⟩ := Option.map_eq_some_iff.mp hmask
  rw [covers, beq_iff_eq, hvalue, ← hmask, sh.and_mask_iff]
  constructor
  · rintro ⟨hop, hgood⟩
    rw [← hop] at hsh
    obtain ⟨i, hbuild⟩ := exists_build hsh
    have hi : decode c = .ok i := (decodeFields_eq_ok_iff _ _).mpr ⟨hbuild, sh, hsh, hgood⟩
    exact ⟨i, hi, by rw [fields_of_decode hi, hop]⟩
  · rintro ⟨i, hi, hop⟩
    rw [fields_of_decode hi] at hop
    obtain ⟨-, sh', hsh', hgood⟩ := (decodeFields_eq_ok_iff _ _).mp hi
    rw [hop, hsh, Option.some.injEq] at hsh'
    exact ⟨hop, hsh' ▸ hgood⟩

/-- The first row with a command's opcode has its mnemonic. -/
theorem find_opcode (i : Instr) :
    (opcodeTable.find? fun row => row.opcode = i.fields.op).map TableRow.mnemonic = some i.mnemonic := by
  cases i <;> rfl

theorem exists_row (i : Instr) : ∃ row ∈ opcodeTable, row.opcode = i.fields.op ∧ row.mnemonic = i.mnemonic := by
  obtain ⟨row, hfind, hname⟩ := Option.map_eq_some_iff.mp (find_opcode i)
  exact ⟨row, List.mem_of_find?_eq_some hfind, by simpa using List.find?_some hfind, hname⟩

theorem nodup_opcode : (opcodeTable.map TableRow.opcode).Nodup := by decide

theorem nodup_mnemonic : (opcodeTable.map TableRow.mnemonic).Nodup := by decide

/-- A row has a command's mnemonic exactly when it has its opcode, since no two rows share either. -/
theorem mnemonic_eq_iff (i : Instr) {row : TableRow} (hrow : row ∈ opcodeTable) :
    i.mnemonic = row.mnemonic ↔ i.fields.op = row.opcode := by
  obtain ⟨own, hown, hop, hname⟩ := exists_row i
  rw [← hop, ← hname]
  constructor
  · exact fun h => congrArg _ (List.inj_on_of_nodup_map nodup_mnemonic hown hrow h)
  · exact fun h => congrArg _ (List.inj_on_of_nodup_map nodup_opcode hown hrow h)

/-- Settles O3: the row that covers a word is the one of the opcode of the command it decodes to. -/
theorem opcodeTableDecoding : Obligations.OpcodeTableDecoding := by
  refine ⟨rfl, fun c row hrow => ?_, fun c r q hr hq hrc hqc => ?_, fun c => ⟨?_, ?_⟩⟩
  · simp only [TableRow.covers_iff hrow, mnemonic_eq_iff _ hrow]
  · obtain ⟨i, hi, hir⟩ := (TableRow.covers_iff hr c).mp hrc
    obtain ⟨j, hj, hjq⟩ := (TableRow.covers_iff hq c).mp hqc
    obtain rfl : i = j := Except.ok.inj (hi.symm.trans hj)
    exact List.inj_on_of_nodup_map nodup_opcode hr hq (hir.symm.trans hjq)
  · rintro ⟨i, hi⟩
    obtain ⟨row, hrow, hop, -⟩ := exists_row i
    exact ⟨row, hrow, (TableRow.covers_iff hrow c).mpr ⟨i, hi, hop.symm⟩⟩
  · rintro ⟨row, hrow, hcovers⟩
    obtain ⟨i, hi, -⟩ := (TableRow.covers_iff hrow c).mp hcovers
    exact ⟨i, hi⟩

namespace Machine

/-! ### The step on a presented command -/

/-- In IDLE the oldest action of the host is taken up, whatever it is (rules R35, R430). -/
theorem nextAction_of_idle {s : State} {x : HostAction} {rest : List HostAction} (hrun : s.run = .idle)
    (hhost : s.host = x :: rest) : s.nextAction = some (x, { s with host := rest }) := by
  rw [State.nextAction, hrun, hhost]
  rfl

theorem step_command {s : State} {c : CmdWord} {rest : List HostAction} (hrun : s.run = .idle)
    (hhost : s.host = .command c :: rest) : step s = runCommand c { s with host := rest } := by
  rw [step, nextAction_of_idle hrun hhost]

/-- Settles O5: the command is the next action, and its word decodes. -/
theorem stepRunsDecodedCommand : Obligations.StepRunsDecodedCommand := by
  intro s c rest i hrun hhost hi
  rw [step_command hrun hhost, runCommand, hi]

/-! ### `LI64` -/

theorem runProgram_cons {i : Instr} {s t : State} (h : exec i s = .next t) (hrun : t.run ≠ .faulted)
    (rest : List Instr) : runProgram (i :: rest) s = runProgram rest t := by
  rw [runProgram, h]
  exact if_neg hrun

/-- What an `LSI` leaves in its register when it finds `d` there (rule R132). -/
def shiftIn (d : Word) (imm : BitVec 16) : Word := u64 (d.toNat * 65536 + imm.toNat)

theorem toNat_shiftIn (d : Word) (imm : BitVec 16) :
    (shiftIn d imm).toNat = (d.toNat * 65536 + imm.toNat) % 2 ^ 64 := by
  have hcast : (d.toNat * 65536 + imm.toNat : Int) = (d.toNat * 65536 + imm.toNat : Nat) := by push_cast; rfl
  rw [shiftIn, u64, hcast, BitVec.ofInt_natCast, BitVec.toNat_ofNat]

/-- Sign extension keeps the low 16 bits. -/
theorem toNat_sext16_mod (imm : BitVec 16) : (sext16 imm).toNat % 65536 = imm.toNat := by
  rw [sext16, BitVec.toNat_signExtend, BitVec.toNat_setWidth]
  split <;> omega

/-- The three shifts move the bits of the sign extension above bit 15 out of the register (rule R111). -/
theorem shiftIn_extractLsb' (c : Word) :
    shiftIn (shiftIn (shiftIn (sext16 (c.extractLsb' 48 16)) (c.extractLsb' 32 16)) (c.extractLsb' 16 16))
      (c.extractLsb' 0 16) = c := by
  have htop := toNat_sext16_mod (c.extractLsb' 48 16)
  rw [← BitVec.toNat_inj]
  simp only [toNat_shiftIn, BitVec.extractLsb'_toNat, Nat.shiftRight_eq_div_pow] at *
  omega

theorem runProgram_li {s : State} (hrun : s.run = .idle) (rd : XReg) (imm : BitVec 16) (rest : List Instr) :
    runProgram (.li rd imm :: rest) s = runProgram rest { s.writeX rd (sext16 imm) with cseq := s.cseq + 1 } :=
  runProgram_cons rfl (by simp [hrun]) rest

theorem runProgram_lsi {s : State} (hrun : s.run = .idle) (rd : XReg) (imm : BitVec 16) (d n : Word)
    (rest : List Instr) :
    runProgram (.lsi rd imm :: rest) { s.writeX rd d with cseq := n } =
      runProgram rest { s.writeX rd (shiftIn d imm) with cseq := n + 1 } := by
  have hexec : exec (.lsi rd imm) { s.writeX rd d with cseq := n } =
      .next { s.writeX rd (shiftIn d imm) with cseq := n + 1 } := by
    simp [exec, execLsi, State.writeX, State.retire, shiftIn]
  exact runProgram_cons hexec (by simp [hrun]) rest

/-- Settles O27: the four commands run one after the other, and the last leaves the constant. -/
theorem loadWideConstant : Obligations.LoadWideConstant := by
  intro s rd c hrun
  rw [runProgram_li hrun, runProgram_lsi hrun, runProgram_lsi hrun, runProgram_lsi hrun, shiftIn_extractLsb',
    runProgram, add_assoc, add_assoc, add_assoc]
  rfl

end Machine

end Sys2Proof

/-! Housekeeping: format I words written as numbers, a command that begins with a check, and what the commands of
family 0 answer. -/

namespace Sys2Proof

/-! ### Words that decode to a given command -/

/-- A command is what one word decodes to, its own (rules R101 to R108). -/
theorem decode_eq_ok_iff (c : CmdWord) (i : Instr) : decode c = .ok i ↔ encode i = c :=
  ⟨encodeOfDecodedWord c i, fun h => h ▸ decodeOfEncodedCommand i⟩

/-- Settles O4: each of the words is the encoding of its command. -/
theorem decodingOfSampleWords : Obligations.DecodingOfSampleWords := by
  unfold Obligations.DecodingOfSampleWords
  simp only [decode_eq_ok_iff]
  decide

/-- A format I word is the format R word whose last three fields are the parts of the immediate (rules R101, R102). -/
theorem formatI_eq_formatR (op rd : Nat) (imm : BitVec 16) :
    formatI op rd imm = formatR op rd 0 (imm.extractLsb' 12 4).toNat (imm.extractLsb' 8 4).toNat
      (imm.extractLsb' 0 8).toNat := by
  simp only [formatI, formatR, BitVec.extractLsb'_toNat, Nat.shiftRight_eq_div_pow]
  exact congrArg _ (by omega)

theorem decode_li (rd : XReg) (imm : BitVec 16) : decode (formatI 0x01 rd imm) = .ok (.li rd imm) := by
  rw [decode_eq_ok_iff, formatI_eq_formatR, encode, Fields.toWord_eq_formatR]
  rfl

theorem decode_lsi (rd : XReg) (imm : BitVec 16) : decode (formatI 0x02 rd imm) = .ok (.lsi rd imm) := by
  rw [decode_eq_ok_iff, formatI_eq_formatR, encode, Fields.toWord_eq_formatR]
  rfl

theorem decode_mov (rd ra : XReg) : decode (formatR 0x03 rd ra 0 0 0) = .ok (.mov rd ra) :=
  decode_formatR rfl (by simp [build, xOf]) (by simp [Shape.firstBad])

theorem decode_wmov (rd ra : WReg) : decode (formatR 0x04 rd ra 0 0 0) = .ok (.wmov rd ra) :=
  decode_formatR rfl (by simp [build]) (by simp [Shape.firstBad])

theorem decode_wsetx (rd : WReg) (ra : XReg) : decode (formatR 0x05 rd ra 0 0 0) = .ok (.wsetx rd ra) :=
  decode_formatR rfl (by simp [build, xOf]) (by simp [Shape.firstBad])

theorem decode_wgetx (rd : XReg) (ra : WReg) : decode (formatR 0x06 rd ra 0 0 0) = .ok (.wgetx rd ra) :=
  decode_formatR rfl (by simp [build, xOf]) (by simp [Shape.firstBad])

theorem decode_vmov (rd ra : VReg) : decode (formatR 0x07 rd ra 0 0 0) = .ok (.vmov rd ra) :=
  decode_formatR rfl (by simp [build]) (by simp [Shape.firstBad])

namespace Machine

/-! ### A command that begins with a check -/

/-- A command whose check holds goes on behind it (rule R9). -/
theorem finish_require_of_pos {c : Prop} [Decidable c] (h : c) (i : Instr) (s : State) (cause : FaultCause)
    (info : Word) (f : Unit → Except Exn State) :
    finish i s (require c cause info >>= f) = finish i s (f ()) := by
  rw [require_of_pos h]
  rfl

/-- A command whose check fails is rejected with the cause and the information of the check (rules R9, R372). -/
theorem finish_require_of_neg {c : Prop} [Decidable c] (h : ¬ c) (i : Instr) (s : State) (cause : FaultCause)
    (info : Word) (f : Unit → Except Exn State) :
    finish i s (require c cause info >>= f) = .next (s.rejected i cause info) := by
  rw [require_of_neg h]
  rfl

/-! ### Scalars -/

/-- `LSI` shifts and fills in over the numbers, and the pattern keeps 64 bits of the result (rule R132). -/
theorem shiftIn_eq_ofNat (d : Word) (imm : BitVec 16) : shiftIn d imm = .ofNat 64 (d.toNat * 65536 + imm.toNat) := by
  rw [← BitVec.toNat_inj, toNat_shiftIn, BitVec.toNat_ofNat]

theorem exec_lsi (rd : XReg) (imm : BitVec 16) (s : State) :
    exec (.lsi rd imm) s = .next { s.writeX rd (shiftIn s.x[rd] imm) with cseq := s.cseq + 1 } := rfl

/-- Settles O25: no meaning of the four makes a check, and `sext16` is `u64` of the signed immediate. -/
theorem scalarHousekeeping : Obligations.ScalarHousekeeping := by
  intro s rd ra imm
  refine ⟨(decode_eq_ok_iff _ _).mpr rfl, rfl, decode_li rd imm, rfl, decode_lsi rd imm, ?_, decode_mov rd ra, rfl⟩
  rw [exec_lsi, shiftIn_eq_ofNat]

/-! ### Wide registers and buffers -/

theorem fitsMachine_iff (n : Int) : fitsMachine n = true ↔ -2 ^ 63 ≤ n ∧ n < 2 ^ 63 := decide_eq_true_iff

/-- A wide value of the machine range goes to the scalar register (rule R136). -/
theorem exec_wgetx_of_fits {s : State} (rd : XReg) {ra : WReg} (h : fitsMachine (s.wInt ra) = true) :
    exec (.wgetx rd ra) s = .next { s.writeX rd (u64 (s.wInt ra)) with cseq := s.cseq + 1 } :=
  finish_require_of_pos h _ _ _ _ _

/-- A wide value outside the machine range is refused (rule R136). -/
theorem exec_wgetx_of_not_fits {s : State} (rd : XReg) {ra : WReg} (h : ¬ fitsMachine (s.wInt ra) = true) :
    exec (.wgetx rd ra) s = .next (s.rejected (.wgetx rd ra) .wideOverflow 0) :=
  finish_require_of_neg h _ _ _ _ _

/-- The elements of a buffer of the form of rule R29 fit every buffer, so `VMOV` retires (rule R137). -/
theorem exec_vmov {s : State} (rd ra : VReg) (hwf : s.v.wf s.build) :
    exec (.vmov rd ra) s =
      .next { s.writeV rd ⟨s.v[ra].elems, max s.v[rd].cap s.v[ra].size⟩ with cseq := s.cseq + 1 } := by
  obtain ⟨hsize, hcap⟩ := hwf ra
  have hlen : (s.elems ra).length = s.v[ra].size := List.length_map _
  rw [exec, execVmov, finish_vecAssign_of_le _ _ (hlen ▸ hsize.trans hcap), hlen, State.elems, map_u64_map_sint]

/-- Settles O26: `WSETX` extends the sign, `WGETX` checks the range and `VMOV` is a `VecAssign` that fits. -/
theorem wideAndBufferMoves : Obligations.WideAndBufferMoves := by
  intro s wd wa xd xa rd ra
  refine ⟨decode_wmov wd wa, rfl, decode_wsetx wd xa, ⟨widen s.build s.x[xa], isPatternOf_widen _ _, rfl⟩,
    decode_wgetx xd wa, fun hlow hhigh => ?_, fun hout => ?_, decode_vmov rd ra, exec_vmov rd ra⟩
  · exact ⟨u64 (s.wInt wa), sint_u64 _ hlow hhigh, exec_wgetx_of_fits xd ((fitsMachine_iff _).mpr ⟨hlow, hhigh⟩)⟩
  · exact exec_wgetx_of_not_fits xd (mt (fitsMachine_iff _).mp hout)

end Machine

end Sys2Proof

/-! NumberTheory: how a command that writes a residue to a wide register ends, and what the commands of family 1
answer (rules R151 to R160). -/

namespace Sys2Proof

theorem decode_ntModinv (rd ra rb : WReg) : decode (formatR 0x10 rd ra rb 0 0) = .ok (.ntModinv rd ra rb) :=
  decode_formatR rfl (by simp [build]) (by simp [Shape.firstBad])

theorem decode_ntModexp (rd ra rb rc : WReg) :
    decode (formatR 0x11 rd ra rb rc 0) = .ok (.ntModexp rd ra rb rc) :=
  decode_formatR rfl (by simp [build]) (by simp [Shape.firstBad])

theorem decode_ntIsprime (rd : XReg) (ra : WReg) : decode (formatR 0x12 rd ra 0 0 0) = .ok (.ntIsprime rd ra) :=
  decode_formatR rfl (by simp [build, xOf]) (by simp [Shape.firstBad])

theorem decode_ntRoot (rd ra rb : WReg) : decode (formatR 0x13 rd ra rb 0 0) = .ok (.ntRoot rd ra rb) :=
  decode_formatR rfl (by simp [build]) (by simp [Shape.firstBad])

theorem decode_ntFindgen (rd ra : WReg) : decode (formatR 0x14 rd ra 0 0 0) = .ok (.ntFindgen rd ra) :=
  decode_formatR rfl (by simp [build]) (by simp [Shape.firstBad])

namespace Machine

/-! ### A command that computes a number and stores it -/

/-- A command whose computation fails is rejected with the computation's cause and information (rules R9, R372). -/
theorem finish_bind_of_error {α : Type} {m : Except Exn α} {cause : FaultCause} {info : Word}
    (hm : m = .error ⟨cause, info⟩) (i : Instr) (s : State) (f : α → Except Exn State) :
    finish i s (m >>= f) = .next (s.rejected i cause info) := by
  rw [hm]
  rfl

/-- A residue of a modulus that stands in a wide register fits a wide register too (rules R25, R156). -/
theorem fitsWide_of_lt_wInt {s : State} {r : WReg} {z : Int} (h0 : 0 ≤ z) (hlt : z < s.wInt r) :
    fitsWide s.build z = true := by
  have hpos : (0 : Int) < 2 ^ (s.build.wideW - 1) := by positivity
  exact (fitsWide_iff _ _).mpr ⟨by omega, hlt.trans (wideInt_bounds _ _).2⟩

/-- A command that computes a residue of the modulus in a wide register retires with its pattern (rules R25, R36). -/
theorem exists_finish_storeWide {s : State} {r : WReg} {m : Except Exn Int} {z : Int} (hm : m = .ok z) (h0 : 0 ≤ z)
    (hlt : z < s.wInt r) (i : Instr) (rd : WReg) :
    ∃ d : Wide, IsPatternOf s.build d z ∧
      finish i s (m >>= storeWide s rd) = .next { s.writeW rd d with cseq := s.cseq + 1 } := by
  have hfits := fitsWide_of_lt_wInt h0 hlt
  refine ⟨ofWideInt s.build z, isPatternOf_ofWideInt _ _ hfits, ?_⟩
  rw [hm, show (.ok z >>= storeWide s rd) = storeWide s rd z from rfl, (storeWide_eq_ok s _ rd z).mpr ⟨hfits, rfl⟩]
  rfl

theorem exec_ntModinv (rd ra rb : WReg) (s : State) :
    exec (.ntModinv rd ra rb) s =
      finish (.ntModinv rd ra rb) s (modInv (s.wInt ra) (s.wInt rb) >>= storeWide s rd) := rfl

theorem exec_ntModexp (rd ra rb rc : WReg) (s : State) :
    exec (.ntModexp rd ra rb rc) s =
      finish (.ntModexp rd ra rb rc) s (modExp (s.wInt ra) (s.wInt rb) (s.wInt rc) >>= storeWide s rd) := rfl

theorem exec_ntIsprime (rd : XReg) (ra : WReg) (s : State) :
    exec (.ntIsprime rd ra) s =
      .next { s.writeX rd (boolWord (isPrime (s.wInt ra))) with cseq := s.cseq + 1 } := rfl

theorem exec_ntRoot (rd ra rb : WReg) (s : State) :
    exec (.ntRoot rd ra rb) s =
      finish (.ntRoot rd ra rb) s (rootOfUnity (s.wInt ra) (s.wInt rb) >>= storeWide s rd) := rfl

theorem exec_ntFindgen (rd ra : WReg) (s : State) :
    exec (.ntFindgen rd ra) s = finish (.ntFindgen rd ra) s (findGenerator (s.wInt ra) >>= storeWide s rd) := rfl

/-! ### Inverses, powers and primality -/

/-- A number coprime to the modulus has at most one inverse in `[0, m)` (rule R151). -/
theorem eq_of_mul_emod_eq {a m z t : Int} (hg : Int.gcd a m = 1) (hz0 : 0 ≤ z) (hz : z < m) (ht0 : 0 ≤ t)
    (ht : t < m) (h : a * t % m = a * z % m) : t = z := by
  have hmod : t ≡ z [ZMOD m / Int.gcd m a] := Int.ModEq.cancel_left_div_gcd (by omega) h
  rw [Int.gcd_comm, hg, Nat.cast_one, Int.ediv_one] at hmod
  rwa [Int.ModEq, Int.emod_eq_of_lt ht0 ht, Int.emod_eq_of_lt hz0 hz] at hmod

/-- Settles O28: `modInv` answers an inverse, and cancelling the operand shows that it is the only one. -/
theorem modularInverse : Obligations.ModularInverse := by
  intro s rd ra rb
  simp only [Int.gcd_emod, exec_ntModinv]
  refine ⟨decode_ntModinv rd ra rb, fun hm => ?_, fun hm hg => ?_, fun hm hg => ?_⟩
  · exact finish_bind_of_error (modInv_of_modulus_lt_one _ _ hm) _ _ _
  · exact finish_bind_of_error (modInv_of_not_coprime _ _ hm hg) _ _ _
  · obtain ⟨z, hok, h0, hlt, hinv⟩ := modInv_of_coprime _ _ hm hg
    obtain ⟨d, hd, hexec⟩ := exists_finish_storeWide hok h0 hlt (.ntModinv rd ra rb) rd
    have hnorm : s.wInt ra % s.wInt rb * z % s.wInt rb = 1 % s.wInt rb :=
      ((Int.mod_modEq _ _).mul_right z).trans hinv
    refine ⟨d, hexec, z, hd, h0, hlt, hnorm, fun t ht0 ht h => ?_⟩
    exact eq_of_mul_emod_eq ((Int.gcd_emod _ _).trans hg) h0 hlt ht0 ht (h.trans hnorm.symm)

/-- Settles O29: the power of the operand and of its residue are congruent. -/
theorem modularPower : Obligations.ModularPower := by
  intro s rd ra rb rc
  simp only [exec_ntModexp]
  refine ⟨decode_ntModexp rd ra rb rc, ?_, fun hm he => ?_⟩
  · rintro (hm | he)
    · exact finish_bind_of_error (modExp_of_modulus_lt_one _ _ _ hm) _ _ _
    · exact finish_bind_of_error (modExp_of_exponent_neg _ _ _ he) _ _ _
  · obtain ⟨h0, hlt⟩ := fmod_bounds (s.wInt ra ^ (s.wInt rb).toNat) (s.wInt rc) hm
    have hnorm : (s.wInt ra % s.wInt rc) ^ (s.wInt rb).toNat % s.wInt rc =
      fmod (s.wInt ra ^ (s.wInt rb).toNat) (s.wInt rc) := (Int.mod_modEq _ _).pow _
    rw [hnorm]
    exact exists_finish_storeWide (modExp_eq _ _ _ hm he) h0 hlt _ rd

/-- Settles O30: `isPrime` answers rule R153 exactly, on every wide value. -/
theorem primalityAnswer : Obligations.PrimalityAnswer := by
  intro s rd ra
  simp only [exec_ntIsprime, ← isPrime_iff_no_divisor]
  refine ⟨decode_ntIsprime rd ra, fun hp => ?_, fun hp => ?_⟩
  · rw [hp]
    rfl
  · rw [Bool.eq_false_iff.mpr hp]
    rfl

/-! ### Generators and orders

The statements speak of integers modulo `p`, and the lemmas on the search of orders in `ZMod p`. -/

theorem pow_emod_eq_one_iff {p : Nat} (hp : 1 < p) (a : Int) (k : Nat) :
    a ^ k % p = 1 ↔ (a : ZMod p) ^ k = 1 := by
  rw [← Int.cast_pow, ← Int.cast_one (R := ZMod p), ZMod.intCast_eq_intCast_iff, Int.ModEq,
    Int.emod_eq_of_lt zero_le_one (by exact_mod_cast hp)]

theorem multiplicativeOrder_iff {p n : Nat} (hp : 1 < p) (hn : 0 < n) (a : Int) :
    MultiplicativeOrder p a n ↔ orderOf (a : ZMod p) = n := by
  simp only [MultiplicativeOrder, pow_emod_eq_one_iff hp, orderOf_eq_iff hn, ne_eq, hn, true_and]
  exact and_congr_right' (forall_congr' fun k => forall_comm)

/-- The test of rule R154 singles out the numbers of order `p − 1`. -/
theorem orderOf_eq_iff_test {p g : Nat} (hp : p.Prime) (h1 : 1 ≤ g) (hg : g < p) :
    orderOf (g : ZMod p) = p - 1 ↔
      ∀ q : Nat, q.Prime → (q : Int) ∣ p - 1 → (g : Int) ^ (((p : Int) - 1) / q).toNat % p ≠ 1 := by
  have hcast : (p : Int) - 1 = (p - 1 : Nat) := (Nat.cast_pred hp.pos).symm
  have hpos : 1 ≤ p - 1 := by have := hp.two_le; omega
  rw [← isGenerator_iff p g hp h1 hg, isGenerator, List.all_eq_true, hcast]
  simp only [mem_primeFactors _ _ hpos, bne_iff_ne, powMod_eq, and_imp, Int.natCast_dvd_natCast, ← Int.natCast_ediv,
    Int.toNat_natCast]
  exact_mod_cast Iff.rfl

/-- A prime above 2 has a smallest generator, which `findGenerator` answers (rule R154). -/
theorem exists_findGenerator {p : Nat} (hp : p.Prime) (h2 : p ≠ 2) :
    ∃ g : Nat, findGenerator p = .ok g ∧ g < p ∧ SmallestGenerator p g ∧ MultiplicativeOrder p g (p - 1) := by
  have htwo := hp.two_le
  obtain ⟨g, hok, hg2, hlt, horder, hmin⟩ := findGenerator_of_prime p hp (by omega)
  simp only [Int.toNat_natCast] at hlt horder hmin
  have htest := (orderOf_eq_iff_test hp (by omega) hlt).mp horder
  refine ⟨g, hok, hlt, ⟨by omega, by omega, htest, fun k hk2 hkg => ?_⟩, ?_⟩
  · lift k to Nat using by omega
    have hfails := mt (orderOf_eq_iff_test hp (by omega) (by omega)).mpr (hmin k (by omega) (by omega))
    push Not at hfails
    exact hfails
  · exact (multiplicativeOrder_iff (by omega) (by omega) _).mpr (by exact_mod_cast horder)

theorem eq_toNat_of_prime {p : Int} (hp : p.toNat.Prime) : p = p.toNat := by
  have := hp.pos
  omega

/-- Settles O31: the search meets the smallest generator, which it finds from 3 on and never at 2. -/
theorem smallestGeneratorSearch : Obligations.SmallestGeneratorSearch := by
  intro s rd ra
  rw [exec_ntFindgen]
  refine ⟨decode_ntFindgen rd ra, fun hp => ?_, fun h2 => ?_, fun hp h2 => ?_⟩
  · exact finish_bind_of_error (findGenerator_of_not_prime _ hp) _ _ _
  · exact finish_bind_of_error (h2 ▸ findGenerator_two) _ _ _
  · have hcast := eq_toNat_of_prime hp
    obtain ⟨g, hok, hlt, hgen, horder⟩ := exists_findGenerator hp (by omega)
    rw [← hcast] at hok hgen horder
    obtain ⟨d, hd, hexec⟩ :=
      exists_finish_storeWide hok (by omega) (by omega : (g : Int) < s.wInt ra) (.ntFindgen rd ra) rd
    exact ⟨d, g, hd, hgen, horder, hexec⟩

/-! ### Roots of unity -/

theorem rootOfUnity_of_not_prime (n : Int) {p : Int} (hp : ¬ p.toNat.Prime) :
    rootOfUnity n p = .error ⟨.modulusNotPrime, 0⟩ := by
  rw [rootOfUnity, require_of_neg (by rwa [isPrime_iff])]
  rfl

/-- There is no generator in `[2, 2)`, so no power of one either, whatever the order asked for (rules R154, R155). -/
theorem rootOfUnity_two (n : Int) : rootOfUnity n 2 = .error ⟨.noRoot, 0⟩ := by
  by_cases hn : 1 ≤ n ∧ fmod (2 - 1) n = 0
  · rw [rootOfUnity, require_of_pos (by rw [isPrime_iff]; exact Nat.prime_two), require_of_pos hn, findGenerator_two]
    rfl
  · exact rootOfUnity_of_bad_order n 2 Nat.prime_two hn

/-- The root that `rootOfUnity` answers is a power of the smallest generator and has the order asked for
(rule R155). -/
theorem exists_rootOfUnity {p : Nat} {n : Int} (hp : p.Prime) (h2 : p ≠ 2) (hn : 1 ≤ n) (hdvd : n ∣ p - 1) :
    ∃ r g : Nat, rootOfUnity n p = .ok r ∧ r < p ∧ SmallestGenerator p g ∧
      (r : Int) = (g : Int) ^ ((p - 1 : Int) / n).toNat % p ∧ MultiplicativeOrder p r n.toNat := by
  have htwo := hp.two_le
  obtain ⟨r, g, hok, hgok, hpow, hlt, horder⟩ :=
    rootOfUnity_of_order n p hp (by omega) hn (Int.emod_eq_zero_of_dvd hdvd)
  obtain ⟨g', hgok', -, hgen, -⟩ := exists_findGenerator hp h2
  obtain rfl : g = g' := Int.ofNat.inj (Except.ok.inj (hgok.symm.trans hgok'))
  simp only [Int.toNat_natCast] at hpow hlt horder
  refine ⟨r, g, hok, hlt, hgen, ?_, ?_⟩
  · rw [← Nat.cast_pow, ZMod.natCast_eq_natCast_iff, Nat.ModEq, Nat.mod_eq_of_lt hlt] at hpow
    exact_mod_cast hpow
  · exact (multiplicativeOrder_iff (by omega) (by omega) _).mpr (by exact_mod_cast horder)

/-- Settles O32: each check of `rootOfUnity` rejects its own case, and `p = 2` fails for want of a generator. -/
theorem rootOfUnityOfGivenOrder : Obligations.RootOfUnityOfGivenOrder := by
  intro s rd ra rb
  rw [exec_ntRoot]
  refine ⟨decode_ntRoot rd ra rb, fun hp => ?_, fun hp hbad => ?_, fun hp h2 hn hdvd => ?_⟩
  · exact finish_bind_of_error (rootOfUnity_of_not_prime _ hp) _ _ _
  · refine finish_bind_of_error ?_ _ _ _
    obtain hn | hdvd | h2 := hbad
    · exact rootOfUnity_of_bad_order _ _ hp (by omega)
    · exact rootOfUnity_of_bad_order _ _ hp fun h => hdvd (Int.dvd_of_emod_eq_zero h.2)
    · rw [h2, rootOfUnity_two]
  · have hcast := eq_toNat_of_prime hp
    obtain ⟨r, g, hok, hlt, hgen, hpow, horder⟩ := exists_rootOfUnity hp (by omega) hn (by rwa [← hcast])
    rw [← hcast] at hok hgen hpow horder
    obtain ⟨d, hd, hexec⟩ :=
      exists_finish_storeWide hok (by omega) (by omega : (r : Int) < s.wInt rb) (.ntRoot rd ra rb) rd
    exact ⟨d, g, r, hgen, hd, hpow, horder, hexec⟩

end Machine

end Sys2Proof

/-! RingLweZp64: what the commands of family 2 answer, each as a residue of the slot's prime, and the laws of the
field as runs of these commands (rules R180 to R191). -/

namespace Sys2Proof

theorem decode_zpInit (ra : XReg) : decode (formatR 0x20 0 ra 0 0 0) = .ok (.zpInit ra) :=
  decode_formatR rfl (by simp [build, xOf]) (by simp [Shape.firstBad])

theorem decode_zpAdd (rd ra rb : XReg) : decode (formatR 0x21 rd ra rb 0 0) = .ok (.zpAdd rd ra rb) :=
  decode_formatR rfl (by simp [build, xOf]) (by simp [Shape.firstBad])

theorem decode_zpSub (rd ra rb : XReg) : decode (formatR 0x22 rd ra rb 0 0) = .ok (.zpSub rd ra rb) :=
  decode_formatR rfl (by simp [build, xOf]) (by simp [Shape.firstBad])

theorem decode_zpMul (rd ra rb : XReg) : decode (formatR 0x23 rd ra rb 0 0) = .ok (.zpMul rd ra rb) :=
  decode_formatR rfl (by simp [build, xOf]) (by simp [Shape.firstBad])

theorem decode_zpExp (rd ra rb : XReg) : decode (formatR 0x24 rd ra rb 0 0) = .ok (.zpExp rd ra rb) :=
  decode_formatR rfl (by simp [build, xOf]) (by simp [Shape.firstBad])

theorem decode_zpInv (rd ra : XReg) : decode (formatR 0x25 rd ra 0 0 0) = .ok (.zpInv rd ra) :=
  decode_formatR rfl (by simp [build, xOf]) (by simp [Shape.firstBad])

theorem decode_zpRoot (rd ra : XReg) : decode (formatR 0x26 rd ra 0 0 0) = .ok (.zpRoot rd ra) :=
  decode_formatR rfl (by simp [build, xOf]) (by simp [Shape.firstBad])

theorem decode_zpGen (rd : XReg) : decode (formatR 0x27 rd 0 0 0 0) = .ok (.zpGen rd) :=
  decode_formatR rfl (by simp [build, xOf]) (by simp [Shape.firstBad])

namespace Machine

/-! ### `ZP.INIT` -/

theorem toNat_eq_of_sint_nonneg {v : Word} (h : 0 ≤ sint v) : (sint v).toNat = v.toNat := by
  have hlt := v.isLt
  rw [sint, BitVec.toInt_eq_toNat_cond] at *
  split at h <;> omega

/-- The bit length brackets the number between two powers of two (rule R183). -/
theorem bitLength_bounds {n : Nat} (hn : n ≠ 0) : 2 ^ (bitLength n - 1) ≤ n ∧ n < 2 ^ bitLength n :=
  ⟨Nat.log2_self_le hn, Nat.lt_log2_self⟩

/-- The bit length of a machine integer is a small number, which its word holds (rules R7, R183). -/
theorem toNat_u64_bitLength {n : Nat} (hn : n ≠ 0) (hlt : n < 2 ^ 64) : (u64 (bitLength n)).toNat = bitLength n := by
  have hlog : n.log2 < 64 := (Nat.log2_lt hn).mpr hlt
  rw [u64, BitVec.ofInt_natCast, BitVec.toNat_ofNat]
  exact Nat.mod_eq_of_lt (by rw [bitLength]; omega)

theorem exec_zpInit (ra : XReg) (s : State) :
    exec (.zpInit ra) s = finish (.zpInit ra) s (do
      require (2 ≤ s.xInt ra) .badParameter 0
      require (isPrime (s.xInt ra)) .modulusNotPrime
      return { s with zp := some (buildZp (s.xInt ra)) }) := rfl

/-- Settles O33: the two checks in their order, and the slot of the operand with its bit length. -/
theorem zpInitBuildsSlot : Obligations.ZpInitBuildsSlot := by
  intro s ra
  rw [exec_zpInit]
  refine ⟨decode_zpInit ra, fun hlow => ?_, fun h2 hp => ?_, fun h2 hp => ?_⟩
  · exact finish_require_of_neg (by omega) _ _ _ _ _
  · rw [finish_require_of_pos h2, finish_require_of_neg (by rwa [isPrime_iff])]
  · have hnat : (s.xInt ra).toNat = s.x[ra].toNat := toNat_eq_of_sint_nonneg (by rw [State.xInt] at h2; omega)
    have hne : s.x[ra].toNat ≠ 0 := by omega
    obtain ⟨hlow, hhigh⟩ := bitLength_bounds hne
    rw [finish_require_of_pos h2, finish_require_of_pos (by rwa [isPrime_iff])]
    refine ⟨u64 (bitLength s.x[ra].toNat), ?_, ?_, ?_⟩
    · rwa [toNat_u64_bitLength hne s.x[ra].isLt]
    · rwa [toNat_u64_bitLength hne s.x[ra].isLt]
    · rw [buildZp, hnat, State.xInt, u64_sint]
      rfl

/-! ### Residues of the slot's prime -/

section

variable {c : ZpCtx}

/-- The word of the residue of `a` modulo the prime of the slot (rule R181). -/
def ZpCtx.residue (c : ZpCtx) (a : Int) : Word := u64 (a % sint c.p)

theorem ZpCtx.Valid.emod_bounds (hc : c.Valid) (a : Int) : 0 ≤ a % sint c.p ∧ a % sint c.p < sint c.p := by
  obtain ⟨-, h2, -⟩ := ZpCtx.Valid.modulus c hc
  exact fmod_bounds a (sint c.p) (by omega)

/-- A number of `[0, p)` is kept whole in a scalar register (rules R7, R42). -/
theorem ZpCtx.sint_u64 (c : ZpCtx) {z : Int} (h0 : 0 ≤ z) (hlt : z < sint c.p) : sint (u64 z) = z :=
  Machine.sint_u64 z (by omega) (hlt.trans (sint_bounds c.p).2)

theorem ZpCtx.Valid.sint_residue (hc : c.Valid) (a : Int) : sint (c.residue a) = a % sint c.p :=
  c.sint_u64 (hc.emod_bounds a).1 (hc.emod_bounds a).2

theorem ZpCtx.residue_congr {a b : Int} (h : a ≡ b [ZMOD sint c.p]) : c.residue a = c.residue b := congrArg u64 h

@[simp] theorem ZpCtx.residue_emod_add (a b : Int) : c.residue (a % sint c.p + b) = c.residue (a + b) :=
  residue_congr ((Int.mod_modEq a _).add_right b)

@[simp] theorem ZpCtx.residue_add_emod (a b : Int) : c.residue (a + b % sint c.p) = c.residue (a + b) :=
  residue_congr ((Int.mod_modEq b _).add_left a)

@[simp] theorem ZpCtx.residue_emod_mul (a b : Int) : c.residue (a % sint c.p * b) = c.residue (a * b) :=
  residue_congr ((Int.mod_modEq a _).mul_right b)

@[simp] theorem ZpCtx.residue_mul_emod (a b : Int) : c.residue (a * (b % sint c.p)) = c.residue (a * b) :=
  residue_congr ((Int.mod_modEq b _).mul_left a)

@[simp] theorem ZpCtx.residue_zero (c : ZpCtx) : c.residue 0 = 0 := by
  rw [residue, Int.zero_emod]
  rfl

theorem ZpCtx.residue_eq_one {a : Int} (h : a % sint c.p = 1) : c.residue a = 1 := congrArg u64 h

/-- A number that is not a multiple of the prime is coprime to it. -/
theorem ZpCtx.Valid.isCoprime (hc : c.Valid) {a : Int} (ha : ¬ sint c.p ∣ a) : IsCoprime a (sint c.p) := by
  obtain ⟨hp, -, -⟩ := ZpCtx.Valid.modulus c hc
  have hprime : Prime (sint c.p) := eq_toNat_of_prime hp ▸ Nat.prime_iff_prime_int.mp hp
  exact ((Prime.coprime_iff_not_dvd hprime).mpr ha).symm

/-- The inverse modulo the prime, a number of `[1, p)` (rule R188). -/
theorem ZpCtx.Valid.exists_modInv (hc : c.Valid) {a : Int} (ha : ¬ sint c.p ∣ a) :
    ∃ t, modInv (a % sint c.p) (sint c.p) = .ok t ∧ 1 ≤ t ∧ t < sint c.p ∧ a * t % sint c.p = 1 := by
  obtain ⟨-, h2, -⟩ := ZpCtx.Valid.modulus c hc
  have hgcd : Int.gcd (a % sint c.p) (sint c.p) = 1 :=
    (Int.gcd_emod _ _).trans (Int.isCoprime_iff_gcd_eq_one.mp (hc.isCoprime ha))
  obtain ⟨t, hok, h0, hlt, hinv⟩ := modInv_of_coprime _ _ (by omega) hgcd
  have hone : a * t % sint c.p = 1 := calc
    a * t % sint c.p = a % sint c.p * t % sint c.p := ((Int.mod_modEq a _).mul_right t).symm
    _ = 1 % sint c.p := hinv
    _ = 1 := Int.emod_eq_of_lt zero_le_one (by omega)
  have hne : t ≠ 0 := by
    rintro rfl
    simp at hone
  exact ⟨t, hok, by omega, hlt, hone⟩

/-- Fermat's theorem in the words of the slot (rule R191). -/
theorem ZpCtx.Valid.residue_pow_pred (hc : c.Valid) {a : Int} (ha : ¬ sint c.p ∣ a) :
    c.residue (a ^ (sint c.p - 1).toNat) = 1 := by
  obtain ⟨hp, h2, -⟩ := ZpCtx.Valid.modulus c hc
  have hcast := eq_toNat_of_prime hp
  have hfermat := Int.ModEq.pow_card_sub_one_eq_one hp (n := a) (by rw [← hcast]; exact hc.isCoprime ha)
  rw [← hcast, show (sint c.p).toNat - 1 = (sint c.p - 1).toNat by omega] at hfermat
  exact ZpCtx.residue_eq_one (Eq.trans hfermat (Int.emod_eq_of_lt zero_le_one (by omega)))

end

/-! ### What each command answers -/

section

variable {s : State} {c : ZpCtx}

theorem exec_zp_of_none (rd ra rb : XReg) (hc : s.zp = none) :
    exec (.zpAdd rd ra rb) s = .next (s.rejected (.zpAdd rd ra rb) .noContext 0) ∧
      exec (.zpSub rd ra rb) s = .next (s.rejected (.zpSub rd ra rb) .noContext 0) ∧
      exec (.zpMul rd ra rb) s = .next (s.rejected (.zpMul rd ra rb) .noContext 0) ∧
      exec (.zpExp rd ra rb) s = .next (s.rejected (.zpExp rd ra rb) .noContext 0) ∧
      exec (.zpInv rd ra) s = .next (s.rejected (.zpInv rd ra) .noContext 0) ∧
      exec (.zpRoot rd ra) s = .next (s.rejected (.zpRoot rd ra) .noContext 0) ∧
      exec (.zpGen rd) s = .next (s.rejected (.zpGen rd) .noContext 0) := by
  simp only [exec, execZpAdd, execZpSub, execZpMul, execZpExp, execZpInv, execZpRoot, execZpGen, hc,
    finish_needSlot_none, and_self]

/-- The residue of the sum of the residues is that of the sum (rule R184). -/
theorem exec_zpAdd (rd ra rb : XReg) (hc : s.zp = some c) :
    exec (.zpAdd rd ra rb) s = .next (s.writeX rd (c.residue (s.xInt ra + s.xInt rb))).retire := by
  rw [ZpCtx.residue, Int.add_emod, exec, execZpAdd, hc]
  rfl

/-- The residue of the difference of the residues is that of the difference (rule R185). -/
theorem exec_zpSub (rd ra rb : XReg) (hc : s.zp = some c) :
    exec (.zpSub rd ra rb) s = .next (s.writeX rd (c.residue (s.xInt ra - s.xInt rb))).retire := by
  rw [ZpCtx.residue, Int.sub_emod, exec, execZpSub, hc]
  rfl

/-- The residue of the product of the residues is that of the product (rule R186). -/
theorem exec_zpMul (rd ra rb : XReg) (hc : s.zp = some c) :
    exec (.zpMul rd ra rb) s = .next (s.writeX rd (c.residue (s.xInt ra * s.xInt rb))).retire := by
  rw [ZpCtx.residue, Int.mul_emod, exec, execZpMul, hc]
  rfl

/-- `ZP.EXP` checks its exponent and computes the power (rule R187). -/
theorem exec_zpExp (rd ra rb : XReg) (hc : s.zp = some c) :
    exec (.zpExp rd ra rb) s = finish (.zpExp rd ra rb) s (do
      require (0 ≤ s.xInt rb) .badOperand
      let t ← modExp (s.xInt ra) (s.xInt rb) (sint c.p)
      return s.writeX rd (u64 t)) := by
  rw [exec, execZpExp, hc]
  rfl

theorem exec_zpExp_of_neg (rd ra : XReg) {rb : XReg} (hc : s.zp = some c) (he : s.xInt rb < 0) :
    exec (.zpExp rd ra rb) s = .next (s.rejected (.zpExp rd ra rb) .badOperand 0) := by
  rw [exec_zpExp rd ra rb hc, finish_require_of_neg (by omega)]

theorem exec_zpExp_of_nonneg (rd ra : XReg) {rb : XReg} (hc : s.zp = some c) (hvalid : c.Valid)
    (he : 0 ≤ s.xInt rb) :
    exec (.zpExp rd ra rb) s = .next (s.writeX rd (c.residue (s.xInt ra ^ (s.xInt rb).toNat))).retire := by
  obtain ⟨-, h2, -⟩ := ZpCtx.Valid.modulus c hvalid
  rw [exec_zpExp rd ra rb hc, finish_require_of_pos he, modExp_eq _ _ _ (by omega) he]
  rfl

/-- `ZP.INV` checks for a multiple of the prime and computes the inverse of the residue (rule R188). -/
theorem exec_zpInv (rd ra : XReg) (hc : s.zp = some c) :
    exec (.zpInv rd ra) s = finish (.zpInv rd ra) s (do
      require (s.xInt ra % sint c.p ≠ 0) .notInvertible
      let t ← modInv (s.xInt ra % sint c.p) (sint c.p)
      return s.writeX rd (u64 t)) := by
  rw [exec, execZpInv, hc]
  rfl

theorem exec_zpInv_of_dvd (rd : XReg) {ra : XReg} (hc : s.zp = some c) (hdvd : sint c.p ∣ s.xInt ra) :
    exec (.zpInv rd ra) s = .next (s.rejected (.zpInv rd ra) .notInvertible 0) := by
  rw [exec_zpInv rd ra hc, finish_require_of_neg (not_not_intro (Int.emod_eq_zero_of_dvd hdvd))]

theorem exec_zpInv_of_not_dvd (rd : XReg) {ra : XReg} {t : Int} (hc : s.zp = some c)
    (hdvd : ¬ sint c.p ∣ s.xInt ra) (ht : modInv (s.xInt ra % sint c.p) (sint c.p) = .ok t) :
    exec (.zpInv rd ra) s = .next (s.writeX rd (u64 t)).retire := by
  rw [exec_zpInv rd ra hc, finish_require_of_pos (mt Int.dvd_of_emod_eq_zero hdvd), ht]
  rfl

/-- `ZP.ROOT` checks the order and the prime and computes the root (rule R189). -/
theorem exec_zpRoot (rd ra : XReg) (hc : s.zp = some c) :
    exec (.zpRoot rd ra) s = finish (.zpRoot rd ra) s (do
      require (1 ≤ s.xInt ra ∧ fmod (sint c.p - 1) (s.xInt ra) = 0) .noRoot
      require (sint c.p ≠ 2) .noRoot
      let t ← rootOfUnity (s.xInt ra) (sint c.p)
      return s.writeX rd (u64 t)) := by
  rw [exec, execZpRoot, hc]
  rfl

theorem exec_zpRoot_of_bad (rd : XReg) {ra : XReg} (hc : s.zp = some c)
    (hbad : s.xInt ra < 1 ∨ ¬ s.xInt ra ∣ sint c.p - 1 ∨ sint c.p = 2) :
    exec (.zpRoot rd ra) s = .next (s.rejected (.zpRoot rd ra) .noRoot 0) := by
  rw [exec_zpRoot rd ra hc]
  by_cases hn : 1 ≤ s.xInt ra ∧ fmod (sint c.p - 1) (s.xInt ra) = 0
  · have hdvd : s.xInt ra ∣ sint c.p - 1 := Int.dvd_of_emod_eq_zero hn.2
    have h2 : sint c.p = 2 := (hbad.resolve_left (by omega)).resolve_left (not_not_intro hdvd)
    rw [finish_require_of_pos hn, finish_require_of_neg (not_not_intro h2)]
  · rw [finish_require_of_neg hn]

theorem exec_zpRoot_of_ok (rd : XReg) {ra : XReg} {t : Int} (hc : s.zp = some c) (hn : 1 ≤ s.xInt ra)
    (hdvd : s.xInt ra ∣ sint c.p - 1) (h2 : sint c.p ≠ 2) (ht : rootOfUnity (s.xInt ra) (sint c.p) = .ok t) :
    exec (.zpRoot rd ra) s = .next (s.writeX rd (u64 t)).retire := by
  rw [exec_zpRoot rd ra hc, finish_require_of_pos ⟨hn, Int.emod_eq_zero_of_dvd hdvd⟩, finish_require_of_pos h2, ht]
  rfl

/-- `ZP.GEN` checks the prime and searches the generator (rule R190). -/
theorem exec_zpGen (rd : XReg) (hc : s.zp = some c) :
    exec (.zpGen rd) s = finish (.zpGen rd) s (do
      require (sint c.p ≠ 2) .noRoot
      let t ← findGenerator (sint c.p)
      return s.writeX rd (u64 t)) := by
  rw [exec, execZpGen, hc]
  rfl

theorem exec_zpGen_two (rd : XReg) (hc : s.zp = some c) (h2 : sint c.p = 2) :
    exec (.zpGen rd) s = .next (s.rejected (.zpGen rd) .noRoot 0) := by
  rw [exec_zpGen rd hc, finish_require_of_neg (not_not_intro h2)]

theorem exec_zpGen_of_ok (rd : XReg) {t : Int} (hc : s.zp = some c) (h2 : sint c.p ≠ 2)
    (ht : findGenerator (sint c.p) = .ok t) : exec (.zpGen rd) s = .next (s.writeX rd (u64 t)).retire := by
  rw [exec_zpGen rd hc, finish_require_of_pos h2, ht]
  rfl

end

/-- Settles O34: the word written is the residue of the exact sum, difference or product. -/
theorem zpSumDifferenceProduct : Obligations.ZpSumDifferenceProduct := by
  intro s rd ra rb
  refine ⟨decode_zpAdd rd ra rb, decode_zpSub rd ra rb, decode_zpMul rd ra rb, fun hnone => ?_, fun c hc hvalid => ?_⟩
  · obtain ⟨hadd, hsub, hmul, -⟩ := exec_zp_of_none rd ra rb hnone
    exact ⟨hadd, hsub, hmul⟩
  · exact ⟨⟨_, hvalid.sint_residue _, exec_zpAdd rd ra rb hc⟩, ⟨_, hvalid.sint_residue _, exec_zpSub rd ra rb hc⟩,
      ⟨_, hvalid.sint_residue _, exec_zpMul rd ra rb hc⟩⟩

/-- Settles O35: the power is a residue, and a number that is no multiple of a prime has an inverse modulo it. -/
theorem zpPowerAndInverse : Obligations.ZpPowerAndInverse := by
  intro s rd ra rb
  refine ⟨decode_zpExp rd ra rb, decode_zpInv rd ra, fun hnone => ?_, fun c hc hvalid => ?_⟩
  · obtain ⟨-, -, -, hexp, hinv, -⟩ := exec_zp_of_none rd ra rb hnone
    exact ⟨hexp, hinv⟩
  · refine ⟨exec_zpExp_of_neg rd ra hc, fun he => ?_, exec_zpInv_of_dvd rd hc, fun hdvd => ?_⟩
    · exact ⟨_, hvalid.sint_residue _, exec_zpExp_of_nonneg rd ra hc hvalid he⟩
    · obtain ⟨t, hok, h1, hlt, hinv⟩ := hvalid.exists_modInv hdvd
      have hexec := exec_zpInv_of_not_dvd rd hc hdvd hok
      refine ⟨u64 t, ?_⟩
      rw [c.sint_u64 (by omega) hlt]
      exact ⟨h1, hlt, hinv, hexec⟩

/-- A prime has one smallest generator: each of two would fail the test of the other (rule R154). -/
theorem SmallestGenerator.unique {p g g' : Int} (h : SmallestGenerator p g) (h' : SmallestGenerator p g') : g = g' := by
  have hle : ∀ {a b : Int}, SmallestGenerator p a → SmallestGenerator p b → b ≤ a := by
    rintro a b ⟨ha2, -, htest, -⟩ ⟨-, -, -, hmin⟩
    by_contra hlt
    obtain ⟨q, hq, hdvd, hone⟩ := hmin a ha2 (by omega)
    exact htest q hq hdvd hone
  exact le_antisymm (hle h' h) (hle h h')

/-- Settles O36: the checks reject `p = 2` and the bad orders, and the two searches agree on the generator. -/
theorem zpRootAndGenerator : Obligations.ZpRootAndGenerator := by
  intro s rd ra
  refine ⟨decode_zpRoot rd ra, decode_zpGen rd, fun hnone => ?_, fun c hc hvalid => ?_⟩
  · obtain ⟨-, -, -, -, -, hroot, hgen⟩ := exec_zp_of_none rd ra 0 hnone
    exact ⟨hroot, hgen⟩
  · obtain ⟨hp, -, -⟩ := ZpCtx.Valid.modulus c hvalid
    have hcast := eq_toNat_of_prime hp
    refine ⟨exec_zpRoot_of_bad rd hc, exec_zpGen_two rd hc, fun h2 => ?_⟩
    obtain ⟨g, hgok, hglt, hgen, -⟩ := exists_findGenerator hp (by omega)
    rw [← hcast] at hgok hgen
    refine ⟨u64 g, ?_⟩
    rw [c.sint_u64 (by omega) (by omega)]
    refine ⟨hgen, exec_zpGen_of_ok rd hc h2 hgok, fun hn hdvd => ?_⟩
    obtain ⟨r, g', hok, hlt, hgen', hpow, horder⟩ := exists_rootOfUnity hp (by omega) hn (by rwa [← hcast])
    rw [← hcast] at hok hgen' hpow horder
    refine ⟨u64 r, ?_⟩
    rw [c.sint_u64 (by omega) (by omega), hgen.unique hgen']
    exact ⟨hpow, horder, exec_zpRoot_of_ok rd hc hn hdvd h2 hok⟩

/-! ### Runs of the commands -/

@[simp] theorem State.xInt_retire (s : State) (r : XReg) : s.retire.xInt r = s.xInt r := rfl

@[simp] theorem State.xInt_writeX (s : State) (r q : XReg) (d : Word) :
    (s.writeX r d).xInt q = if r = q then sint d else s.xInt q := by
  rw [State.xInt, State.writeX_get, apply_ite sint, State.xInt]

@[simp] theorem sint_zero : sint 0#64 = 0 := rfl

@[simp] theorem runProgram_nil (s : State) : runProgram [] s = s := rfl

/-- A program that faults at its first command has changed no register (rules R372, R430). -/
theorem runProgram_x_of_rejected {i : Instr} {s : State} {cause : FaultCause} {info : Word}
    (h : exec i s = .next (s.rejected i cause info)) (rest : List Instr) : (runProgram (i :: rest) s).x = s.x := by
  rw [runProgram, h]
  rfl

section

variable {s : State} {c : ZpCtx}

theorem runProgram_zpAdd (hrun : s.run = .idle) (hc : s.zp = some c) (rd ra rb : XReg) (rest : List Instr) :
    runProgram (.zpAdd rd ra rb :: rest) s =
      runProgram rest (s.writeX rd (c.residue (s.xInt ra + s.xInt rb))).retire :=
  runProgram_cons (exec_zpAdd rd ra rb hc) (by simp [hrun]) rest

theorem runProgram_zpSub (hrun : s.run = .idle) (hc : s.zp = some c) (rd ra rb : XReg) (rest : List Instr) :
    runProgram (.zpSub rd ra rb :: rest) s =
      runProgram rest (s.writeX rd (c.residue (s.xInt ra - s.xInt rb))).retire :=
  runProgram_cons (exec_zpSub rd ra rb hc) (by simp [hrun]) rest

theorem runProgram_zpMul (hrun : s.run = .idle) (hc : s.zp = some c) (rd ra rb : XReg) (rest : List Instr) :
    runProgram (.zpMul rd ra rb :: rest) s =
      runProgram rest (s.writeX rd (c.residue (s.xInt ra * s.xInt rb))).retire :=
  runProgram_cons (exec_zpMul rd ra rb hc) (by simp [hrun]) rest

theorem runProgram_zpExp (hrun : s.run = .idle) (hc : s.zp = some c) (hvalid : c.Valid) {rb : XReg}
    (he : 0 ≤ s.xInt rb) (rd ra : XReg) (rest : List Instr) :
    runProgram (.zpExp rd ra rb :: rest) s =
      runProgram rest (s.writeX rd (c.residue (s.xInt ra ^ (s.xInt rb).toNat))).retire :=
  runProgram_cons (exec_zpExp_of_nonneg rd ra hc hvalid he) (by simp [hrun]) rest

theorem runProgram_zpInv (hrun : s.run = .idle) (hc : s.zp = some c) {ra : XReg} {t : Int}
    (hdvd : ¬ sint c.p ∣ s.xInt ra) (ht : modInv (s.xInt ra % sint c.p) (sint c.p) = .ok t) (rd : XReg)
    (rest : List Instr) :
    runProgram (.zpInv rd ra :: rest) s = runProgram rest (s.writeX rd (u64 t)).retire :=
  runProgram_cons (exec_zpInv_of_not_dvd rd hc hdvd ht) (by simp [hrun]) rest

theorem runProgram_li_zero (hrun : s.run = .idle) (rd : XReg) (rest : List Instr) :
    runProgram (.li rd 0#16 :: rest) s = runProgram rest (s.writeX rd 0#64).retire :=
  runProgram_li hrun rd 0 rest

/-! ### The laws of the field (rule R191)

A run of sums, differences and products leaves the residue of the exact result, so a law of these commands is the law of
the integers. -/

/-- Congruent operands have congruent sums, differences and products, in whatever states they stand. -/
theorem zp_congruent_ring {t : State} (hrun : s.run = .idle) (hc : s.zp = some c) (hrun' : t.run = .idle)
    (hc' : t.zp = some c) (h1 : t.xInt 1 ≡ s.xInt 1 [ZMOD sint c.p]) (h2 : t.xInt 2 ≡ s.xInt 2 [ZMOD sint c.p]) :
    (runProgram [.zpAdd 4 1 2] t).x[4] = (runProgram [.zpAdd 4 1 2] s).x[4] ∧
    (runProgram [.zpSub 4 1 2] t).x[4] = (runProgram [.zpSub 4 1 2] s).x[4] ∧
    (runProgram [.zpMul 4 1 2] t).x[4] = (runProgram [.zpMul 4 1 2] s).x[4] := by
  refine ⟨?_, ?_, ?_⟩
  · simpa [runProgram_zpAdd (c := c), hrun, hc, hrun', hc'] using ZpCtx.residue_congr (h1.add h2)
  · simpa [runProgram_zpSub (c := c), hrun, hc, hrun', hc'] using ZpCtx.residue_congr (h1.sub h2)
  · simpa [runProgram_zpMul (c := c), hrun, hc, hrun', hc'] using ZpCtx.residue_congr (h1.mul h2)

section FieldLaws

variable (hrun : s.run = .idle) (hc : s.zp = some c) (hvalid : c.Valid)

include hrun hc hvalid

theorem zp_ring_laws :
    (runProgram [.zpAdd 4 1 2] s).x[4] = (runProgram [.zpAdd 4 2 1] s).x[4] ∧
    (runProgram [.zpMul 4 1 2] s).x[4] = (runProgram [.zpMul 4 2 1] s).x[4] ∧
    (runProgram [.zpAdd 4 1 2, .zpAdd 4 4 3] s).x[4] = (runProgram [.zpAdd 4 2 3, .zpAdd 4 1 4] s).x[4] ∧
    (runProgram [.zpMul 4 1 2, .zpMul 4 4 3] s).x[4] = (runProgram [.zpMul 4 2 3, .zpMul 4 1 4] s).x[4] ∧
    (runProgram [.zpAdd 4 2 3, .zpMul 4 1 4] s).x[4] =
      (runProgram [.zpMul 4 1 2, .zpMul 5 1 3, .zpAdd 4 4 5] s).x[4] := by
  have hsint := hvalid.sint_residue
  refine ⟨?_, ?_, ?_, ?_, ?_⟩
  · simp [runProgram_zpAdd (c := c), hrun, hc, add_comm]
  · simp [runProgram_zpMul (c := c), hrun, hc, mul_comm]
  · simp [runProgram_zpAdd (c := c), hrun, hc, hsint, add_assoc]
  · simp [runProgram_zpMul (c := c), hrun, hc, hsint, mul_assoc]
  · simp [runProgram_zpAdd (c := c), runProgram_zpMul (c := c), hrun, hc, hsint, mul_add]

/-- Subtraction adds the negation, which is what `ZP.SUB` leaves of 0 and the operand. -/
theorem zp_negation_laws :
    (runProgram [.zpSub 4 1 2] s).x[4] = (runProgram [.li 5 0, .zpSub 5 5 2, .zpAdd 4 1 5] s).x[4] ∧
    (runProgram [.li 5 0, .zpSub 5 5 1, .zpAdd 4 1 5] s).x[4] = 0 := by
  have hsint := hvalid.sint_residue
  refine ⟨?_, ?_⟩
  · simp [runProgram_li_zero, runProgram_zpSub (c := c), runProgram_zpAdd (c := c), hrun, hc, hsint, sub_eq_add_neg]
  · simp [runProgram_li_zero, runProgram_zpSub (c := c), runProgram_zpAdd (c := c), hrun, hc, hsint]

theorem zp_inverse_law (hne : s.xInt 1 % sint c.p ≠ 0) : (runProgram [.zpInv 5 1, .zpMul 4 1 5] s).x[4] = 1 := by
  have hdvd := mt Int.emod_eq_zero_of_dvd hne
  obtain ⟨t, hok, h1, hlt, hinv⟩ := hvalid.exists_modInv hdvd
  have hsint : sint (u64 t) = t := c.sint_u64 (by omega) hlt
  rw [runProgram_zpInv hrun hc hdvd hok]
  simp [runProgram_zpMul (c := c), hrun, hc, hsint, ZpCtx.residue_eq_one hinv]

theorem zp_fermat_law (hne : s.xInt 1 % sint c.p ≠ 0) (hexp : s.xInt 2 = sint c.p - 1) :
    (runProgram [.zpExp 4 1 2] s).x[4] = 1 := by
  obtain ⟨-, h2, -⟩ := ZpCtx.Valid.modulus c hvalid
  rw [runProgram_zpExp hrun hc hvalid (by omega), hexp, hvalid.residue_pow_pred (mt Int.emod_eq_zero_of_dvd hne)]
  simp

theorem zp_congruent_base {d : Word} (h : sint d ≡ s.xInt 1 [ZMOD sint c.p]) :
    (runProgram [.zpExp 4 1 2] (s.writeX 1 d)).x[4] = (runProgram [.zpExp 4 1 2] s).x[4] := by
  have hkeep : (s.writeX 1 d).xInt 2 = s.xInt 2 := by simp
  by_cases he : 0 ≤ s.xInt 2
  · rw [runProgram_zpExp hrun hc hvalid he, runProgram_zpExp (s := s.writeX 1 d) hrun hc hvalid (hkeep ▸ he)]
    simpa using ZpCtx.residue_congr (h.pow _)
  · have hneg : s.xInt 2 < 0 := by omega
    simp [runProgram_x_of_rejected (exec_zpExp_of_neg 4 1 hc hneg),
      runProgram_x_of_rejected (exec_zpExp_of_neg (s := s.writeX 1 d) 4 1 hc (hkeep ▸ hneg))]

theorem zp_congruent_inverse {d : Word} (h : sint d ≡ s.xInt 1 [ZMOD sint c.p]) :
    (runProgram [.zpInv 4 1] (s.writeX 1 d)).x[4] = (runProgram [.zpInv 4 1] s).x[4] := by
  have hwrite : (s.writeX 1 d).xInt 1 = sint d := by simp
  have hiff : sint c.p ∣ (s.writeX 1 d).xInt 1 ↔ sint c.p ∣ s.xInt 1 := by rw [hwrite, h.dvd_iff]
  by_cases hdvd : sint c.p ∣ s.xInt 1
  · simp [runProgram_x_of_rejected (exec_zpInv_of_dvd 4 hc hdvd),
      runProgram_x_of_rejected (exec_zpInv_of_dvd (s := s.writeX 1 d) 4 hc (hiff.mpr hdvd))]
  · obtain ⟨t, hok, -⟩ := hvalid.exists_modInv hdvd
    have hok' : modInv ((s.writeX 1 d).xInt 1 % sint c.p) (sint c.p) = .ok t := by rw [hwrite, h, hok]
    rw [runProgram_zpInv hrun hc hdvd hok, runProgram_zpInv (s := s.writeX 1 d) hrun hc (mt hiff.mp hdvd) hok']
    simp

end FieldLaws

end

/-- Settles O37: the ring laws, the inverses and Fermat's theorem, and congruent operands, each by its law above. -/
theorem zpFieldLaws : Obligations.ZpFieldLaws := by
  intro s c hrun hc hvalid
  obtain ⟨haddComm, hmulComm, haddAssoc, hmulAssoc, hdistrib⟩ := zp_ring_laws hrun hc hvalid
  obtain ⟨hsub, hneg⟩ := zp_negation_laws hrun hc hvalid
  refine ⟨haddComm, hmulComm, haddAssoc, hmulAssoc, hdistrib, hsub, hneg, zp_inverse_law hrun hc hvalid,
    zp_fermat_law hrun hc hvalid, fun d h => ?_, fun d h => ?_⟩
  · obtain ⟨hadd, hsub, hmul⟩ :=
      zp_congruent_ring (t := s.writeX 1 d) hrun hc hrun hc (by simpa [Int.ModEq] using h) (by simp [Int.ModEq])
    exact ⟨hadd, hsub, hmul, zp_congruent_base hrun hc hvalid h, zp_congruent_inverse hrun hc hvalid h⟩
  · exact zp_congruent_ring hrun hc hrun hc (by simp [Int.ModEq]) (by simpa [Int.ModEq] using h)

end Machine

end Sys2Proof

/-! NttContext: the commands of family 3 and the transform they compute (rules R210 to R220). The commands leave
residues in a buffer; the laws of the transform are proved of sums over a domain, and carried over to the integers modulo
the prime of the slot. -/

namespace Sys2Proof

theorem decode_nttInit (ra rb : XReg) : decode (formatR 0x30 0 ra rb 0 0) = .ok (.nttInit ra rb) :=
  decode_formatR rfl (by simp [build, xOf]) (by simp [Shape.firstBad])

theorem decode_nttRaw (rd : VReg) (sel : Bool) : decode (formatR 0x31 rd 0 0 0 sel.toNat) = .ok (.nttRaw rd sel) := by
  cases sel with
  | false => exact decode_formatR (imm8 := 0) rfl (by simp [build]) (by simp [Shape.firstBad, ImmClass.allows])
  | true => exact decode_formatR (imm8 := 1) rfl (by simp [build]) (by simp [Shape.firstBad, ImmClass.allows])

theorem decode_nttFwd (rd : VReg) : decode (formatR 0x32 rd 0 0 0 0) = .ok (.nttFwd rd) :=
  decode_formatR rfl (by simp [build]) (by simp [Shape.firstBad])

theorem decode_nttInv (rd : VReg) : decode (formatR 0x33 rd 0 0 0 0) = .ok (.nttInv rd) :=
  decode_formatR rfl (by simp [build]) (by simp [Shape.firstBad])

theorem decode_nttPmul (rd ra rb : VReg) : decode (formatR 0x34 rd ra rb 0 0) = .ok (.nttPmul rd ra rb) :=
  decode_formatR rfl (by simp [build]) (by simp [Shape.firstBad])

namespace Machine

/-! ### `NTT.INIT` -/

theorem exec_nttInit (ra rb : XReg) (s : State) :
    exec (.nttInit ra rb) s = finish (.nttInit ra rb) s (do
      require (1 ≤ s.xInt ra ∧ isPowerOfTwo (s.xInt ra).toNat ∧ s.xInt ra ≤ s.build.nMax) .badParameter 0
      require (2 ≤ s.xInt rb) .badParameter 1
      require (isPrime (s.xInt rb)) .modulusNotPrime
      require (fmod (s.xInt rb - 1) (2 * s.xInt ra) = 0) .noRoot
      let c ← buildNtt (s.xInt ra) (s.xInt rb)
      return { s with ntt := some c }) := rfl

theorem fmod_eq_zero_iff_dvd (a m : Int) : fmod a m = 0 ↔ m ∣ a := Int.dvd_iff_emod_eq_zero.symm

theorem two_le_of_prime {p : Int} (hp : p.toNat.Prime) : 2 ≤ p := by
  have := hp.two_le
  omega

/-- The slot built on a dimension and a prime that pass the checks: its root is the power of the smallest generator, and
of the order that the transform needs (rules R211, R212, R214). -/
theorem exists_buildNtt {x y : Word} (hn : 1 ≤ sint x) (hp : (sint y).toNat.Prime) (hdvd : 2 * sint x ∣ sint y - 1) :
    ∃ psi psiinv ninv : Word, (∃ g : Int, SmallestGenerator (sint y) g ∧
        sint psi = g ^ ((sint y - 1) / (2 * sint x)).toNat % sint y) ∧
      MultiplicativeOrder (sint y) (sint psi) (2 * (sint x).toNat) ∧
      0 ≤ sint psiinv ∧ sint psiinv < sint y ∧ sint psi * sint psiinv % sint y = 1 ∧
      0 ≤ sint ninv ∧ sint ninv < sint y ∧ sint x * sint ninv % sint y = 1 ∧
      buildNtt (sint x) (sint y) = .ok
        { n := x, p := y, psi := psi, psiinv := psiinv, ninv := ninv,
          rou := (List.range x.toNat).map fun k => u64 (sint psi ^ k % sint y),
          rouinv := (List.range x.toNat).map fun k => u64 (sint psiinv ^ k % sint y) } := by
  have hcast := eq_toNat_of_prime hp
  have h2 := two_le_of_prime hp
  have hle : 2 * sint x ≤ sint y - 1 := Int.le_of_dvd (by omega) hdvd
  have hsint : ∀ z : Int, 0 ≤ z → z < sint y → sint (u64 z) = z := fun z h0 hlt =>
    sint_u64 z (by omega) (hlt.trans (sint_bounds y).2)
  obtain ⟨psi, g, psiinv, ninv, hgok, hpow, hlt, horder, hpsiinv0, hpsiinvlt, hpsiinv, hninv0, hninvlt, hninv,
    hbuild⟩ :=
    buildNtt_eq (sint x) (sint y) hn hp ((fmod_eq_zero_iff_dvd _ _).mpr hdvd)
  obtain ⟨g', hgok', -, hgen, -⟩ := exists_findGenerator hp (by omega)
  rw [← hcast] at hgok' hgen
  obtain rfl : g = g' := Int.ofNat.inj (Except.ok.inj (hgok.symm.trans hgok'))
  rw [toNat_eq_of_sint_nonneg (by omega), u64_sint, u64_sint] at hbuild
  refine ⟨u64 psi, u64 psiinv, u64 ninv, ?_⟩
  rw [hsint psi (by omega) (by omega), hsint psiinv hpsiinv0 hpsiinvlt, hsint ninv hninv0 hninvlt]
  refine ⟨⟨g, hgen, ?_⟩, ?_, hpsiinv0, hpsiinvlt, hpsiinv, hninv0, hninvlt, hninv, hbuild⟩
  · rw [← Nat.cast_pow, ZMod.natCast_eq_natCast_iff, Nat.ModEq, Nat.mod_eq_of_lt hlt] at hpow
    have hpow' := congrArg (Nat.cast : Nat → Int) hpow
    rwa [Int.natCast_mod, Int.natCast_pow, ← hcast] at hpow'
  · rw [hcast, multiplicativeOrder_iff (by omega) (by omega), Int.cast_natCast, horder]
    omega

/-- Where the parameters pass the checks, the command retires with the slot built on them (rule R214). -/
theorem exec_nttInit_of_build {s : State} {ra rb : XReg} {c : NttCtx}
    (hdim : 1 ≤ s.xInt ra ∧ isPowerOfTwo (s.xInt ra).toNat ∧ s.xInt ra ≤ s.build.nMax) (hp : (s.xInt rb).toNat.Prime)
    (hdvd : 2 * s.xInt ra ∣ s.xInt rb - 1) (hbuild : buildNtt (s.xInt ra) (s.xInt rb) = .ok c) :
    exec (.nttInit ra rb) s = .next { s with ntt := some c, cseq := s.cseq + 1 } := by
  rw [exec_nttInit, finish_require_of_pos hdim, finish_require_of_pos (two_le_of_prime hp),
    finish_require_of_pos ((isPrime_iff _).mpr hp), finish_require_of_pos ((fmod_eq_zero_iff_dvd _ _).mpr hdvd), hbuild]
  rfl

/-- Settles O38: each check rejects its own case, and the slot is the one built on the two operands. -/
theorem nttInitBuildsSlot : Obligations.NttInitBuildsSlot := by
  intro s ra rb
  refine ⟨decode_nttInit ra rb, fun hbad => ?_, fun hpow hmax => ?_⟩
  · rw [exec_nttInit, finish_require_of_neg (mt (dimension_check _ _).mp hbad)]
  have hdim := (dimension_check (s.xInt ra) s.build.nMax).mpr ⟨hpow, hmax⟩
  refine ⟨fun hlow => ?_, fun h2 hp => ?_, fun hp hdvd => ?_, fun hp hdvd => ?_⟩
  · rw [exec_nttInit, finish_require_of_pos hdim, finish_require_of_neg (by omega)]
  · rw [exec_nttInit, finish_require_of_pos hdim, finish_require_of_pos h2,
      finish_require_of_neg (by rwa [isPrime_iff])]
  · rw [exec_nttInit, finish_require_of_pos hdim, finish_require_of_pos (two_le_of_prime hp),
      finish_require_of_pos ((isPrime_iff _).mpr hp), finish_require_of_neg (by rwa [fmod_eq_zero_iff_dvd])]
  · obtain ⟨psi, psiinv, ninv, hgen, horder, hpsiinv0, hpsiinvlt, hpsiinv, hninv0, hninvlt, hninv, hbuild⟩ :=
      exists_buildNtt hdim.1 hp hdvd
    exact ⟨psi, psiinv, ninv, hgen, horder, hpsiinv0, hpsiinvlt, hpsiinv, hninv0, hninvlt, hninv,
      exec_nttInit_of_build hdim hp hdvd hbuild⟩

/-! ### What each command answers -/

/-- A command whose source has another size than it checks for is rejected with that size (rules R210, R373). -/
theorem finish_needSize_of_ne {b : Buffer} {n : Nat} (h : b.size ≠ n) (i : Instr) (s : State)
    (f : Unit → Except Exn State) :
    finish i s (needSize b n >>= f) = .next (s.rejected i .lengthMismatch (.ofNat 64 b.size)) := by
  rw [needSize, finish_require_of_neg h, u64, BitVec.ofInt_natCast]

theorem finish_needSize_of_eq {b : Buffer} {n : Nat} (h : b.size = n) (i : Instr) (s : State)
    (f : Unit → Except Exn State) : finish i s (needSize b n >>= f) = finish i s (f ()) :=
  finish_require_of_pos h i s _ _ f

/-- The state after a command of the family retires: buffer `r` holds, for each `k` below `N`, the residue of `f k`
modulo the prime of the slot. -/
def State.writeResidues (s : State) (c : NttCtx) (r : VReg) (f : Nat → Int) : State :=
  { s.writeV r ⟨(List.range c.n.toNat).map fun k => u64 (f k % sint c.p), max s.v[r].cap c.n.toNat⟩ with
    cseq := s.cseq + 1 }

/-- The sum of rule R216: the value at the `k`-th odd power of the root of the polynomial with coefficients `a`. -/
def forwardSum {R : Type} [CommRing R] (n : Nat) (psi : R) (a : Nat → R) (k : Nat) : R :=
  ∑ j ∈ Finset.range n, a j * psi ^ ((2 * k + 1) * j)

/-- The sum of rule R217: scaled by the inverse of `n` and untwisted by the powers of the inverse of the root. -/
def inverseSum {R : Type} [CommRing R] (n : Nat) (psiinv ninv : R) (y : Nat → R) (i : Nat) : R :=
  ninv * psiinv ^ i * ∑ j ∈ Finset.range n, y j * psiinv ^ (2 * i * j)

section

variable {s : State} {c : NttCtx}

theorem exec_ntt_of_none (rd ra rb : VReg) (sel : Bool) (hc : s.ntt = none) :
    exec (.nttRaw rd sel) s = .next (s.rejected (.nttRaw rd sel) .noContext 1) ∧
      exec (.nttFwd rd) s = .next (s.rejected (.nttFwd rd) .noContext 1) ∧
      exec (.nttInv rd) s = .next (s.rejected (.nttInv rd) .noContext 1) ∧
      exec (.nttPmul rd ra rb) s = .next (s.rejected (.nttPmul rd ra rb) .noContext 1) := by
  simp only [exec, execNttRaw, execNttFwd, execNttInv, execNttPmul, hc, finish_needSlot_none, and_self]

theorem exec_nttRaw (rd : VReg) (sel : Bool) (hc : s.ntt = some c) :
    exec (.nttRaw rd sel) s = finish (.nttRaw rd sel) s (do
      needSize s.v[rd] c.n.toNat
      vecAssign s rd (transform (sint c.p) ((if sel then c.rouinv else c.rou).map sint) (s.elems rd))) := by
  rw [exec, execNttRaw, hc]
  rfl

theorem exec_nttFwd (rd : VReg) (hc : s.ntt = some c) :
    exec (.nttFwd rd) s = finish (.nttFwd rd) s (do
      needSize s.v[rd] c.n.toNat
      vecAssign s rd (nttForward c (s.elems rd))) := by
  rw [exec, execNttFwd, hc]
  rfl

theorem exec_nttInv (rd : VReg) (hc : s.ntt = some c) :
    exec (.nttInv rd) s = finish (.nttInv rd) s (do
      needSize s.v[rd] c.n.toNat
      vecAssign s rd (nttInverse c (s.elems rd))) := by
  rw [exec, execNttInv, hc]
  rfl

theorem exec_nttPmul (rd ra rb : VReg) (hc : s.ntt = some c) :
    exec (.nttPmul rd ra rb) s = finish (.nttPmul rd ra rb) s (do
      needSize s.v[ra] c.n.toNat
      needSize s.v[rb] c.n.toNat
      vecAssign s rd (pointwise (sint c.p) (s.elems ra) (s.elems rb))) := by
  rw [exec, execNttPmul, hc]
  rfl

/-- `N` residues fit a buffer of every build (rule R6), so a command that computes them retires. -/
theorem finish_vecAssign_residues (hvalid : c.Valid s.build) (i : Instr) (r : VReg) (f : Nat → Int) :
    finish i s (vecAssign s r ((List.range c.n.toNat).map fun k => f k % sint c.p)) =
      .next (s.writeResidues c r f) := by
  obtain ⟨-, hmax, -⟩ := NttCtx.Valid.fields _ c hvalid
  have hlen : ((List.range c.n.toNat).map fun k => f k % sint c.p).length = c.n.toNat := by simp
  rw [finish_vecAssign_of_le i r (hlen.trans_le (hmax.trans s.build.nMax_le_vcapMax)), hlen, List.map_map]
  rfl

theorem State.length_elems (s : State) (r : VReg) : (s.elems r).length = s.v[r].size := List.length_map _

theorem exec_nttFwd_of_size {rd : VReg} (hc : s.ntt = some c) (hvalid : c.Valid s.build)
    (hsize : s.v[rd].size = c.n.toNat) :
    exec (.nttFwd rd) s = .next (s.writeResidues c rd (forwardSum c.n.toNat (sint c.psi) (s.element rd))) := by
  rw [exec_nttFwd rd hc, finish_needSize_of_eq hsize,
    nttForward_eq _ c hvalid _ ((s.length_elems rd).trans hsize)]
  exact finish_vecAssign_residues hvalid _ rd _

theorem exec_nttInv_of_size {rd : VReg} (hc : s.ntt = some c) (hvalid : c.Valid s.build)
    (hsize : s.v[rd].size = c.n.toNat) :
    exec (.nttInv rd) s =
      .next (s.writeResidues c rd (inverseSum c.n.toNat (sint c.psiinv) (sint c.ninv) (s.element rd))) := by
  rw [exec_nttInv rd hc, finish_needSize_of_eq hsize,
    nttInverse_eq _ c hvalid _ ((s.length_elems rd).trans hsize)]
  exact finish_vecAssign_residues hvalid _ rd _

theorem exec_nttPmul_of_size (rd : VReg) {ra rb : VReg} (hc : s.ntt = some c) (hvalid : c.Valid s.build)
    (ha : s.v[ra].size = c.n.toNat) (hb : s.v[rb].size = c.n.toNat) :
    exec (.nttPmul rd ra rb) s = .next (s.writeResidues c rd fun k => s.element ra k * s.element rb k) := by
  rw [exec_nttPmul rd ra rb hc, finish_needSize_of_eq ha, finish_needSize_of_eq hb,
    pointwise_eq _ _ _ (by rw [State.length_elems, State.length_elems, ha, hb]), State.length_elems, ha]
  exact finish_vecAssign_residues hvalid _ rd _

/-! ### The cyclic transform of `NTT.RAW` -/

/-- The step of the transform is the square of entry 1 of the table, and 1 when that has one entry only (rule R213). -/
theorem omegaOf_map_sint (p : Int) {table : List Word} (h : table ≠ []) :
    omegaOf p (table.map sint) = if table.length = 1 then 1 else sint (table.getD 1 0) ^ 2 % p := by
  match table, h with
  | [_], _ => rfl
  | _ :: _ :: _, _ => simp [omegaOf, fmod, sq]

/-- Either table of a valid slot has `N` entries (rule R43). -/
theorem NttCtx.Valid.length_table {b : Build} (hc : c.Valid b) (sel : Bool) :
    (if sel then c.rouinv else c.rou).length = c.n.toNat := by
  obtain ⟨-, -, -, -, -, -, -, -, -, -, -, -, -, -, -, hrou, hrouinv⟩ := NttCtx.Valid.fields b c hc
  have hlen := congrArg List.length hrou
  have hleninv := congrArg List.length hrouinv
  simp only [List.length_map, List.length_range] at hlen hleninv
  split <;> assumption

/-- The transform of a source of `N` elements, over the table that the command selects (rules R213, R215). -/
theorem exec_nttRaw_of_size {rd : VReg} (sel : Bool) (hc : s.ntt = some c) (hvalid : c.Valid s.build)
    (hsize : s.v[rd].size = c.n.toNat) :
    ∃ omega : Int,
      omega = (if c.n.toNat = 1 then 1 else sint ((if sel then c.rouinv else c.rou).getD 1 0) ^ 2 % sint c.p) ∧
      exec (.nttRaw rd sel) s = .next (s.writeResidues c rd fun k =>
        ∑ j ∈ Finset.range c.n.toNat, s.element rd j * omega ^ (j * k)) := by
  obtain ⟨hn, -, -, -, -, hp, -⟩ := NttCtx.Valid.fields _ c hvalid
  have hlen := hvalid.length_table sel
  have homega := omegaOf_map_sint (sint c.p) (table := if sel then c.rouinv else c.rou)
    (List.ne_nil_of_length_pos (hlen ▸ hn))
  rw [hlen] at homega
  refine ⟨_, homega, ?_⟩
  have hnonneg : 0 ≤ omegaOf (sint c.p) ((if sel then c.rouinv else c.rou).map sint) := by
    rw [homega]
    split
    · exact zero_le_one
    · exact Int.emod_nonneg _ (by omega)
  rw [exec_nttRaw rd sel hc, finish_needSize_of_eq hsize, transform_eq _ _ _ (by omega) hnonneg, State.length_elems,
    hsize]
  exact finish_vecAssign_residues hvalid _ rd _

end

/-- Settles O39: the step of the transform over the selected table, which has `N` entries. -/
theorem nttRawIsCyclicTransform : Obligations.NttRawIsCyclicTransform := by
  intro s rd sel
  refine ⟨decode_nttRaw rd sel, fun hnone => (exec_ntt_of_none rd rd rd sel hnone).1, fun c hc hvalid =>
    ⟨fun hne => ?_, exec_nttRaw_of_size sel hc hvalid⟩⟩
  rw [exec_nttRaw rd sel hc, finish_needSize_of_ne hne]

/-- Settles O40: the twist by `ψ^j` makes the `k`-th power of `ψ²` the `k`-th odd power of `ψ`. -/
theorem nttForwardEvaluatesAtOddPowers : Obligations.NttForwardEvaluatesAtOddPowers := by
  intro s rd
  refine ⟨decode_nttFwd rd, fun hnone => (exec_ntt_of_none rd rd rd false hnone).2.1, fun c hc hvalid =>
    ⟨fun hne => ?_, exec_nttFwd_of_size hc hvalid⟩⟩
  rw [exec_nttFwd rd hc, finish_needSize_of_ne hne]

/-- Settles O41: the product checks its first source before its second. -/
theorem nttInverseAndPointwiseProduct : Obligations.NttInverseAndPointwiseProduct := by
  intro s rd ra rb
  refine ⟨decode_nttInv rd, decode_nttPmul rd ra rb, fun hnone => ?_, fun c hc hvalid => ⟨fun hne => ?_,
    exec_nttInv_of_size hc hvalid, fun hne => ?_, fun ha hne => ?_, exec_nttPmul_of_size rd hc hvalid⟩⟩
  · obtain ⟨-, -, hinv, hpmul⟩ := exec_ntt_of_none rd ra rb false hnone
    exact ⟨hinv, hpmul⟩
  · rw [exec_nttInv rd hc, finish_needSize_of_ne hne]
  · rw [exec_nttPmul rd ra rb hc, finish_needSize_of_ne hne]
  · rw [exec_nttPmul rd ra rb hc, finish_needSize_of_eq ha, finish_needSize_of_ne hne]

/-! ### The laws of the transform

Of sums in a ring, and from orthogonality on in a domain that has a root of order `2n`, as the field of `p` elements is
for the slot. -/

section

variable {R : Type} [CommRing R] {n : Nat}

theorem forwardSum_congr {a b : Nat → R} (h : ∀ j < n, a j = b j) (psi : R) : forwardSum n psi a = forwardSum n psi b :=
  funext fun _ => Finset.sum_congr rfl fun j hj => by rw [h j (Finset.mem_range.mp hj)]

theorem inverseSum_congr {y z : Nat → R} (h : ∀ j < n, y j = z j) (psiinv ninv : R) :
    inverseSum n psiinv ninv y = inverseSum n psiinv ninv z :=
  funext fun i => congrArg (ninv * psiinv ^ i * ·) <|
    Finset.sum_congr rfl fun j hj => by rw [h j (Finset.mem_range.mp hj)]

theorem cast_forwardSum (psi : Int) (a : Nat → Int) (k : Nat) :
    ((forwardSum n psi a k : Int) : R) = forwardSum n (psi : R) (fun j => (a j : R)) k := by
  simp [forwardSum]

theorem cast_inverseSum (psiinv ninv : Int) (y : Nat → Int) (i : Nat) :
    ((inverseSum n psiinv ninv y i : Int) : R) = inverseSum n (psiinv : R) (ninv : R) (fun j => (y j : R)) i := by
  simp [inverseSum]

/-- One product of coefficients, reduced modulo `x^n + 1`, has the value it had. -/
theorem sum_negacyclic_term {z : R} (hz : z ^ n = -1) (d : R) {i j : Nat} (hi : i < n) (hj : j < n) :
    ∑ k ∈ Finset.range n, (if i + j = k then d else if i + j = k + n then -d else 0) * z ^ k = d * z ^ (i + j) := by
  by_cases hlt : i + j < n
  · rw [Finset.sum_eq_single_of_mem (i + j) (Finset.mem_range.mpr hlt) fun k hk hne => ?_, if_pos rfl]
    rw [if_neg (Ne.symm hne), if_neg (by omega), zero_mul]
  · rw [Finset.sum_eq_single_of_mem (i + j - n) (Finset.mem_range.mpr (by omega)) fun k hk hne => ?_,
      if_neg (by omega), if_pos (by omega)]
    · have hpow : z ^ (i + j) = z ^ (i + j - n) * z ^ n := by rw [← pow_add, Nat.sub_add_cancel (by omega)]
      rw [hpow, hz]
      ring
    · have := Finset.mem_range.mp hk
      rw [if_neg (by omega), if_neg (by omega), zero_mul]

/-- At a root of `x^n + 1` the negacyclic product has the product of the values (rule R220). -/
theorem sum_negacyclicSum {z : R} (hz : z ^ n = -1) (a b : Nat → Int) :
    ∑ k ∈ Finset.range n, (negacyclicSum n a b k : R) * z ^ k =
      (∑ i ∈ Finset.range n, (a i : R) * z ^ i) * ∑ j ∈ Finset.range n, (b j : R) * z ^ j := by
  calc ∑ k ∈ Finset.range n, (negacyclicSum n a b k : R) * z ^ k
      = ∑ i ∈ Finset.range n, ∑ j ∈ Finset.range n, ∑ k ∈ Finset.range n,
          (if i + j = k then (a i * b j : R) else if i + j = k + n then -(a i * b j : R) else 0) * z ^ k := by
        simp only [negacyclicSum, Int.cast_sum, Finset.sum_mul]
        rw [Finset.sum_comm]
        congr! 1
        rw [Finset.sum_comm]
        push_cast
        rfl
    _ = ∑ i ∈ Finset.range n, ∑ j ∈ Finset.range n, (a i : R) * z ^ i * (b j * z ^ j) := by
        refine Finset.sum_congr rfl fun i hi => Finset.sum_congr rfl fun j hj => ?_
        rw [sum_negacyclic_term hz _ (Finset.mem_range.mp hi) (Finset.mem_range.mp hj)]
        ring
    _ = _ := by rw [Finset.sum_mul_sum]

variable [IsDomain R] {psi psiinv ninv : R}

theorem geom_sum_eq_zero_of_pow_eq_one {x : R} (hpow : x ^ n = 1) (hne : x ≠ 1) : ∑ k ∈ Finset.range n, x ^ k = 0 := by
  have hmul := geom_sum_mul x n
  rw [hpow, sub_self] at hmul
  exact (mul_eq_zero.mp hmul).resolve_right (sub_ne_zero.mpr hne)

/-- The rows of the transform are orthogonal to those of the inverse transform. -/
theorem sum_root_powers (hpsi : IsPrimitiveRoot psi (2 * n)) (hinv : psi * psiinv = 1) {i j : Nat} (hi : i < n)
    (hj : j < n) :
    ∑ k ∈ Finset.range n, (psi ^ (2 * j) * psiinv ^ (2 * i)) ^ k = if j = i then (n : R) else 0 := by
  have hcancel : psi ^ (2 * i) * psiinv ^ (2 * i) = 1 := by rw [← mul_pow, hinv, one_pow]
  split
  case isTrue h => simp [h, hcancel]
  case isFalse h =>
    refine geom_sum_eq_zero_of_pow_eq_one ?_ fun hone => h ?_
    · have hinvpow : psiinv ^ (2 * n) = 1 := by
        simpa [mul_pow, hpsi.pow_eq_one] using congrArg (· ^ (2 * n)) hinv
      calc (psi ^ (2 * j) * psiinv ^ (2 * i)) ^ n
          = (psi ^ (2 * n)) ^ j * (psiinv ^ (2 * n)) ^ i := by ring
        _ = 1 := by rw [hpsi.pow_eq_one, hinvpow, one_pow, one_pow, one_mul]
    · have hpow : psi ^ (2 * j) = psi ^ (2 * i) := calc
        psi ^ (2 * j) = psi ^ (2 * j) * psiinv ^ (2 * i) * psi ^ (2 * i) := by
          rw [mul_assoc, mul_comm (psiinv ^ _), hcancel, mul_one]
        _ = psi ^ (2 * i) := by rw [hone, one_mul]
      have := hpsi.pow_inj (by omega) (by omega) hpow
      omega

/-- The inverse transform undoes the forward one (rule R217). -/
theorem inverseSum_forwardSum (hpsi : IsPrimitiveRoot psi (2 * n)) (hinv : psi * psiinv = 1)
    (hninv : (n : R) * ninv = 1) (a : Nat → R) {i : Nat} (hi : i < n) :
    inverseSum n psiinv ninv (forwardSum n psi a) i = a i := by
  have hcancel : psi ^ i * psiinv ^ i = 1 := by rw [← mul_pow, hinv, one_pow]
  calc inverseSum n psiinv ninv (forwardSum n psi a) i
      = ninv * psiinv ^ i * ∑ k ∈ Finset.range n, ∑ j ∈ Finset.range n,
          a j * psi ^ j * (psi ^ (2 * j) * psiinv ^ (2 * i)) ^ k := by
        simp only [inverseSum, forwardSum, Finset.sum_mul]
        congr! 3
        ring
    _ = ninv * psiinv ^ i * ∑ j ∈ Finset.range n, a j * psi ^ j * if j = i then (n : R) else 0 := by
        rw [Finset.sum_comm]
        congr! 2 with j hj
        rw [← Finset.mul_sum, sum_root_powers hpsi hinv hi (Finset.mem_range.mp hj)]
    _ = (psi ^ i * psiinv ^ i) * (n * ninv) * a i := by
        simp [hi]
        ring
    _ = a i := by rw [hcancel, hninv, one_mul, one_mul]

/-- The forward transform undoes the inverse one (rule R217). -/
theorem forwardSum_inverseSum (hpsi : IsPrimitiveRoot psi (2 * n)) (hinv : psi * psiinv = 1)
    (hninv : (n : R) * ninv = 1) (y : Nat → R) {k : Nat} (hk : k < n) :
    forwardSum n psi (inverseSum n psiinv ninv y) k = y k := by
  calc forwardSum n psi (inverseSum n psiinv ninv y) k
      = ∑ i ∈ Finset.range n, ∑ j ∈ Finset.range n,
          ninv * y j * (psi * psiinv) ^ i * (psi ^ (2 * k) * psiinv ^ (2 * j)) ^ i := by
        simp only [inverseSum, forwardSum, Finset.sum_mul, Finset.mul_sum]
        congr! 2
        ring
    _ = ∑ j ∈ Finset.range n, ninv * y j * if k = j then (n : R) else 0 := by
        rw [Finset.sum_comm]
        congr! 1 with j hj
        simp only [hinv, one_pow, mul_one]
        rw [← Finset.mul_sum, sum_root_powers hpsi hinv (Finset.mem_range.mp hj) hk]
    _ = n * ninv * y k := by
        simp [hk]
        ring
    _ = y k := by rw [hninv, one_mul]

/-- Half way round, a root of even order is `-1`. -/
theorem pow_eq_neg_one (hpsi : IsPrimitiveRoot psi (2 * n)) (hn : 0 < n) : psi ^ n = -1 :=
  (hpsi.pow (by omega) (mul_comm 2 n)).eq_neg_one_of_two_right

/-- The forward transform takes the negacyclic product to the product element by element (rule R220). -/
theorem forwardSum_negacyclicSum (hpsi : IsPrimitiveRoot psi (2 * n)) (hn : 0 < n) (a b : Nat → Int) (k : Nat) :
    forwardSum n psi (fun i => (negacyclicSum n a b i : R)) k =
      forwardSum n psi (fun i => (a i : R)) k * forwardSum n psi (fun i => (b i : R)) k := by
  have hz : (psi ^ (2 * k + 1)) ^ n = -1 := by
    rw [← pow_mul, mul_comm, pow_mul, pow_eq_neg_one hpsi hn]
    exact Odd.neg_one_pow ⟨k, rfl⟩
  simpa only [forwardSum, pow_mul] using sum_negacyclicSum hz a b

end

/-! ### The laws modulo the prime of the slot -/

section

variable {b : Build} {c : NttCtx}

theorem cast_eq_iff_modEq {p : Int} (hp : 0 ≤ p) (x y : Int) : (x : ZMod p.toNat) = y ↔ x ≡ y [ZMOD p] := by
  rw [ZMod.intCast_eq_intCast_iff, Int.toNat_of_nonneg hp]

/-- What the transforms need of a valid slot: in the field of `p` elements `psi` is a root of order `2N`, and the two
stored inverses are inverses (rules R43, R211). -/
theorem NttCtx.Valid.root (hc : c.Valid b) :
    IsPrimitiveRoot (sint c.psi : ZMod (sint c.p).toNat) (2 * c.n.toNat) ∧
      (sint c.psi : ZMod (sint c.p).toNat) * sint c.psiinv = 1 ∧
      (c.n.toNat : ZMod (sint c.p).toNat) * sint c.ninv = 1 := by
  obtain ⟨-, -, -, -, -, hp, horder, -, -, -, -, hpsi, -, -, hninv, -, -⟩ := NttCtx.Valid.fields b c hc
  have hone : ∀ x : Int, x % sint c.p = 1 → (x : ZMod (sint c.p).toNat) = 1 := fun x hx => by
    rw [← Int.cast_one, cast_eq_iff_modEq (by omega)]
    exact hx.trans (Int.emod_eq_of_lt zero_le_one (by omega)).symm
  refine ⟨horder ▸ IsPrimitiveRoot.orderOf _, ?_, ?_⟩
  · exact_mod_cast hone _ hpsi
  · exact_mod_cast hone _ hninv

/-- The inverse transform of residues of a forward transform gives the residues of its operand (rule R217). -/
theorem NttCtx.Valid.inverseSum_modEq (hc : c.Valid b) {a y : Nat → Int}
    (hy : ∀ k < c.n.toNat, y k ≡ forwardSum c.n.toNat (sint c.psi) a k [ZMOD sint c.p]) {i : Nat}
    (hi : i < c.n.toNat) : inverseSum c.n.toNat (sint c.psiinv) (sint c.ninv) y i ≡ a i [ZMOD sint c.p] := by
  obtain ⟨-, -, -, -, hprime, hp, -⟩ := NttCtx.Valid.fields b c hc
  obtain ⟨hroot, hpsi, hninv⟩ := hc.root
  have := Fact.mk hprime
  simp only [← cast_eq_iff_modEq (show 0 ≤ sint c.p by omega), cast_forwardSum] at hy ⊢
  rw [cast_inverseSum, inverseSum_congr hy, inverseSum_forwardSum hroot hpsi hninv _ hi]

/-- The forward transform of residues of an inverse transform gives the residues of its operand (rule R217). -/
theorem NttCtx.Valid.forwardSum_modEq (hc : c.Valid b) {a y : Nat → Int}
    (ha : ∀ i < c.n.toNat, a i ≡ inverseSum c.n.toNat (sint c.psiinv) (sint c.ninv) y i [ZMOD sint c.p]) {k : Nat}
    (hk : k < c.n.toNat) : forwardSum c.n.toNat (sint c.psi) a k ≡ y k [ZMOD sint c.p] := by
  obtain ⟨-, -, -, -, hprime, hp, -⟩ := NttCtx.Valid.fields b c hc
  obtain ⟨hroot, hpsi, hninv⟩ := hc.root
  have := Fact.mk hprime
  simp only [← cast_eq_iff_modEq (show 0 ≤ sint c.p by omega), cast_inverseSum] at ha ⊢
  rw [cast_forwardSum, forwardSum_congr ha, forwardSum_inverseSum hroot hpsi hninv _ hk]

theorem NttCtx.Valid.forwardSum_negacyclicSum_modEq (hc : c.Valid b) (x y : Nat → Int) (k : Nat) :
    forwardSum c.n.toNat (sint c.psi) (negacyclicSum c.n.toNat x y) k ≡
      forwardSum c.n.toNat (sint c.psi) x k * forwardSum c.n.toNat (sint c.psi) y k [ZMOD sint c.p] := by
  obtain ⟨hn, -, -, -, hprime, hp, -⟩ := NttCtx.Valid.fields b c hc
  obtain ⟨hroot, -, -⟩ := hc.root
  have := Fact.mk hprime
  rw [← cast_eq_iff_modEq (by omega), Int.cast_mul, cast_forwardSum, cast_forwardSum, cast_forwardSum,
    forwardSum_negacyclicSum hroot hn]

end

/-! ### Runs of the commands -/

section

variable {s : State} {c : NttCtx} {rd r q : VReg}

@[simp] theorem State.writeResidues_build (s : State) (c : NttCtx) (r : VReg) (f : Nat → Int) :
    (s.writeResidues c r f).build = s.build := rfl

@[simp] theorem State.writeResidues_run (s : State) (c : NttCtx) (r : VReg) (f : Nat → Int) :
    (s.writeResidues c r f).run = s.run := rfl

@[simp] theorem State.writeResidues_ntt (s : State) (c : NttCtx) (r : VReg) (f : Nat → Int) :
    (s.writeResidues c r f).ntt = s.ntt := rfl

theorem State.writeResidues_get (s : State) (c : NttCtx) (r q : VReg) (f : Nat → Int) :
    (s.writeResidues c r f).v[q] = if r = q then
      ⟨(List.range c.n.toNat).map fun k => u64 (f k % sint c.p), max s.v[r].cap c.n.toNat⟩ else s.v[q] :=
  s.writeV_get r q _

theorem State.size_writeResidues (s : State) (c : NttCtx) (r : VReg) (f : Nat → Int) :
    (s.writeResidues c r f).v[r].size = c.n.toNat := by
  rw [writeResidues_get, if_pos rfl, Buffer.size, List.length_map, List.length_range]

theorem State.size_writeResidues_of_size {f : Nat → Int} (h : s.v[q].size = c.n.toNat) :
    (s.writeResidues c r f).v[q].size = c.n.toNat := by
  by_cases hq : r = q
  · rw [hq, size_writeResidues]
  · rwa [writeResidues_get, if_neg hq]

/-- The residues are read back as the numbers they are. -/
theorem State.elems_writeResidues (hvalid : c.Valid s.build) (f : Nat → Int) :
    (s.writeResidues c r f).elems r = (List.range c.n.toNat).map fun k => f k % sint c.p := by
  obtain ⟨-, -, -, -, -, hp, -⟩ := NttCtx.Valid.fields _ c hvalid
  rw [elems, writeResidues_get, if_pos rfl, List.map_map]
  refine List.map_congr_left fun k _ => ?_
  obtain ⟨h0, hlt⟩ := fmod_bounds (f k) (sint c.p) (by omega)
  exact sint_u64 _ (by rw [fmod] at h0; omega) (hlt.trans (sint_bounds c.p).2)

theorem State.element_writeResidues (hvalid : c.Valid s.build) (f : Nat → Int) {k : Nat} (hk : k < c.n.toNat) :
    (s.writeResidues c r f).element r k ≡ f k [ZMOD sint c.p] := by
  rw [element, elems_writeResidues hvalid, List.getD_eq_getElem _ _ (by simpa using hk), List.getElem_map,
    List.getElem_range]
  exact Int.mod_modEq _ _

theorem State.element_writeResidues_of_ne (h : r ≠ q) (f : Nat → Int) :
    (s.writeResidues c r f).element q = s.element q := by
  funext k
  rw [element, elems, writeResidues_get, if_neg h, element, elems]

/-- Residues in one buffer stay when residues are written to another. -/
theorem State.element_writeResidues_writeResidues (hvalid : c.Valid s.build) (h : r ≠ q) (f g : Nat → Int) {k : Nat}
    (hk : k < c.n.toNat) :
    ((s.writeResidues c r f).writeResidues c q g).element r k ≡ f k [ZMOD sint c.p] := by
  rw [element_writeResidues_of_ne h.symm]
  exact element_writeResidues hvalid f hk

/-- A buffer of `N` elements, as the list of its elements by index. -/
theorem State.elems_eq_map_element (h : s.v[rd].size = c.n.toNat) :
    s.elems rd = (List.range c.n.toNat).map (s.element rd) := by
  refine List.ext_getElem (by rw [length_elems, h, List.length_map, List.length_range]) fun k hk _ => ?_
  rw [List.getElem_map, List.getElem_range, element, List.getD_eq_getElem _ _ hk]

theorem map_emod_congr {n : Nat} {p : Int} {f g : Nat → Int} (h : ∀ k < n, f k ≡ g k [ZMOD p]) :
    ((List.range n).map fun k => f k % p) = (List.range n).map fun k => g k % p :=
  List.map_congr_left fun k hk => h k (List.mem_range.mp hk)

section

variable (hrun : s.run = .idle) (hc : s.ntt = some c) (hvalid : c.Valid s.build)

include hrun hc hvalid

theorem runProgram_nttFwd (hsize : s.v[rd].size = c.n.toNat) (rest : List Instr) :
    runProgram (.nttFwd rd :: rest) s =
      runProgram rest (s.writeResidues c rd (forwardSum c.n.toNat (sint c.psi) (s.element rd))) :=
  runProgram_cons (exec_nttFwd_of_size hc hvalid hsize) (by simp [hrun]) rest

theorem runProgram_nttInv (hsize : s.v[rd].size = c.n.toNat) (rest : List Instr) :
    runProgram (.nttInv rd :: rest) s = runProgram rest
      (s.writeResidues c rd (inverseSum c.n.toNat (sint c.psiinv) (sint c.ninv) (s.element rd))) :=
  runProgram_cons (exec_nttInv_of_size hc hvalid hsize) (by simp [hrun]) rest

theorem runProgram_nttPmul {ra rb : VReg} (ha : s.v[ra].size = c.n.toNat) (hb : s.v[rb].size = c.n.toNat) (rd : VReg)
    (rest : List Instr) :
    runProgram (.nttPmul rd ra rb :: rest) s =
      runProgram rest (s.writeResidues c rd fun k => s.element ra k * s.element rb k) :=
  runProgram_cons (exec_nttPmul_of_size rd hc hvalid ha hb) (by simp [hrun]) rest

/-- The product of the residues of two forward transforms, transformed back, is the negacyclic product (rule R220). -/
theorem elems_nttPmul_nttInv {ra rb : VReg} {x y : Nat → Int} (rd : VReg) (ha : s.v[ra].size = c.n.toNat)
    (hb : s.v[rb].size = c.n.toNat)
    (hx : ∀ k < c.n.toNat, s.element ra k ≡ forwardSum c.n.toNat (sint c.psi) x k [ZMOD sint c.p])
    (hy : ∀ k < c.n.toNat, s.element rb k ≡ forwardSum c.n.toNat (sint c.psi) y k [ZMOD sint c.p]) :
    (runProgram [.nttPmul rd ra rb, .nttInv rd] s).elems rd =
      (List.range c.n.toNat).map fun k => negacyclicSum c.n.toNat x y k % sint c.p := by
  rw [runProgram_nttPmul hrun hc hvalid ha hb,
    runProgram_nttInv (s := s.writeResidues c rd _) hrun hc hvalid (s.size_writeResidues c rd _), runProgram_nil,
    State.elems_writeResidues (s := s.writeResidues c rd _) hvalid]
  refine map_emod_congr fun i hi => hvalid.inverseSum_modEq (fun k hk => ?_) hi
  exact (State.element_writeResidues hvalid _ hk).trans
    (((hx k hk).mul (hy k hk)).trans (hvalid.forwardSum_negacyclicSum_modEq x y k).symm)

end

end

/-- Settles O42: the buffer between the two commands holds the residues of the first transform. -/
theorem nttRoundTrip : Obligations.NttRoundTrip := by
  intro s rd c hrun hc hvalid hsize
  rw [State.elems_eq_map_element hsize, List.map_map]
  constructor
  · rw [runProgram_nttFwd hrun hc hvalid hsize,
      runProgram_nttInv (s := s.writeResidues c rd _) hrun hc hvalid (s.size_writeResidues c rd _), runProgram_nil,
      State.elems_writeResidues (s := s.writeResidues c rd _) hvalid]
    exact map_emod_congr fun i hi =>
      hvalid.inverseSum_modEq (fun k hk => State.element_writeResidues hvalid _ hk) hi
  · rw [runProgram_nttInv hrun hc hvalid hsize,
      runProgram_nttFwd (s := s.writeResidues c rd _) hrun hc hvalid (s.size_writeResidues c rd _), runProgram_nil,
      State.elems_writeResidues (s := s.writeResidues c rd _) hvalid]
    exact map_emod_congr fun k hk =>
      hvalid.forwardSum_modEq (fun i hi => State.element_writeResidues hvalid _ hi) hk

/-- Settles O43: the inverse transform meets the residues of the forward transform of the schoolbook product. -/
theorem nttProductIsSchoolbookProduct : Obligations.NttProductIsSchoolbookProduct := by
  intro s rd ra rb c hrun hc hvalid hne ha hb
  rw [runProgram_nttFwd hrun hc hvalid ha,
    runProgram_nttFwd (s := s.writeResidues c ra _) hrun hc hvalid (State.size_writeResidues_of_size hb),
    State.element_writeResidues_of_ne hne]
  exact elems_nttPmul_nttInv (s := (s.writeResidues c ra _).writeResidues c rb _) hrun hc hvalid rd
    (State.size_writeResidues_of_size (s.size_writeResidues c ra _)) (State.size_writeResidues _ c rb _)
    (fun k hk => State.element_writeResidues_writeResidues hvalid hne _ _ hk)
    fun k hk => State.element_writeResidues (s := s.writeResidues c ra _) hvalid _ hk

end Machine

end Sys2Proof

/-! CrtContext: the slot that `CRT.INIT` builds, the one value that `CRT.DEC` reconstructs, and the round trip (rules
R240 to R248). -/

namespace Sys2Proof

theorem decode_crtInit (ra rb rc : XReg) : decode (formatR 0x40 0 ra rb rc 0) = .ok (.crtInit ra rb rc) :=
  decode_formatR rfl (by simp [build, xOf]) (by simp [Shape.firstBad])

theorem decode_crtDec (rd : WReg) (ra : VReg) : decode (formatR 0x42 rd ra 0 0 0) = .ok (.crtDec rd ra) :=
  decode_formatR rfl (by simp [build]) (by simp [Shape.firstBad])

namespace Machine

/-! ### The first primes of a shape -/

/-- The list is sorted, and it holds primes that the search of rule R241 accepts, none of which it leaves out below its
greatest. -/
structure FirstPrimes (size d : Int) (l : List Int) : Prop where
  sorted : l.Pairwise (· < ·)
  prime : ∀ q ∈ l, CrtPrime size d q
  first : ∀ q, CrtPrime size d q → q ∈ l ∨ ∀ r ∈ l, r < q

namespace FirstPrimes

variable {size d : Int} {l m : List Int}

theorem nodup (hl : FirstPrimes size d l) : l.Nodup := hl.sorted.imp fun h => h.ne

/-- Of two lists of first primes one holds the other. -/
theorem subset_or_subset (hl : FirstPrimes size d l) (hm : FirstPrimes size d m) : l ⊆ m ∨ m ⊆ l := by
  by_contra! hnot
  obtain ⟨hlm, hml⟩ := hnot
  simp only [List.subset_def, not_forall] at hlm hml
  obtain ⟨a, hal, ham⟩ := hlm
  obtain ⟨b, hbm, hbl⟩ := hml
  have hlt : b < a := (hm.first a (hl.prime a hal)).resolve_left ham b hbm
  have hgt : a < b := (hl.first b (hm.prime b hbm)).resolve_left hbl a hal
  exact hlt.not_gt hgt

theorem eq_of_subset (hl : FirstPrimes size d l) (hm : FirstPrimes size d m) (hsub : l ⊆ m)
    (hlen : m.length ≤ l.length) : l = m :=
  ((List.subperm_of_subset hl.nodup hsub).perm_of_length_le hlen).eq_of_pairwise
    (fun _ _ _ _ hlt hgt => absurd hgt hlt.not_gt) hl.sorted hm.sorted

/-- There is one list of first primes of each length. -/
theorem eq_of_length (hl : FirstPrimes size d l) (hm : FirstPrimes size d m) (hlen : l.length = m.length) : l = m := by
  obtain hsub | hsub := hl.subset_or_subset hm
  · exact hl.eq_of_subset hm hsub hlen.ge
  · exact (hm.eq_of_subset hl hsub hlen.le).symm

/-- A list of all the primes of the shape is the longest. -/
theorem length_le (hl : FirstPrimes size d l) (hall : ∀ q, CrtPrime size d q → q ∈ m) : l.length ≤ m.length :=
  (List.subperm_of_subset hl.nodup fun q hq => hall q (hl.prime q hq)).length_le

end FirstPrimes

theorem CrtPrime.nonneg {size d q : Int} (hq : CrtPrime size d q) : 0 ≤ q := by
  obtain ⟨hp, -⟩ := hq
  have := two_le_of_prime hp
  omega

/-- A prime of the shape is a natural number that the search accepts (rule R241). -/
theorem crtPrime_natCast_iff {size d : Int} (hd : 0 ≤ d) (q : Nat) :
    CrtPrime size d q ↔ 2 ^ size.toNat < q ∧ SearchPrime d.toNat q := by
  lift d to Nat using hd
  rw [CrtPrime, SearchPrime, Int.toNat_natCast, Int.toNat_natCast]
  norm_cast
  tauto

theorem firstPrimes_map_natCast {size d : Int} (hd : 0 ≤ d) {l : List Nat} (hsorted : l.Pairwise (· < ·))
    (hprime : ∀ q ∈ l, 2 ^ size.toNat < q ∧ SearchPrime d.toNat q)
    (hfirst : ∀ q, 2 ^ size.toNat < q → SearchPrime d.toNat q → q ∈ l ∨ ∀ r ∈ l, r < q) :
    FirstPrimes size d (l.map (↑)) where
  sorted := hsorted.map _ fun _ _ h => Int.ofNat_lt.mpr h
  prime := by
    simpa only [List.forall_mem_map, crtPrime_natCast_iff hd] using hprime
  first q hq := by
    lift q to Nat using hq.nonneg
    obtain ⟨hlow, hsearch⟩ := (crtPrime_natCast_iff hd q).mp hq
    simpa using hfirst _ hlow hsearch

/-- What the prime search answers, as the statement speaks of it: the first primes of the shape, as many as it is asked
for, or else how many there are (rule R241). -/
theorem generatePrimes_firstPrimes {n size d : Int} (hd : 1 ≤ d) :
    ∃ l : List Nat, FirstPrimes size d (l.map (↑)) ∧
      ((generatePrimes n.toNat size.toNat d.toNat = .ok l ∧ l.length = n.toNat) ∨
        (generatePrimes n.toNat size.toNat d.toNat = .error ⟨.noPrimeFound, .ofNat 64 l.length⟩ ∧
          l.length < n.toNat ∧ ∀ q, CrtPrime size d q → q ∈ l.map (↑))) := by
  obtain ⟨l, hok, hlen, hsorted, hprime, hfirst⟩ | ⟨l, herr, hlen, hsorted, hprime, hall⟩ :=
    generatePrimes_spec n.toNat size.toNat d.toNat (by omega)
  · exact ⟨l, firstPrimes_map_natCast (by omega) hsorted hprime hfirst, .inl ⟨hok, hlen⟩⟩
  · have hl := firstPrimes_map_natCast (by omega) hsorted hprime fun q hlow hq => .inl (hall q hlow hq)
    refine ⟨l, hl, .inr ⟨by rw [herr, u64, BitVec.ofInt_natCast], hlen, fun q hq => ?_⟩⟩
    lift q to Nat using hq.nonneg
    obtain ⟨hlow, hsearch⟩ := (crtPrime_natCast_iff (by omega) q).mp hq
    exact List.mem_map_of_mem (hall _ hlow hsearch)

/-! ### `CRT.INIT` -/

theorem exec_crtInit (ra rb rc : XReg) (s : State) :
    exec (.crtInit ra rb rc) s = finish (.crtInit ra rb rc) s (do
      require (1 ≤ s.xInt ra ∧ s.xInt ra ≤ s.build.nPrimeMax) .badParameter 0
      require (0 ≤ s.xInt rb ∧ s.xInt rb ≤ 62) .badParameter 1
      require (1 ≤ s.xInt rc ∧ isPowerOfTwo (s.xInt rc).toNat ∧ s.xInt rc ≤ s.build.nMax) .badParameter 2
      let c ← buildCrt s.build (s.xInt ra) (s.xInt rb) (s.xInt rc)
      return { s with crt := some c }) := rfl

/-- Where the parameters pass the checks, all that is left is to build the slot on them (rule R242). -/
theorem exec_crtInit_of_checks {s : State} {ra rb rc : XReg} (hn : 1 ≤ s.xInt ra ∧ s.xInt ra ≤ s.build.nPrimeMax)
    (hsize : 0 ≤ s.xInt rb ∧ s.xInt rb ≤ 62)
    (hd : 1 ≤ s.xInt rc ∧ isPowerOfTwo (s.xInt rc).toNat ∧ s.xInt rc ≤ s.build.nMax) :
    exec (.crtInit ra rb rc) s = finish (.crtInit ra rb rc) s (do
      let c ← buildCrt s.build (s.xInt ra) (s.xInt rb) (s.xInt rc)
      return { s with crt := some c }) := by
  rw [exec_crtInit, finish_require_of_pos hn, finish_require_of_pos hsize, finish_require_of_pos hd]

theorem buildCrt_of_error {b : Build} {n size d : Int} {e : Exn}
    (h : generatePrimes n.toNat size.toNat d.toNat = .error e) : buildCrt b n size d = .error e := by
  rw [buildCrt, h]
  rfl

theorem FirstPrimes.primeList {size d : Int} (hd : 0 ≤ d) {l : List Nat} (hl : FirstPrimes size d (l.map (↑))) :
    PrimeList l := by
  refine ⟨List.Pairwise.of_map _ (fun _ _ h => Int.ofNat_lt.mp h) hl.sorted, fun q hq => ?_⟩
  obtain ⟨-, hprime, -, hlt⟩ := (crtPrime_natCast_iff hd q).mp (hl.prime q (List.mem_map_of_mem hq))
  exact ⟨hprime, hlt⟩

/-- The limb count is the least that holds the number (rule R248). -/
theorem limbs_bounds {n : Nat} (hn : n ≠ 0) :
    2 ^ (64 * ((bitLength n + 63) / 64 - 1)) ≤ n ∧ n < 2 ^ (64 * ((bitLength n + 63) / 64)) := by
  obtain ⟨hlow, hhigh⟩ := bitLength_bounds hn
  have hpos : 1 ≤ bitLength n := Nat.le_add_left 1 _
  exact ⟨(Nat.pow_le_pow_right two_pos (by omega)).trans hlow, hhigh.trans_le (Nat.pow_le_pow_right two_pos (by omega))⟩

/-- The product, the limb count and the two tables of a valid slot are those of its primes (rules R44, R248). -/
theorem CrtCtx.Valid.derived {b : Build} {c : CrtCtx} (hc : c.Valid b) {found : List Int}
    (hfound : c.primes.map sint = found) :
    c.bigM.toNat = found.prod ∧
      2 ^ (64 * (c.limbs.toNat - 1)) ≤ found.prod ∧ found.prod < 2 ^ (64 * c.limbs.toNat) ∧
      c.mi.map (fun m => (m.toNat : Int)) = found.map (fun q => found.prod / q) ∧
      List.Forall₂ (fun q y => 0 ≤ sint y ∧ sint y < q ∧ found.prod / q * sint y % q = 1) found c.miInv := by
  obtain ⟨l, hl, -, -, -, -, -, -, -, hlimbs, -, -, hprimes, -, hprod, hmi, hmiInv⟩ := CrtCtx.Valid.fields b c hc
  obtain rfl : l.map (↑) = found := hprimes.symm.trans hfound
  obtain ⟨hlow, hhigh⟩ := limbs_bounds hl.prod_pos.ne'
  rw [← Nat.cast_list_prod, hprod, hmi, hlimbs, List.map_map, List.forall₂_map_left_iff]
  exact ⟨rfl, by exact_mod_cast hlow, by exact_mod_cast hhigh, by simp, by simpa using hmiInv⟩

/-- The slot built on parameters whose primes are known and have a product that fits (rules R241, R242, R248). -/
theorem exists_buildCrt {b : Build} {x y z : Word} {l : List Nat} (hl : PrimeList l)
    (hgen : generatePrimes (sint x).toNat (sint y).toNat (sint z).toNat = .ok l) (hfits : l.prod < 2 ^ (b.wideW - 1)) :
    ∃ c : CrtCtx, buildCrt b (sint x) (sint y) (sint z) = .ok c ∧ c.numPrimes = x ∧ c.primeSize = y ∧ c.degree = z ∧
      c.primes.map sint = l.map (↑) := by
  obtain ⟨ys, -, hbuild⟩ := buildCrt_eq b (sint x) (sint y) (sint z) l hl hgen
  rw [if_pos hfits] at hbuild
  refine ⟨_, hbuild, u64_sint x, u64_sint y, u64_sint z, ?_⟩
  rw [List.map_map]
  exact List.map_congr_left fun q hq => sint_u64 q (by omega) (by exact_mod_cast (hl.2 q hq).2)

theorem buildCrt_of_overflow {b : Build} {n size d : Int} {l : List Nat} (hl : PrimeList l)
    (hgen : generatePrimes n.toNat size.toNat d.toNat = .ok l) (hfits : ¬ l.prod < 2 ^ (b.wideW - 1)) :
    buildCrt b n size d = .error ⟨.wideOverflow, 0⟩ := by
  obtain ⟨ys, -, hbuild⟩ := buildCrt_eq b n size d l hl hgen
  rwa [if_neg hfits] at hbuild

/-- Fewer primes than asked for, when they are all there are: the search runs out of them and answers their number. -/
theorem generatePrimes_of_lt {n size d : Int} (hd : 1 ≤ d) {found : List Int} (hfound : FirstPrimes size d found)
    (hlt : (found.length : Int) < n) (hall : ∀ q, CrtPrime size d q → q ∈ found) :
    generatePrimes n.toNat size.toNat d.toNat = .error ⟨.noPrimeFound, .ofNat 64 found.length⟩ := by
  obtain ⟨l, hl, ⟨-, hlen⟩ | ⟨herr, -, hall'⟩⟩ := generatePrimes_firstPrimes (n := n) (size := size) hd
  · have hle := hl.length_le hall
    rw [List.length_map] at hle
    omega
  · have hle := hl.length_le hall
    have hge := hfound.length_le hall'
    rw [List.length_map] at hle hge
    rw [herr, le_antisymm hle hge]

/-- As many first primes as asked for: the search answers these. -/
theorem exists_generatePrimes {n size d : Int} (hd : 1 ≤ d) {found : List Int} (hfound : FirstPrimes size d found)
    (hlen : (found.length : Int) = n) :
    ∃ l : List Nat, PrimeList l ∧ l.map (↑) = found ∧ generatePrimes n.toNat size.toNat d.toNat = .ok l := by
  obtain ⟨l, hl, ⟨hok, hlen'⟩ | ⟨-, hlt, hall⟩⟩ := generatePrimes_firstPrimes (n := n) (size := size) hd
  · exact ⟨l, hl.primeList (by omega), hl.eq_of_length hfound (by rw [List.length_map]; omega), hok⟩
  · have hle := hfound.length_le hall
    rw [List.length_map] at hle
    omega

/-- Settles O44: the primes of the statement are those that the search finds, since of each length there is one list of
first primes, and the slot built on them is a valid one. -/
theorem crtInitBuildsSlot : Obligations.CrtInitBuildsSlot := by
  intro s ra rb rc
  refine ⟨decode_crtInit ra rb rc, fun hbad => ?_, fun hn1 hn2 => ⟨fun hbad => ?_, fun hs1 hs2 => ⟨fun hbad => ?_, ?_⟩⟩⟩
  · rw [exec_crtInit, finish_require_of_neg hbad]
  · rw [exec_crtInit, finish_require_of_pos ⟨hn1, hn2⟩, finish_require_of_neg hbad]
  · rw [exec_crtInit, finish_require_of_pos ⟨hn1, hn2⟩, finish_require_of_pos ⟨hs1, hs2⟩,
      finish_require_of_neg (mt (dimension_check _ _).mp hbad)]
  intro hpow hmax found hsorted hprime
  have hdim := (dimension_check (s.xInt rc) s.build.nMax).mpr ⟨hpow, hmax⟩
  rw [exec_crtInit_of_checks ⟨hn1, hn2⟩ ⟨hs1, hs2⟩ hdim]
  refine ⟨fun hlt hall => ?_, fun hlen hfirst => ?_⟩
  · exact finish_bind_of_error (buildCrt_of_error
      (generatePrimes_of_lt hdim.1 ⟨hsorted, hprime, fun q hq => .inl (hall q hq)⟩ hlt hall)) _ _ _
  obtain ⟨l, hl, rfl, hgen⟩ := exists_generatePrimes hdim.1 ⟨hsorted, hprime, hfirst⟩ hlen
  have hiff : (l.map (Nat.cast : Nat → Int)).prod < 2 ^ (s.build.wideW - 1) ↔ l.prod < 2 ^ (s.build.wideW - 1) := by
    rw [← Nat.cast_list_prod]
    norm_cast
  refine ⟨fun hover => ?_, fun hfits => ?_⟩
  · exact finish_bind_of_error (buildCrt_of_overflow hl hgen (mt hiff.mpr hover)) _ _ _
  · obtain ⟨c, hbuild, hnum, hsize, hdeg, hprimes⟩ := exists_buildCrt hl hgen (hiff.mp hfits)
    have hvalid := buildCrt_valid ⟨hn1, hn2⟩ ⟨hs1, hs2⟩ hdim hbuild
    obtain ⟨hM, hlow, hhigh, hmi, hmiInv⟩ := hvalid.derived hprimes
    refine ⟨c, hnum, hsize, hdeg, hprimes, hM, hlow, hhigh, hmi, hmiInv, ?_⟩
    rw [State.xInt, State.xInt, State.xInt, hbuild]
    rfl

/-! ### `CRT.DEC` -/

/-- The number agrees with each residue modulo its prime, whatever integers the residues are (rule R244). -/
def CrtCtx.Agrees (c : CrtCtx) (r : List Int) (t : Int) : Prop :=
  List.Forall₂ (fun q a => t % sint q = a % sint q) c.primes r

/-- Agreement, index by index. -/
theorem CrtCtx.agrees_iff {c : CrtCtx} {l : List Nat} (hprimes : c.primes.map sint = l.map (↑)) (r : List Int)
    (t : Int) :
    c.Agrees r t ↔ l.length = r.length ∧ ∀ (i : Nat) (q : Nat), l[i]? = some q → t % q = r.getD i 0 % q := by
  have hmap : c.Agrees r t ↔ List.Forall₂ (fun q a => t % q = a % q) (c.primes.map sint) r :=
    (List.forall₂_map_left_iff (R := fun (q a : Int) => t % q = a % q)).symm
  rw [hmap, hprimes, List.forall₂_map_left_iff, List.forall₂_iff_get]
  refine and_congr_right fun hlen => ⟨fun h i q hq => ?_, fun h i hi hr => ?_⟩
  · obtain ⟨hi, rfl⟩ := List.getElem?_eq_some_iff.mp hq
    rw [List.getD_eq_getElem _ _ (hlen ▸ hi)]
    exact h i hi (hlen ▸ hi)
  · have := h i _ (List.getElem?_eq_getElem hi)
    rwa [List.getD_eq_getElem _ _ hr] at this

section

variable {b : Build} {c : CrtCtx}

theorem CrtCtx.Valid.bigM_pos (hc : c.Valid b) : 0 < c.bigM.toNat := by
  obtain ⟨l, hl, -, -, -, -, -, -, -, -, -, -, -, -, hprod, -⟩ := CrtCtx.Valid.fields b c hc
  exact hprod ▸ hl.prod_pos

/-- A number below the product of a valid slot fits a wide register (rules R242, R244). -/
theorem CrtCtx.Valid.fitsWide (hc : c.Valid b) {t : Int} (h0 : 0 ≤ t) (hlt : t < c.bigM.toNat) :
    fitsWide b t = true := by
  obtain ⟨l, -, -, -, -, -, -, -, -, -, -, -, -, hfits, hprod, -⟩ := CrtCtx.Valid.fields b c hc
  rw [hprod] at hlt
  have hpos : (0 : Int) < 2 ^ (b.wideW - 1) := by positivity
  exact (fitsWide_iff b t).mpr ⟨by omega, hlt.trans (by exact_mod_cast hfits)⟩

theorem CrtCtx.Valid.reconstruct_bounds (hc : c.Valid b) (r : List Int) :
    0 ≤ reconstruct c r ∧ reconstruct c r < c.bigM.toNat :=
  fmod_bounds _ _ (by have := hc.bigM_pos; omega)

/-- The reconstruction agrees with every residue: modulo a prime all terms of the sum but its own vanish (rule R244). -/
theorem CrtCtx.Valid.agrees_reconstruct (hc : c.Valid b) {r : List Int} (hlen : r.length = c.numPrimes.toNat) :
    c.Agrees r (reconstruct c r) := by
  obtain ⟨l, hl, -, -, -, hnum, -, -, -, -, -, -, hprimes, -, hprod, hmi, hmiInv⟩ := CrtCtx.Valid.fields b c hc
  rw [hnum] at hlen
  refine (CrtCtx.agrees_iff hprimes r _).mpr ⟨hlen.symm, fun i q hi => ?_⟩
  have hq := List.mem_of_getElem? hi
  obtain ⟨-, hsum⟩ := crtSum_emod l.prod q l r c.mi c.miInv (hl.1.imp fun h => h.ne) hlen hmi
    (hmiInv.imp fun _ _ ⟨_, _, h⟩ => h) fun p hp hne => (hl.cofactor hp).2.2 q hq hne.symm
  rw [reconstruct, fmod, hprod, Int.emod_emod_of_dvd _ (Int.natCast_dvd_natCast.mpr (List.dvd_prod hq)), hsum i hi]

/-- No two numbers in `[0, M)` agree with the same residues (rule R244). -/
theorem CrtCtx.Valid.agrees_unique (hc : c.Valid b) {r : List Int} {t z : Int} (ht0 : 0 ≤ t) (ht : t < c.bigM.toNat)
    (hz0 : 0 ≤ z) (hz : z < c.bigM.toNat) (htr : c.Agrees r t) (hzr : c.Agrees r z) : z = t := by
  obtain ⟨l, hl, -, -, -, -, -, -, -, -, -, -, hprimes, -, hprod, -⟩ := CrtCtx.Valid.fields b c hc
  obtain ⟨-, htr⟩ := (CrtCtx.agrees_iff hprimes r t).mp htr
  obtain ⟨-, hzr⟩ := (CrtCtx.agrees_iff hprimes r z).mp hzr
  have hmod : z % l.prod = t % l.prod := hl.modEq_prod z t fun q hq => by
    obtain ⟨i, hi⟩ := List.mem_iff_getElem?.mp hq
    rw [hzr i q hi, htr i q hi]
  rwa [← hprod, Int.emod_eq_of_lt hz0 hz, Int.emod_eq_of_lt ht0 ht] at hmod

theorem CrtCtx.Valid.pos_and_dvd_of_mem (hc : c.Valid b) {q : Word} (hq : q ∈ c.primes) :
    0 < sint q ∧ sint q ∣ c.bigM.toNat := by
  obtain ⟨l, hl, -, -, -, -, -, -, -, -, -, -, hprimes, -, hprod, -⟩ := CrtCtx.Valid.fields b c hc
  have hmem : sint q ∈ l.map (Nat.cast : Nat → Int) := hprimes ▸ List.mem_map_of_mem hq
  obtain ⟨p, hp, hpq⟩ := List.mem_map.mp hmem
  rw [← hpq, hprod]
  exact ⟨Int.natCast_pos.mpr (hl.2 p hp).1.pos, Int.natCast_dvd_natCast.mpr (List.dvd_prod hp)⟩

/-- The residues of a number agree with the number modulo the product (rules R243, R247). -/
theorem CrtCtx.Valid.agrees_residues (hc : c.Valid b) (v : Int) : c.Agrees (residues c v) (v % c.bigM.toNat) := by
  rw [CrtCtx.Agrees, residues, List.forall₂_map_right_iff, List.forall₂_same]
  intro q hq
  rw [fmod, Int.emod_emod, Int.emod_emod_of_dvd _ (hc.pos_and_dvd_of_mem hq).2]

/-- A residue is a machine integer, so its word reads back as it (rules R7, R243). -/
theorem CrtCtx.Valid.map_sint_map_u64_residues (hc : c.Valid b) (v : Int) :
    ((residues c v).map u64).map sint = residues c v := by
  rw [List.map_map, List.map_congr_left (g := id), List.map_id]
  refine List.forall_mem_map.mpr fun q hq => ?_
  obtain ⟨hpos, -⟩ := hc.pos_and_dvd_of_mem hq
  obtain ⟨h0, hlt⟩ := fmod_bounds v (sint q) hpos
  exact sint_u64 _ (by omega) (hlt.trans (sint_bounds q).2)

/-- Decoding the residues of a number gives the number modulo the product (rule R247). -/
theorem CrtCtx.Valid.reconstruct_residues (hc : c.Valid b) (v : Int) :
    reconstruct c (residues c v) = v % c.bigM.toNat := by
  have hpos := hc.bigM_pos
  obtain ⟨h0, hlt⟩ := hc.reconstruct_bounds (residues c v)
  exact hc.agrees_unique (Int.emod_nonneg _ (by omega)) (Int.emod_lt_of_pos _ (by omega)) h0 hlt (hc.agrees_residues v)
    (hc.agrees_reconstruct ((length_residues c v).trans hc.length_primes))

end

section

variable {s : State} {c : CrtCtx}

theorem exec_crtDec (wd : WReg) (ra : VReg) (hc : s.crt = some c) :
    exec (.crtDec wd ra) s = finish (.crtDec wd ra) s (do
      needSize s.v[ra] c.numPrimes.toNat
      storeWide s wd (reconstruct c (s.elems ra))) := by
  rw [exec, execCrtDec, hc]
  rfl

/-- The reconstruction fits a wide register, so the command retires with its pattern (rules R242, R244). -/
theorem exec_crtDec_of_size (wd : WReg) {ra : VReg} (hc : s.crt = some c) (hvalid : c.Valid s.build)
    (hsize : s.v[ra].size = c.numPrimes.toNat) :
    exec (.crtDec wd ra) s = .next
      { s.writeW wd (ofWideInt s.build (reconstruct c (s.elems ra))) with cseq := s.cseq + 1 } := by
  obtain ⟨h0, hlt⟩ := hvalid.reconstruct_bounds (s.elems ra)
  rw [exec_crtDec wd ra hc, finish_needSize_of_eq hsize,
    (storeWide_eq_ok s _ wd _).mpr ⟨hvalid.fitsWide h0 hlt, rfl⟩]
  rfl

end

/-- Settles O46: the sum of the rule agrees with the residues, and the primes are distinct. -/
theorem crtReconstructsTheUniqueValue : Obligations.CrtReconstructsTheUniqueValue := by
  intro s wd ra
  refine ⟨decode_crtDec wd ra, fun hnone => ?_, fun c hc hvalid => ⟨fun hne => ?_, fun hsize => ?_⟩⟩
  · rw [exec, execCrtDec, hnone, finish_needSlot_none]
  · rw [exec_crtDec wd ra hc, finish_needSize_of_ne hne]
  · obtain ⟨h0, hlt⟩ := hvalid.reconstruct_bounds (s.elems ra)
    have hagrees := hvalid.agrees_reconstruct ((s.length_elems ra).trans hsize)
    exact ⟨_, _, isPatternOf_ofWideInt _ _ (hvalid.fitsWide h0 hlt), exec_crtDec_of_size wd hc hvalid hsize, h0, hlt,
      hagrees, fun z hz0 hz hzr => hvalid.agrees_unique h0 hlt hz0 hz hagrees hzr⟩

/-! ### The round trip -/

/-- Where a buffer can hold the residues, `CRT.ENC` leaves them in it (rule R243). -/
theorem exists_exec_crtEnc {s : State} {c : CrtCtx} (rd : VReg) (wa : WReg) (hc : s.crt = some c)
    (hvalid : c.Valid s.build) (hle : c.numPrimes.toNat ≤ s.build.vcapMax) :
    ∃ t, exec (.crtEnc rd wa) s = .next t ∧ t.run = s.run ∧ t.crt = s.crt ∧ t.build = s.build ∧
      t.elems rd = residues c (s.wInt wa) := by
  have hlen := (length_residues c (s.wInt wa)).trans hvalid.length_primes
  refine ⟨_, (exec_crtEnc_of_some rd wa hc).trans (finish_vecAssign_of_le _ rd (hlen.trans_le hle)), rfl, rfl, rfl, ?_⟩
  exact (congrArg (fun v : Buffer => v.elems.map sint) ((s.writeV_get rd rd _).trans (if_pos rfl))).trans
    (hvalid.map_sint_map_u64_residues _)

theorem State.wInt_writeW_ofWideInt {s : State} (r : WReg) {n : Int} (h : fitsWide s.build n = true) :
    (s.writeW r (ofWideInt s.build n)).wInt r = n := by
  rw [State.wInt, State.writeW_get, if_pos rfl]
  exact (isPatternOf_ofWideInt _ _ h).2

/-- Settles O47: the buffer between the two commands holds the residues of the value. -/
theorem crtRoundTrip : Obligations.CrtRoundTrip := by
  intro s wd wa rd c hrun hc hvalid hle
  obtain ⟨t, henc, hrun', hcrt, hbuild, helems⟩ := exists_exec_crtEnc rd wa hc hvalid hle
  rw [hrun] at hrun'
  rw [hc] at hcrt
  rw [← hbuild] at hvalid
  have hsize : t.v[rd].size = c.numPrimes.toNat := by
    rw [← t.length_elems, helems, length_residues, hvalid.length_primes]
  obtain ⟨h0, hlt⟩ := hvalid.reconstruct_bounds (t.elems rd)
  have hdec := exec_crtDec_of_size wd hcrt hvalid hsize
  calc (runProgram [.crtEnc rd wa, .crtDec wd rd] s).wInt wd
      = (t.writeW wd (ofWideInt t.build (reconstruct c (t.elems rd)))).wInt wd := by
        rw [runProgram_cons henc (by simp [hrun']), runProgram_cons hdec (by simp [hrun']), runProgram_nil]
        rfl
    _ = reconstruct c (t.elems rd) := State.wInt_writeW_ofWideInt wd (hvalid.fitsWide h0 hlt)
    _ = s.wInt wa % c.bigM.toNat := by rw [helems, hvalid.reconstruct_residues]

end Machine

end Sys2Proof

/-! GaloisTool: what the commands of family 5 answer, and the laws of the mapping from steps to elements (rules R270 to
R277). From `N = 4` on, three to the power `N/2` is 1 modulo `2N`, so a power of three depends on its exponent modulo
`N/2` only; at `N = 2` every exponent is 0. -/

namespace Sys2Proof

theorem decode_galInit (ra : XReg) : decode (formatR 0x50 0 ra 0 0 0) = .ok (.galInit ra) :=
  decode_formatR rfl (by simp [build, xOf]) (by simp [Shape.firstBad])

theorem decode_galElt (rd ra : XReg) : decode (formatR 0x51 rd ra 0 0 0) = .ok (.galElt rd ra) :=
  decode_formatR rfl (by simp [build, xOf]) (by simp [Shape.firstBad])

theorem decode_galElts (rd ra : VReg) : decode (formatR 0x52 rd ra 0 0 0) = .ok (.galElts rd ra) :=
  decode_formatR rfl (by simp [build]) (by simp [Shape.firstBad])

theorem decode_galIdx (rd ra : XReg) : decode (formatR 0x53 rd ra 0 0 0) = .ok (.galIdx rd ra) :=
  decode_formatR rfl (by simp [build, xOf]) (by simp [Shape.firstBad])

theorem decode_galAll (rd : VReg) : decode (formatR 0x54 rd 0 0 0 0) = .ok (.galAll rd) :=
  decode_formatR rfl (by simp [build]) (by simp [Shape.firstBad])

namespace Machine

/-- A command whose slot is valid goes on with the slot's fields (rules R41, R180). -/
theorem finish_needSlot_some {α : Type} (i : Instr) (s : State) (c : α) (index : Word) (f : α → Except Exn State) :
    finish i s (needSlot (some c) index >>= f) = finish i s (f c) := rfl

/-! ### `GAL.INIT` -/

theorem exec_galInit (ra : XReg) (s : State) :
    exec (.galInit ra) s = finish (.galInit ra) s (do
      require (2 ≤ s.xInt ra ∧ isPowerOfTwo (s.xInt ra).toNat ∧ s.xInt ra ≤ s.build.nMax) .badParameter 0
      return { s with gal := some ⟨u64 (s.xInt ra)⟩ }) := rfl

/-- The check of a ring dimension of the family, which is the others' check without `N = 1` (rule R272). -/
theorem galois_dimension_check (n : Int) (bound : Nat) :
    (2 ≤ n ∧ isPowerOfTwo n.toNat = true ∧ n ≤ bound) ↔ PowerOfTwo n ∧ 2 ≤ n ∧ n ≤ bound := by
  constructor
  · rintro ⟨h2, hpow, hmax⟩
    obtain ⟨hpow', -⟩ := (dimension_check n bound).mp ⟨by omega, hpow, hmax⟩
    exact ⟨hpow', h2, hmax⟩
  · rintro ⟨hpow, h2, hmax⟩
    obtain ⟨-, hlog, -⟩ := (dimension_check n bound).mpr ⟨hpow, hmax⟩
    exact ⟨h2, hlog, hmax⟩

/-! ### Galois elements -/

/-- The Galois element of a step (rule R271). -/
def galoisElement (n step : Int) : Int := if step = 0 then 2 * n - 1 else 3 ^ (step % (n / 2)).toNat % (2 * n)

/-- The numbers that have a storage index: the odd ones of `[1, 2N)` (rule R275). -/
abbrev IsGaloisElement (n e : Int) : Prop := 1 ≤ e ∧ e < 2 * n ∧ e % 2 = 1

@[simp] theorem galoisElement_zero (n : Int) : galoisElement n 0 = 2 * n - 1 := rfl

theorem galoisElement_of_ne {n step : Int} (h : step ≠ 0) :
    galoisElement n step = 3 ^ (step % (n / 2)).toNat % (2 * n) := if_neg h

/-- Every step has an element (rule R271). -/
theorem eltFromStep_eq {n : Int} (hn : 2 ≤ n) (step : Int) : eltFromStep step n = .ok (galoisElement n step) := by
  rw [eltFromStep, galoisElement, fmod]
  split
  · rfl
  · exact modExp_eq _ _ _ (by omega) (Int.emod_nonneg _ (by omega))

/-- A power of three is odd, and so is its residue modulo the even number `2N`. -/
theorem isGaloisElement_galoisElement {n : Int} (hn : 2 ≤ n) (step : Int) :
    IsGaloisElement n (galoisElement n step) := by
  by_cases h : step = 0
  · subst h
    rw [galoisElement_zero]
    omega
  · have hodd : galoisElement n step % 2 = 1 := by
      rw [galoisElement_of_ne h, Int.emod_emod_of_dvd _ (Int.dvd_mul_right 2 n)]
      exact Int.odd_iff.mp (Odd.pow (by decide))
    have hbounds := fmod_bounds (3 ^ (step % (n / 2)).toNat) (2 * n) (by omega)
    rw [fmod, ← galoisElement_of_ne h] at hbounds
    omega

/-- Nonzero steps a multiple of `N/2` apart have the same exponent (rule R277). -/
theorem galoisElement_add_mul {n a : Int} (k : Int) (ha : a ≠ 0) (hb : a + k * (n / 2) ≠ 0) :
    galoisElement n (a + k * (n / 2)) = galoisElement n a := by
  rw [galoisElement_of_ne hb, galoisElement_of_ne ha, Int.add_mul_emod_self_right]

/-- Squaring what is 1 modulo a power of two is 1 modulo the next one. -/
theorem three_pow_modEq_one (k : Nat) : (3 : Int) ^ 2 ^ (k + 1) ≡ 1 [ZMOD 2 ^ (k + 3)] := by
  induction k with
  | zero => rfl
  | succ k ih =>
    have heven : (2 : Int) ∣ 3 ^ 2 ^ (k + 1) + 1 :=
      even_iff_two_dvd.mp ((Odd.pow (by decide)).add_odd odd_one)
    refine (Int.modEq_of_dvd ?_).symm
    rw [pow_succ 2 (k + 1), pow_mul, sq, mul_self_sub_one, pow_succ' (2 : Int) (k + 3)]
    exact mul_dvd_mul heven ih.symm.dvd

/-- The exponent of three counts modulo half the dimension. -/
theorem three_pow_mod_modEq (k i : Nat) : (3 : Int) ^ (i % 2 ^ (k + 1)) ≡ 3 ^ i [ZMOD 2 ^ (k + 3)] := by
  have hone := ((three_pow_modEq_one k).pow (i / 2 ^ (k + 1))).mul_left (3 ^ (i % 2 ^ (k + 1)))
  rw [← pow_mul, ← pow_add, Nat.mod_add_div, one_pow, mul_one] at hone
  exact hone.symm

/-- The exponents of two steps add up modulo `N/2` (rule R271). -/
theorem toNat_add_emod {h : Int} (hh : 0 < h) (a b : Int) :
    ((a + b) % h).toNat = ((a % h).toNat + (b % h).toNat) % h.toNat := by
  have ha := Int.emod_nonneg a hh.ne'
  have hb := Int.emod_nonneg b hh.ne'
  rw [← Int.toNat_add ha hb, ← Int.toNat_emod (by omega) hh.le, ← Int.add_emod]

/-- Adding nonzero steps multiplies their elements modulo `2N` (rule R277). -/
theorem galoisElement_add {n a b : Int} (hpow : PowerOfTwo n) (hn : 2 ≤ n) (ha : a ≠ 0) (hb : b ≠ 0)
    (hab : a + b ≠ 0) : galoisElement n (a + b) = galoisElement n a * galoisElement n b % (2 * n) := by
  rw [galoisElement_of_ne ha, galoisElement_of_ne hb, galoisElement_of_ne hab, ← Int.mul_emod, ← pow_add,
    toNat_add_emod (by omega)]
  obtain ⟨k, rfl⟩ := hpow
  match k with
  | 0 => norm_num at hn
  | 1 => simp
  | k + 2 =>
    have hhalf : (2 : Int) ^ (k + 2) / 2 = (2 ^ (k + 1) : Nat) := by
      rw [pow_succ, Int.mul_ediv_cancel _ two_ne_zero]
      push_cast
      rfl
    rw [hhalf, Int.toNat_natCast, ← pow_succ']
    exact three_pow_mod_modEq k _

/-! ### What each command answers -/

section

variable {s : State} {c : GalCtx}

/-- What a valid `GAL` slot holds (rules R45, R272). -/
theorem GalCtx.Valid.dimension {b : Build} (hc : c.Valid b) :
    2 ≤ sint c.n ∧ sint c.n ≤ b.nMax ∧ PowerOfTwo (sint c.n) := by
  obtain ⟨n, h2, hpow, hmax, rfl⟩ := hc
  have hbound := b.nMax_bounds
  rw [sint_u64 n (by omega) (by omega)]
  exact ⟨h2, hmax, hpow⟩

/-- An element is kept whole in a scalar register (rules R6, R7). -/
theorem GalCtx.Valid.sint_u64_galoisElement {b : Build} (hc : c.Valid b) (step : Int) :
    sint (u64 (galoisElement (sint c.n) step)) = galoisElement (sint c.n) step := by
  obtain ⟨h2, hmax, -⟩ := hc.dimension
  have hbound := b.nMax_bounds
  obtain ⟨h1, hlt, -⟩ := isGaloisElement_galoisElement h2 step
  exact sint_u64 _ (by omega) (by omega)

/-- The index of an element is half of the even number below it (rule R275). -/
theorem sint_u64_index {n : Word} {e : Int} (he : IsGaloisElement (sint n) e) :
    2 * sint (u64 ((e - 1) / 2)) + 1 = e ∧ 0 ≤ sint (u64 ((e - 1) / 2)) ∧ sint (u64 ((e - 1) / 2)) < sint n := by
  have hbound := (sint_bounds n).2
  rw [sint_u64 _ (by omega) (by omega)]
  omega

/-- The list of `GAL.ALL` fits a buffer of every build that has the dimension (rules R6, R276; log entry 6). -/
theorem GalCtx.Valid.length_galoisEltsAll_le {b : Build} (hc : c.Valid b) :
    (Config.galoisEltsAll b c.n.toNat).length ≤ b.vcapMax := by
  obtain ⟨h2, hmax, -⟩ := hc.dimension
  have hnat := toNat_eq_of_sint_nonneg (v := c.n) (by omega)
  have hroom := b.nMax_le_vcapMax
  rw [Config.galoisEltsAll]
  split
  · rw [show ([15, 3, 11, 9, 9] : List (BitVec 64)).length = 5 from rfl]
    omega
  · exact List.length_take_le _ _

theorem exec_gal_of_none (rd ra : XReg) (vd va : VReg) (hc : s.gal = none) :
    exec (.galElt rd ra) s = .next (s.rejected (.galElt rd ra) .noContext 3) ∧
      exec (.galElts vd va) s = .next (s.rejected (.galElts vd va) .noContext 3) ∧
      exec (.galIdx rd ra) s = .next (s.rejected (.galIdx rd ra) .noContext 3) ∧
      exec (.galAll vd) s = .next (s.rejected (.galAll vd) .noContext 3) := by
  simp only [exec, execGalElt, execGalElts, execGalIdx, execGalAll, hc, finish_needSlot_none, and_self]

theorem exec_galElt (rd ra : XReg) (hc : s.gal = some c) (hvalid : c.Valid s.build) :
    exec (.galElt rd ra) s = .next (s.writeX rd (u64 (galoisElement (sint c.n) (s.xInt ra)))).retire := by
  rw [exec, execGalElt, hc, finish_needSlot_some, GalCtx.dim, eltFromStep_eq hvalid.dimension.1]
  rfl

/-- There are as many elements as steps, so they fit and the command retires (rules R29, R274). -/
theorem exec_galElts (rd ra : VReg) (hc : s.gal = some c) (hvalid : c.Valid s.build) (hwf : s.v.wf s.build) :
    exec (.galElts rd ra) s = .next
      { s.writeV rd ⟨(s.elems ra).map fun step => u64 (galoisElement (sint c.n) step),
          max s.v[rd].cap s.v[ra].size⟩ with cseq := s.cseq + 1 } := by
  obtain ⟨hsize, hcap⟩ := hwf ra
  have hlen : ((s.elems ra).map (galoisElement (sint c.n))).length = s.v[ra].size :=
    (List.length_map _).trans (s.length_elems ra)
  have hmap : ((s.elems ra).mapM fun step => eltFromStep step c.dim) =
      .ok ((s.elems ra).map (galoisElement (sint c.n))) := by
    simp only [GalCtx.dim, eltFromStep_eq hvalid.dimension.1]
    exact List.mapM_pure
  rw [exec, execGalElts, hc, finish_needSlot_some, hmap]
  refine (finish_vecAssign_of_le _ rd (hlen.trans_le (hsize.trans hcap))).trans ?_
  rw [hlen, List.map_map]
  rfl

/-- `GAL.IDX` checks its operand and halves it (rule R275). -/
theorem exec_galIdx (rd ra : XReg) (hc : s.gal = some c) :
    exec (.galIdx rd ra) s = finish (.galIdx rd ra) s (do
      require (IsGaloisElement (sint c.n) (s.xInt ra)) .indexOutOfRange s.x[ra]
      return s.writeX rd (u64 ((s.xInt ra - 1) / 2))) := by
  rw [exec, execGalIdx, hc]
  rfl

theorem exec_galIdx_of_element (rd : XReg) {ra : XReg} (hc : s.gal = some c)
    (he : IsGaloisElement (sint c.n) (s.xInt ra)) :
    exec (.galIdx rd ra) s = .next (s.writeX rd (u64 ((s.xInt ra - 1) / 2))).retire := by
  rw [exec_galIdx rd ra hc, finish_require_of_pos he]
  rfl

theorem exec_galIdx_of_not_element (rd : XReg) {ra : XReg} (hc : s.gal = some c)
    (he : ¬ IsGaloisElement (sint c.n) (s.xInt ra)) :
    exec (.galIdx rd ra) s = .next (s.rejected (.galIdx rd ra) .indexOutOfRange s.x[ra]) := by
  rw [exec_galIdx rd ra hc, finish_require_of_neg he]

theorem exec_galAll (rd : VReg) (hc : s.gal = some c) (hvalid : c.Valid s.build) :
    exec (.galAll rd) s = .next
      { s.writeV rd ⟨Config.galoisEltsAll s.build c.n.toNat,
          max s.v[rd].cap (Config.galoisEltsAll s.build c.n.toNat).length⟩ with cseq := s.cseq + 1 } := by
  have hlen : ((Config.galoisEltsAll s.build c.n.toNat).map sint).length ≤ s.build.vcapMax :=
    (List.length_map _).trans_le hvalid.length_galoisEltsAll_le
  rw [exec, execGalAll, hc, finish_needSlot_some, finish_vecAssign_of_le _ rd hlen, List.length_map,
    map_u64_map_sint]

theorem runProgram_galElt (hrun : s.run = .idle) (hc : s.gal = some c) (hvalid : c.Valid s.build) (rd ra : XReg)
    (rest : List Instr) :
    runProgram (.galElt rd ra :: rest) s =
      runProgram rest (s.writeX rd (u64 (galoisElement (sint c.n) (s.xInt ra)))).retire :=
  runProgram_cons (exec_galElt rd ra hc hvalid) (by simp [hrun]) rest

theorem runProgram_galIdx (hrun : s.run = .idle) (hc : s.gal = some c) {ra : XReg}
    (he : IsGaloisElement (sint c.n) (s.xInt ra)) (rd : XReg) (rest : List Instr) :
    runProgram (.galIdx rd ra :: rest) s = runProgram rest (s.writeX rd (u64 ((s.xInt ra - 1) / 2))).retire :=
  runProgram_cons (exec_galIdx_of_element rd hc he) (by simp [hrun]) rest

end

/-- Settles O48: the check of `GAL.INIT` is the rule's, and every step has an element. -/
theorem galoisElementsFromSteps : Obligations.GaloisElementsFromSteps := by
  intro s xd xa rd ra
  refine ⟨decode_galInit xa, decode_galElt xd xa, decode_galElts rd ra, fun hpow h2 hmax => ?_, fun hbad => ?_,
    fun hnone => ?_, fun c hc hvalid => ?_⟩
  · rw [exec_galInit, finish_require_of_pos ((galois_dimension_check _ _).mpr ⟨hpow, h2, hmax⟩), State.xInt, u64_sint]
    rfl
  · rw [exec_galInit, finish_require_of_neg (mt (galois_dimension_check _ _).mp hbad)]
  · obtain ⟨helt, helts, -⟩ := exec_gal_of_none xd xa rd ra hnone
    exact ⟨helt, helts⟩
  · exact ⟨galoisElement (sint c.n), galoisElement_zero _, fun _ => galoisElement_of_ne,
      isGaloisElement_galoisElement hvalid.dimension.1, exec_galElt xd xa hc hvalid,
      exec_galElts rd ra hc hvalid⟩

/-- Settles O49: an odd number of `[1, 2N)` has an index, and the list of `GAL.ALL` fits a buffer. -/
theorem galoisIndexAndEnumeration : Obligations.GaloisIndexAndEnumeration := by
  intro s xd xa rd
  refine ⟨decode_galIdx xd xa, decode_galAll rd, fun hnone => ?_, fun c hc hvalid => ⟨fun h1 hlt hodd => ?_,
    exec_galIdx_of_not_element xd hc, fun h8 => ?_, hvalid.length_galoisEltsAll_le, exec_galAll rd hc hvalid⟩⟩
  · obtain ⟨-, -, hidx, hall⟩ := exec_gal_of_none xd xa rd rd hnone
    exact ⟨hidx, hall⟩
  · obtain ⟨hhalf, h0, hn⟩ := sint_u64_index ⟨h1, hlt, hodd⟩
    exact ⟨_, hhalf, h0, hn, exec_galIdx_of_element xd hc ⟨h1, hlt, hodd⟩⟩
  · have hnat : c.n.toNat = 8 := by
      rw [← toNat_eq_of_sint_nonneg (by omega), h8]
      rfl
    rw [exec_galAll rd hc hvalid, hnat]
    rfl

/-- Settles O50: `GAL.ELT` leaves an element, and the element map turns sums of steps into products. -/
theorem galoisLaws : Obligations.GaloisLaws := by
  intro s c hrun hc hvalid
  obtain ⟨h2, -, hpow⟩ := hvalid.dimension
  refine ⟨?_, fun h1 hne ⟨k, hk⟩ => ?_, fun h1 hne hsum h3 => ?_⟩
  · have helt := isGaloisElement_galoisElement h2 (s.xInt 1)
    obtain ⟨-, h0, hlt⟩ := sint_u64_index helt
    rw [runProgram_galElt hrun hc hvalid,
      runProgram_galIdx (by simpa using hrun) (by simpa using hc)
        (by simpa [hvalid.sint_u64_galoisElement] using helt), runProgram_nil]
    simpa [hrun, hvalid.sint_u64_galoisElement] using ⟨h0, hlt⟩
  · have heq : galoisElement (sint c.n) (s.xInt 2) = galoisElement (sint c.n) (s.xInt 1) := by
      rw [hk] at hne ⊢
      exact galoisElement_add_mul k h1 hne
    rw [runProgram_galElt hrun hc hvalid, runProgram_galElt hrun hc hvalid, heq]
  · have hmul := galoisElement_add hpow h2 h1 hne (hsum ▸ h3)
    rw [← hsum] at hmul
    simpa [runProgram_galElt hrun hc hvalid, hvalid.sint_u64_galoisElement] using hmul

end Machine

end Sys2Proof

/-! Polynomial: what the commands of family 6 answer, and that each of the three products is the schoolbook product
modulo `x^n + 1` (rules R290 to R298). `POLY.MULN` meets it through the laws of the transform, `POLY.MULC` through the
reconstruction of a number from its residues. -/

namespace Sys2Proof

theorem decode_polyAdd (rd ra rb : VReg) (rc : XReg) :
    decode (formatR 0x60 rd ra rb rc 0) = .ok (.polyAdd rd ra rb rc) :=
  decode_formatR rfl (by simp [build, xOf]) (by simp [Shape.firstBad])

theorem decode_polySub (rd ra rb : VReg) (rc : XReg) :
    decode (formatR 0x61 rd ra rb rc 0) = .ok (.polySub rd ra rb rc) :=
  decode_formatR rfl (by simp [build, xOf]) (by simp [Shape.firstBad])

theorem decode_polyMul (rd ra rb : VReg) (rc : XReg) :
    decode (formatR 0x62 rd ra rb rc 0) = .ok (.polyMul rd ra rb rc) :=
  decode_formatR rfl (by simp [build, xOf]) (by simp [Shape.firstBad])

theorem decode_polyMuln (rd ra rb : VReg) : decode (formatR 0x63 rd ra rb 0 0) = .ok (.polyMuln rd ra rb) :=
  decode_formatR rfl (by simp [build]) (by simp [Shape.firstBad])

theorem decode_polyMulc (rd ra rb : VReg) : decode (formatR 0x64 rd ra rb 0 0) = .ok (.polyMulc rd ra rb) :=
  decode_formatR rfl (by simp [build]) (by simp [Shape.firstBad])

theorem decode_polyEq (rd : XReg) (ra rb : VReg) : decode (formatR 0x65 rd ra rb 0 0) = .ok (.polyEq rd ra rb) :=
  decode_formatR rfl (by simp [build, xOf]) (by simp [Shape.firstBad])

namespace Machine

/-! ### Lists by index -/

/-- Entry `k` of a list given by index. -/
theorem getD_map_range (f : Nat → Int) {n k : Nat} (hk : k < n) : ((List.range n).map f).getD k 0 = f k := by
  rw [List.getD_eq_getElem _ _ (by simpa using hk), List.getElem_map, List.getElem_range]

/-- Two lists of one length combined, by index. -/
theorem zipWith_eq_map_range (f : Int → Int → Int) {a b : List Int} (h : a.length = b.length) :
    List.zipWith f a b = (List.range a.length).map fun k => f (a.getD k 0) (b.getD k 0) := by
  refine List.ext_getElem (by simp [h]) fun k _ hk => ?_
  have hk : k < a.length := by simpa using hk
  simp [hk, h ▸ hk]

/-- Rows of `l` entries one after the other: entry `w` is entry `w % l` of row `w / l`. -/
theorem flatMap_map_range {α : Type} (f : Nat → Nat → α) (n l : Nat) :
    ((List.range n).flatMap fun k => (List.range l).map (f k)) =
      (List.range (n * l)).map fun w => f (w / l) (w % l) := by
  induction n with
  | zero => simp
  | succ n ih =>
    rw [List.range_succ, List.flatMap_append, ih, List.flatMap_singleton, Nat.succ_mul, List.range_add, List.map_append,
      List.map_map]
    refine congrArg _ (List.map_congr_left fun j hj => ?_)
    have hj := List.mem_range.mp hj
    rw [Function.comp_apply, Nat.mul_comm, Nat.mul_add_div (by omega), Nat.div_eq_of_lt hj, Nat.mul_add_mod,
      Nat.mod_eq_of_lt hj, Nat.add_zero]

/-- A command that ends in `VecAssign` of a list given by index (rule R31). -/
theorem finish_vecAssign_range (i : Instr) {s : State} (r : VReg) (f : Nat → Int) {n : Nat}
    (hn : n ≤ s.build.vcapMax) :
    finish i s (vecAssign s r ((List.range n).map f)) = .next
      { s.writeV r ⟨(List.range n).map fun k => u64 (f k), max s.v[r].cap n⟩ with cseq := s.cseq + 1 } := by
  have hlen : ((List.range n).map f).length = n := by simp
  rw [finish_vecAssign_of_le i r (hlen.trans_le hn), hlen, List.map_map]
  rfl

/-! ### The checks of the commands with a modulus register -/

section

variable {s : State} {ra rb : VReg} {rc : XReg}

theorem finish_polyModulus_of_size_ne (h : s.v[ra].size ≠ s.v[rb].size) (i : Instr) (rc : XReg)
    (f : Int → Except Exn State) :
    finish i s (polyModulus s ra rb rc >>= f) = .next (s.rejected i .lengthMismatch (.ofNat 64 s.v[rb].size)) :=
  finish_bind_of_error (by rw [polyModulus, require_of_neg h, u64, BitVec.ofInt_natCast]; rfl) i s f

theorem finish_polyModulus_of_lt_one (h : s.v[ra].size = s.v[rb].size) (hm : s.xInt rc < 1) (i : Instr)
    (f : Int → Except Exn State) :
    finish i s (polyModulus s ra rb rc >>= f) = .next (s.rejected i .badOperand 0) :=
  finish_bind_of_error (by rw [polyModulus, require_of_pos h, require_of_neg (not_le.mpr hm)]; rfl) i s f

theorem finish_polyModulus_of_one_le (h : s.v[ra].size = s.v[rb].size) (hm : 1 ≤ s.xInt rc) (i : Instr)
    (f : Int → Except Exn State) : finish i s (polyModulus s ra rb rc >>= f) = finish i s (f (s.xInt rc)) := by
  rw [polyModulus, require_of_pos h, require_of_pos hm]
  rfl

end

/-! ### Sum and difference -/

theorem exec_polyAdd (rd ra rb : VReg) (rc : XReg) (s : State) :
    exec (.polyAdd rd ra rb rc) s = finish (.polyAdd rd ra rb rc) s (do
      let m ← polyModulus s ra rb rc
      vecAssign s rd (List.zipWith (fun a b => (a + b) % m) (s.elems ra) (s.elems rb))) := rfl

theorem exec_polySub (rd ra rb : VReg) (rc : XReg) (s : State) :
    exec (.polySub rd ra rb rc) s = finish (.polySub rd ra rb rc) s (do
      let m ← polyModulus s ra rb rc
      vecAssign s rd (List.zipWith (fun a b => (a - b) % m) (s.elems ra) (s.elems rb))) := rfl

/-- A buffer holds as many elements as another does, so a result with one for each coefficient fits (rule R29). -/
theorem finish_vecAssign_zipWith {s : State} {ra rb : VReg} (hwf : s.v.wf s.build)
    (h : s.v[ra].size = s.v[rb].size) (f : Int → Int → Int) (i : Instr) (rd : VReg) :
    finish i s (vecAssign s rd (List.zipWith f (s.elems ra) (s.elems rb))) = .next
      { s.writeV rd ⟨(List.range s.v[ra].size).map fun k => u64 (f (s.element ra k) (s.element rb k)),
          max s.v[rd].cap s.v[ra].size⟩ with cseq := s.cseq + 1 } := by
  obtain ⟨hsize, hcap⟩ := hwf ra
  rw [zipWith_eq_map_range f (by rw [s.length_elems, s.length_elems, h]), s.length_elems]
  exact finish_vecAssign_range i rd _ (hsize.trans hcap)

/-- Settles O51: the two commands make the same checks, and combine their sources coefficient by coefficient. -/
theorem polySumAndDifference : Obligations.PolySumAndDifference := by
  intro s rd ra rb rc
  refine ⟨decode_polyAdd rd ra rb rc, decode_polySub rd ra rb rc, fun hne => ?_, fun h hm => ?_, fun hwf h hm => ?_⟩
  · rw [exec_polyAdd, exec_polySub, finish_polyModulus_of_size_ne hne, finish_polyModulus_of_size_ne hne]
    exact ⟨rfl, rfl⟩
  · rw [exec_polyAdd, exec_polySub, finish_polyModulus_of_lt_one h hm, finish_polyModulus_of_lt_one h hm]
    exact ⟨rfl, rfl⟩
  · rw [exec_polyAdd, exec_polySub, finish_polyModulus_of_one_le h hm, finish_polyModulus_of_one_le h hm]
    exact ⟨finish_vecAssign_zipWith hwf h _ _ rd, finish_vecAssign_zipWith hwf h _ _ rd⟩

/-! ### The schoolbook product and equality -/

/-- In coefficient `k`, index `i` of the first source meets one index of the second: `k - i`, or, past the top, the one
that is `n` further, with the sign changed (rule R292). -/
theorem sum_negacyclic_row {n i k : Nat} (hi : i < n) (hk : k < n) (a b : Nat → Int) :
    (∑ j ∈ Finset.range n, if i + j = k then a i * b j else if i + j = k + n then -(a i * b j) else 0) =
      if i ≤ k then a i * b (k - i) else -(a i * b (k + n - i)) := by
  split_ifs with hle
  · rw [Finset.sum_eq_single_of_mem (k - i) (Finset.mem_range.mpr (by omega)) fun j hj hne => ?_, if_pos (by omega)]
    have := Finset.mem_range.mp hj
    rw [if_neg (by omega), if_neg (by omega)]
  · rw [Finset.sum_eq_single_of_mem (k + n - i) (Finset.mem_range.mpr (by omega)) fun j hj hne => ?_,
      if_neg (by omega), if_pos (by omega)]
    rw [if_neg (by omega), if_neg (by omega)]

/-- The coefficient that the commands compute is the one of rule R292. -/
theorem negacyclicCoeff_eq (a b : List Int) {n k : Nat} (hk : k < n) :
    negacyclicCoeff n a b k = negacyclicSum n (a.getD · 0) (b.getD · 0) k := by
  calc negacyclicCoeff n a b k
      = ∑ i ∈ Finset.range n,
          if i ≤ k then a.getD i 0 * b.getD (k - i) 0 else -(a.getD i 0 * b.getD (k + n - i) 0) :=
        (Multiset.sum_coe _).symm
    _ = negacyclicSum n (a.getD · 0) (b.getD · 0) k :=
        Finset.sum_congr rfl fun i hi =>
          (sum_negacyclic_row (Finset.mem_range.mp hi) hk (a.getD · 0) (b.getD · 0)).symm

theorem negacyclic_eq (a b : List Int) (m : Int) :
    negacyclic a b m = (List.range a.length).map fun k => negacyclicSum a.length (a.getD · 0) (b.getD · 0) k % m := by
  rw [negacyclic, negacyclicZ, List.map_map]
  refine List.map_congr_left fun k hk => ?_
  rw [Function.comp_apply, negacyclicCoeff_eq a b (List.mem_range.mp hk), fmod]

theorem exec_polyMul (rd ra rb : VReg) (rc : XReg) (s : State) :
    exec (.polyMul rd ra rb rc) s = finish (.polyMul rd ra rb rc) s (do
      let m ← polyModulus s ra rb rc
      vecAssign s rd (negacyclic (s.elems ra) (s.elems rb) m)) := rfl

theorem exec_polyEq (rd : XReg) (ra rb : VReg) (s : State) :
    exec (.polyEq rd ra rb) s = .next
      { s.writeX rd (boolWord (s.v[ra].elems == s.v[rb].elems)) with cseq := s.cseq + 1 } := rfl

/-- Two buffers hold the same patterns when their sizes and their entries agree (rule R298). -/
theorem Buffer.elems_eq_iff (a b : Buffer) :
    a.elems = b.elems ↔ a.size = b.size ∧ ∀ k < a.size, a.elems[k]? = b.elems[k]? := by
  refine ⟨fun h => ⟨congrArg List.length h, fun k _ => congrArg (·[k]?) h⟩, fun ⟨hsize, h⟩ => ?_⟩
  refine List.ext_getElem?' fun k hk => h k ?_
  change k < max a.size b.size at hk
  omega

/-- Settles O52: each coefficient is a sum of one product an index, and the Boolean compares the lists of patterns. -/
theorem polySchoolbookProductAndEquality : Obligations.PolySchoolbookProductAndEquality := by
  intro s rd ra rb rc xd
  refine ⟨decode_polyMul rd ra rb rc, decode_polyEq xd ra rb, fun hne => ?_, fun h hm => ?_, fun hwf h hm => ?_,
    fun heq => ?_, fun hne => ?_⟩
  · rw [exec_polyMul, finish_polyModulus_of_size_ne hne]
  · rw [exec_polyMul, finish_polyModulus_of_lt_one h hm]
  · obtain ⟨hsize, hcap⟩ := hwf ra
    rw [exec_polyMul, finish_polyModulus_of_one_le h hm, negacyclic_eq, s.length_elems]
    exact finish_vecAssign_range _ rd _ (hsize.trans hcap)
  · rw [exec_polyEq, beq_iff_eq.mpr ((Buffer.elems_eq_iff _ _).mpr heq)]
    rfl
  · rw [exec_polyEq, beq_eq_false_iff_ne.mpr (mt (Buffer.elems_eq_iff _ _).mp hne)]
    rfl

/-! ### The product through the transform -/

section

variable {b : Build} {c : NttCtx} {x y : List Int}

theorem NttCtx.Valid.length_nttForward (hc : c.Valid b) (hx : x.length = c.n.toNat) :
    (nttForward c x).length = c.n.toNat := by
  rw [nttForward_eq b c hc x hx, List.length_map, List.length_range]

theorem NttCtx.Valid.nttForward_modEq (hc : c.Valid b) (hx : x.length = c.n.toNat) {k : Nat} (hk : k < c.n.toNat) :
    (nttForward c x).getD k 0 ≡ forwardSum c.n.toNat (sint c.psi) (x.getD · 0) k [ZMOD sint c.p] := by
  rw [nttForward_eq b c hc x hx, getD_map_range _ hk]
  exact Int.mod_modEq _ _

/-- The elementwise product of two forward transforms, transformed back, is the negacyclic product (rule R220). -/
theorem NttCtx.Valid.nttInverse_pointwise (hc : c.Valid b) (hx : x.length = c.n.toNat) (hy : y.length = c.n.toNat) :
    nttInverse c (pointwise c.modulus (nttForward c x) (nttForward c y)) =
      (List.range c.n.toNat).map fun k => negacyclicSum c.n.toNat (x.getD · 0) (y.getD · 0) k % sint c.p := by
  have hxl := hc.length_nttForward hx
  have hyl := hc.length_nttForward hy
  rw [pointwise_eq _ _ _ (hxl.trans hyl.symm), hxl, nttInverse_eq b c hc _ (by simp)]
  refine map_emod_congr fun i hi => hc.inverseSum_modEq (fun k hk => ?_) hi
  rw [getD_map_range _ hk]
  exact (Int.mod_modEq _ _).trans (((hc.nttForward_modEq hx hk).mul (hc.nttForward_modEq hy hk)).trans
    (hc.forwardSum_negacyclicSum_modEq _ _ k).symm)

end

theorem exec_polyMuln {s : State} {c : NttCtx} (rd ra rb : VReg) (hc : s.ntt = some c) :
    exec (.polyMuln rd ra rb) s = finish (.polyMuln rd ra rb) s (do
      needSize s.v[ra] c.n.toNat
      needSize s.v[rb] c.n.toNat
      vecAssign s rd (nttInverse c
        (pointwise c.modulus (nttForward c (s.elems ra)) (nttForward c (s.elems rb))))) := by
  rw [exec, execPolyMuln, hc]
  rfl

/-- Settles O53: the two sources and the result are three lists, so it makes no difference which buffers are one. -/
theorem polyNttProductIsSchoolbookProduct : Obligations.PolyNttProductIsSchoolbookProduct := by
  intro s rd ra rb
  refine ⟨decode_polyMuln rd ra rb, fun hnone => ?_, fun c hc hvalid => ⟨fun hne => ?_, fun ha hne => ?_,
    fun ha hb => ?_⟩⟩
  · rw [exec, execPolyMuln, hnone, finish_needSlot_none]
  · rw [exec_polyMuln rd ra rb hc, finish_needSize_of_ne hne]
  · rw [exec_polyMuln rd ra rb hc, finish_needSize_of_eq ha, finish_needSize_of_ne hne]
  · rw [exec_polyMuln rd ra rb hc, finish_needSize_of_eq ha, finish_needSize_of_eq hb,
      hvalid.nttInverse_pointwise ((s.length_elems ra).trans ha) ((s.length_elems rb).trans hb)]
    exact finish_vecAssign_residues hvalid _ rd _

/-! ### The product through the residues -/

/-- A limb of a number that is not negative has the pattern of the number shifted down to it (rules R7, R297). -/
theorem u64_limb {z : Int} (hz : 0 ≤ z) (k : Nat) :
    u64 ((z.toNat / 2 ^ (64 * k) % 2 ^ 64 : Nat) : Int) = u64 (z / 2 ^ (64 * k)) := by
  obtain ⟨n, rfl⟩ := Int.eq_ofNat_of_zero_le hz
  have hshift : (n : Int) / 2 ^ (64 * k) = (n / 2 ^ (64 * k) : Nat) := by push_cast; rfl
  rw [Int.toNat_natCast, hshift, u64, u64, BitVec.ofInt_natCast, BitVec.ofInt_natCast]
  exact BitVec.eq_of_toNat_eq (by rw [BitVec.toNat_ofNat, BitVec.toNat_ofNat, Nat.mod_mod])

section

variable {b : Build} {c : CrtCtx}

/-- The coefficients that stand at one index of the products modulo the primes are the residues of one integer, the
exact coefficient (rules R292, R297). -/
theorem CrtCtx.Valid.crtProduct_eq (hc : c.Valid b) (x y : List Int) :
    crtProduct c x y = (List.range x.length).map fun k =>
      negacyclicSum x.length (x.getD · 0) (y.getD · 0) k % c.bigM.toNat := by
  refine List.map_congr_left fun k hk => ?_
  rw [← hc.reconstruct_residues, residues, List.map_map]
  refine congrArg _ (List.map_congr_left fun q _ => ?_)
  rw [Function.comp_apply, coeff, negacyclic_eq, getD_map_range _ (List.mem_range.mp hk), fmod]

/-- The limbs of every coefficient fit a buffer of every build (rules R6, R386). -/
theorem CrtCtx.Valid.degree_mul_limbs_le (hc : c.Valid b) : c.degree.toNat * c.limbs.toNat ≤ b.vcapMax := by
  obtain ⟨l, -, -, -, -, -, -, hdeg, -, -, hlimbs, -⟩ := CrtCtx.Valid.fields b c hc
  exact (Nat.mul_le_mul hdeg hlimbs).trans b.room

end

/-- The limbs of the numbers of a list given by index, one number after the other (rule R297). -/
theorem flatMap_limbsOf (f : Nat → Int) (n l : Nat) :
    (((List.range n).map f).flatMap fun z => limbsOf l z.toNat) =
      (List.range (n * l)).map fun w => (((f (w / l)).toNat / 2 ^ (64 * (w % l)) % 2 ^ 64 : Nat) : Int) := by
  rw [List.flatMap_map]
  exact flatMap_map_range (fun k j => (((f k).toNat / 2 ^ (64 * j) % 2 ^ 64 : Nat) : Int)) n l

section

variable {s : State} {c : CrtCtx} (rd : VReg) {ra rb : VReg}

theorem exec_polyMulc (ra rb : VReg) (hc : s.crt = some c) :
    exec (.polyMulc rd ra rb) s = finish (.polyMulc rd ra rb) s (do
      needSize s.v[ra] c.degree.toNat
      needSize s.v[rb] c.degree.toNat
      require (c.degree.toNat * c.limbs.toNat ≤ s.build.vcapMax) .capacityExceeded
        (u64 (c.degree.toNat * c.limbs.toNat : Nat))
      vecAssign s rd ((crtProduct c (s.elems ra) (s.elems rb)).flatMap fun z => limbsOf c.limbs.toNat z.toNat)) := by
  rw [exec, execPolyMulc, hc]
  rfl

/-- With sources of the size of the slot the command retires with the limbs of the exact product (rule R297). -/
theorem exec_polyMulc_of_size (hc : s.crt = some c) (hvalid : c.Valid s.build) (ha : s.v[ra].size = c.degree.toNat)
    (hb : s.v[rb].size = c.degree.toNat) :
    exec (.polyMulc rd ra rb) s = .next
      { s.writeV rd ⟨(List.range (c.degree.toNat * c.limbs.toNat)).map fun w =>
            u64 (negacyclicSum c.degree.toNat (s.element ra) (s.element rb) (w / c.limbs.toNat) %
              c.bigM.toNat / 2 ^ (64 * (w % c.limbs.toNat))),
          max s.v[rd].cap (c.degree.toNat * c.limbs.toNat)⟩ with cseq := s.cseq + 1 } := by
  have hroom := hvalid.degree_mul_limbs_le
  have hpos := hvalid.bigM_pos
  rw [exec_polyMulc rd ra rb hc, finish_needSize_of_eq ha, finish_needSize_of_eq hb, finish_require_of_pos hroom,
    hvalid.crtProduct_eq, s.length_elems, ha, flatMap_limbsOf, finish_vecAssign_range _ rd _ hroom]
  simp only [u64_limb (Int.emod_nonneg _ (show (c.bigM.toNat : Int) ≠ 0 by omega))]
  rfl

end

/-- Settles O54: the coefficients modulo the primes are the residues of the exact one, which the reconstruction gives
modulo `M`, and the check of the room never fails. -/
theorem polyCrtProductIsExactProduct : Obligations.PolyCrtProductIsExactProduct := by
  intro s rd ra rb
  refine ⟨decode_polyMulc rd ra rb, fun hnone => ?_, fun c hc hvalid => ⟨fun hne => ?_, fun ha hne => ?_,
    exec_polyMulc_of_size rd hc hvalid⟩⟩
  · rw [exec, execPolyMulc, hnone, finish_needSlot_none]
  · rw [exec_polyMulc rd ra rb hc, finish_needSize_of_ne hne]
  · rw [exec_polyMulc rd ra rb hc, finish_needSize_of_eq ha, finish_needSize_of_ne hne]

end Machine

end Sys2Proof

/-! RandomSample: every draw is a member of its rule's set, every member is some draw, and what the commands of family 7
answer (rules R320 to R323). -/

namespace Sys2Proof

theorem decode_rndHwt (rd : VReg) (ra rb : XReg) : decode (formatR 0x70 rd ra rb 0 0) = .ok (.rndHwt rd ra rb) :=
  decode_formatR rfl (by simp [build, xOf]) (by simp [Shape.firstBad])

theorem decode_rndTri (rd : VReg) (ra : XReg) : decode (formatR 0x71 rd ra 0 0 0) = .ok (.rndTri rd ra) :=
  decode_formatR rfl (by simp [build, xOf]) (by simp [Shape.firstBad])

theorem decode_rndUni (rd : VReg) (ra rb rc : XReg) :
    decode (formatR 0x72 rd ra rb rc 0) = .ok (.rndUni rd ra rb rc) :=
  decode_formatR rfl (by simp [build, xOf]) (by simp [Shape.firstBad])

namespace Machine

/-! ### The sets of the rules -/

/-- A list of the set of rule R321: `n` entries in −1, 0 and 1, exactly `h` of them nonzero. -/
structure IsTernary (n h : Nat) (l : List Int) : Prop where
  length : l.length = n
  entries : ∀ z ∈ l, z = -1 ∨ z = 0 ∨ z = 1
  weight : l.countP (· ≠ 0) = h

/-- A list of the set of rule R323: `n` integers in `[lo, hi)`. -/
structure IsInRange (lo hi : Int) (n : Nat) (l : List Int) : Prop where
  length : l.length = n
  entries : ∀ z ∈ l, lo ≤ z ∧ z < hi

theorem IsTernary.cons_zero {n h : Nat} {l : List Int} (hl : IsTernary n h l) : IsTernary (n + 1) h (0 :: l) where
  length := congrArg (· + 1) hl.length
  entries := List.forall_mem_cons.mpr ⟨.inr (.inl rfl), hl.entries⟩
  weight := by simpa using hl.weight

theorem IsTernary.cons_unit {n h : Nat} {z : Int} {l : List Int} (hz : z = -1 ∨ z = 1) (hl : IsTernary n h l) :
    IsTernary (n + 1) (h + 1) (z :: l) where
  length := congrArg (· + 1) hl.length
  entries := List.forall_mem_cons.mpr ⟨by tauto, hl.entries⟩
  weight := by
    have hne : z ≠ 0 := by omega
    simpa [hne] using hl.weight

/-! ### The draws of `RND.HWT` -/

theorem drawTernary_succ_of_zero {f : Nat → Nat} {n h : Nat} (hc : h = 0 ∨ (h ≤ n ∧ f n % 3 = 0)) :
    drawTernary f (n + 1) h = 0 :: drawTernary f n h := if_pos hc

theorem drawTernary_succ_of_unit {f : Nat → Nat} {n h : Nat} (hc : ¬ (h = 0 ∨ (h ≤ n ∧ f n % 3 = 0))) :
    drawTernary f (n + 1) h = (if f n % 3 = 1 then 1 else -1) :: drawTernary f n (h - 1) := if_neg hc

theorem isTernary_drawTernary (f : Nat → Nat) {n h : Nat} (hle : h ≤ n) : IsTernary n h (drawTernary f n h) := by
  induction n generalizing h with
  | zero =>
    obtain rfl : h = 0 := by omega
    exact ⟨rfl, by simp [drawTernary], rfl⟩
  | succ n ih =>
    by_cases hc : h = 0 ∨ (h ≤ n ∧ f n % 3 = 0)
    · rw [drawTernary_succ_of_zero hc]
      exact (ih (by omega)).cons_zero
    · obtain ⟨h, rfl⟩ : ∃ m, h = m + 1 := ⟨h - 1, by omega⟩
      rw [drawTernary_succ_of_unit hc]
      exact (ih (by omega)).cons_unit (by split <;> simp)

/-- A draw of `n` entries asks for the first `n` answers only. -/
theorem drawTernary_congr {f g : Nat → Nat} {n : Nat} (hfg : ∀ k < n, f k = g k) (h : Nat) :
    drawTernary f n h = drawTernary g n h := by
  induction n generalizing h with
  | zero => rfl
  | succ n ih =>
    rw [drawTernary, drawTernary, hfg n (Nat.lt_succ_self n), ih fun k hk => hfg k (by omega),
      ih fun k hk => hfg k (by omega)]

theorem drawTernary_update (f : Nat → Nat) (n a h : Nat) :
    drawTernary (Function.update f n a) n h = drawTernary f n h :=
  drawTernary_congr (fun _ hk => Function.update_of_ne hk.ne a f) h

/-- The answer that makes an entry `z` where the entry is free. -/
def ternaryAnswer (z : Int) : Nat := if z = 0 then 0 else if z = 1 then 1 else 2

theorem ternaryAnswer_mod_three {z : Int} (hz : z ≠ 0) : ternaryAnswer z % 3 = if z = 1 then 1 else 2 := by
  rw [ternaryAnswer, if_neg hz]
  split <;> rfl

theorem exists_drawTernary {n h : Nat} {l : List Int} (hl : IsTernary n h l) : ∃ f, drawTernary f n h = l := by
  obtain ⟨rfl, hentries, rfl⟩ := hl
  induction l with
  | nil => exact ⟨fun _ => 0, rfl⟩
  | cons z l ih =>
    obtain ⟨hz, hentries⟩ := List.forall_mem_cons.mp hentries
    obtain ⟨f, hf⟩ := ih hentries
    refine ⟨Function.update f l.length (ternaryAnswer z), ?_⟩
    have hle : l.countP (· ≠ 0) ≤ l.length := List.countP_le_length
    rw [List.length_cons, List.countP_cons]
    obtain rfl | hz : z = 0 ∨ z ≠ 0 := em _
    · rw [drawTernary_succ_of_zero (.inr ⟨by simpa using hle, by simp [ternaryAnswer]⟩), drawTernary_update]
      simpa using hf
    · have hanswer := ternaryAnswer_mod_three hz
      have hfree : ¬ ternaryAnswer z % 3 = 0 := by split_ifs at hanswer <;> omega
      have hentry : (if ternaryAnswer z % 3 = 1 then 1 else -1) = z := by split_ifs at hanswer ⊢ <;> omega
      rw [drawTernary_succ_of_unit (by simp [hz, hfree]), drawTernary_update, Function.update_self, hentry]
      simpa [hz] using hf

/-! ### The draws of `RND.TRI` and `RND.UNI` -/

/-- The set of rule R322 is a range of rule R323. -/
theorem drawCentered_eq_drawRange (f : Nat → Nat) (bound n : Nat) :
    drawCentered f bound n = drawRange f (-bound) (bound + 1) n := by
  have hwidth : ((bound : Int) + 1 - -bound).toNat = 2 * bound + 1 := by omega
  simp only [drawCentered, drawRange, hwidth, neg_add_eq_sub]

theorem isInRange_drawRange (f : Nat → Nat) {lo hi : Int} (h : lo < hi) (n : Nat) :
    IsInRange lo hi n (drawRange f lo hi n) where
  length := by simp [drawRange]
  entries z hz := by
    obtain ⟨k, -, rfl⟩ := List.mem_map.mp hz
    have hlt := Nat.mod_lt (f k) (show 0 < (hi - lo).toNat by omega)
    omega

theorem isInRange_drawCentered (f : Nat → Nat) (bound n : Nat) :
    IsInRange (-bound) (bound + 1) n (drawCentered f bound n) :=
  drawCentered_eq_drawRange f bound n ▸ isInRange_drawRange f (by omega) n

theorem exists_drawRange {lo hi : Int} {n : Nat} {l : List Int} (hl : IsInRange lo hi n l) :
    ∃ f, drawRange f lo hi n = l := by
  obtain ⟨rfl, hentries⟩ := hl
  refine ⟨fun k => (l.getD k 0 - lo).toNat, List.ext_getElem (by simp [drawRange]) fun k _ hk => ?_⟩
  obtain ⟨hlow, hhigh⟩ := hentries _ (List.getElem_mem hk)
  have hmod : (l[k] - lo).toNat % (hi - lo).toNat = (l[k] - lo).toNat := Nat.mod_eq_of_lt (by omega)
  simp only [drawRange, List.getElem_map, List.getElem_range, List.getD_eq_getElem _ _ hk, hmod]
  omega

/-- Settles O56: the answers are read off the list, entry by entry. -/
theorem everyMemberOfTheSetCanBeDrawn : Obligations.EveryMemberOfTheSetCanBeDrawn := by
  refine ⟨fun n h l hlen hentries hweight => exists_drawTernary ⟨hlen, hentries, hweight⟩,
    fun bound n l hlen hentries => ?_, fun lo hi n l hlen hentries => exists_drawRange ⟨hlen, hentries⟩⟩
  simp only [drawCentered_eq_drawRange]
  exact exists_drawRange ⟨hlen, fun z hz => by have := hentries z hz; omega⟩

/-! ### What the samplers answer -/

/-- Samples that fit the buffer are written there, and the source has answered one draw more (rules R31, R320). -/
theorem finish_storeDraw_of_le (i : Instr) {s : State} (r : VReg) {l : List Int} (hl : l.length ≤ s.build.vcapMax) :
    finish i s (storeDraw s r l) =
      .next { s.writeV r ⟨l.map u64, max s.v[r].cap l.length⟩ with draws := s.draws + 1, cseq := s.cseq + 1 } := by
  rw [storeDraw, (vecAssign_eq_ok s _ r l).mpr ⟨hl, rfl⟩]
  rfl

theorem exec_rndHwt (rd : VReg) (ra rb : XReg) (s : State) :
    exec (.rndHwt rd ra rb) s = finish (.rndHwt rd ra rb) s (do
      require (0 ≤ s.xInt ra) .badOperand
      require (0 ≤ s.xInt rb ∧ s.xInt rb ≤ s.xInt ra) .badOperand
      require (s.xInt ra ≤ s.build.vcapMax) .capacityExceeded (u64 (s.xInt ra))
      storeDraw s rd (drawTernary s.source (s.xInt ra).toNat (s.xInt rb).toNat)) := rfl

theorem exec_rndTri (rd : VReg) (ra : XReg) (s : State) :
    exec (.rndTri rd ra) s = finish (.rndTri rd ra) s (do
      require (0 ≤ s.xInt ra) .badOperand
      require (s.xInt ra ≤ s.build.vcapMax) .capacityExceeded (u64 (s.xInt ra))
      storeDraw s rd (drawCentered s.source (Config.triBound s.build) (s.xInt ra).toNat)) := rfl

theorem exec_rndUni (rd : VReg) (ra rb rc : XReg) (s : State) :
    exec (.rndUni rd ra rb rc) s = finish (.rndUni rd ra rb rc) s (do
      require (0 ≤ s.xInt ra) .badOperand
      require (s.xInt ra < s.xInt rb) .badOperand
      require (0 ≤ s.xInt rc) .badOperand
      require (s.xInt rc ≤ s.build.vcapMax) .capacityExceeded (u64 (s.xInt rc))
      storeDraw s rd (drawRange s.source (s.xInt ra) (s.xInt rb) (s.xInt rc).toNat)) := rfl

@[simp] theorem u64_xInt (s : State) (r : XReg) : u64 (s.xInt r) = s.x[r] := u64_sint _

section

variable {s : State} (rd : VReg) {ra rb rc : XReg}

/-- Each check of `RND.HWT` that fails first rejects it (rule R321). -/
theorem exec_rndHwt_of_bad (h : s.xInt ra < 0 ∨ s.xInt rb < 0 ∨ s.xInt ra < s.xInt rb) :
    exec (.rndHwt rd ra rb) s = .next (s.rejected (.rndHwt rd ra rb) .badOperand 0) := by
  rw [exec_rndHwt]
  by_cases hn : 0 ≤ s.xInt ra
  · rw [finish_require_of_pos hn, finish_require_of_neg (by omega)]
  · rw [finish_require_of_neg hn]

theorem exec_rndHwt_of_room (hh : 0 ≤ s.xInt rb) (hle : s.xInt rb ≤ s.xInt ra)
    (hroom : s.xInt ra ≤ s.build.vcapMax) :
    ∃ l : List Int, (l.length : Int) = s.xInt ra ∧ (∀ z ∈ l, z = -1 ∨ z = 0 ∨ z = 1) ∧
      ((l.countP (· ≠ 0) : Nat) : Int) = s.xInt rb ∧
      exec (.rndHwt rd ra rb) s = .next { s.writeV rd ⟨l.map u64, max s.v[rd].cap l.length⟩
        with draws := s.draws + 1, cseq := s.cseq + 1 } := by
  obtain ⟨hlen, hentries, hweight⟩ :=
    isTernary_drawTernary s.source (h := (s.xInt rb).toNat) (n := (s.xInt ra).toNat) (by omega)
  refine ⟨_, by omega, hentries, by omega, ?_⟩
  rw [exec_rndHwt, finish_require_of_pos (by omega), finish_require_of_pos ⟨hh, hle⟩, finish_require_of_pos hroom,
    finish_storeDraw_of_le _ rd (by omega)]

theorem exec_rndTri_of_room (hn : 0 ≤ s.xInt ra) (hroom : s.xInt ra ≤ s.build.vcapMax) :
    ∃ l : List Int, (l.length : Int) = s.xInt ra ∧
      (∀ z ∈ l, -(Config.triBound s.build : Int) ≤ z ∧ z ≤ Config.triBound s.build) ∧
      exec (.rndTri rd ra) s = .next { s.writeV rd ⟨l.map u64, max s.v[rd].cap l.length⟩
        with draws := s.draws + 1, cseq := s.cseq + 1 } := by
  obtain ⟨hlen, hentries⟩ := isInRange_drawCentered s.source (Config.triBound s.build) (s.xInt ra).toNat
  simp only [Int.lt_add_one_iff] at hentries
  refine ⟨_, by omega, hentries, ?_⟩
  rw [exec_rndTri, finish_require_of_pos hn, finish_require_of_pos hroom,
    finish_storeDraw_of_le _ rd (by omega)]

/-- Each check of `RND.UNI` that fails first rejects it (rule R323). -/
theorem exec_rndUni_of_bad (h : s.xInt ra < 0 ∨ s.xInt rb ≤ s.xInt ra ∨ s.xInt rc < 0) :
    exec (.rndUni rd ra rb rc) s = .next (s.rejected (.rndUni rd ra rb rc) .badOperand 0) := by
  rw [exec_rndUni]
  by_cases hlo : 0 ≤ s.xInt ra
  · rw [finish_require_of_pos hlo]
    by_cases hhi : s.xInt ra < s.xInt rb
    · rw [finish_require_of_pos hhi, finish_require_of_neg (by omega)]
    · rw [finish_require_of_neg hhi]
  · rw [finish_require_of_neg hlo]

theorem exec_rndUni_of_room (hlo : 0 ≤ s.xInt ra) (hhi : s.xInt ra < s.xInt rb) (hn : 0 ≤ s.xInt rc)
    (hroom : s.xInt rc ≤ s.build.vcapMax) :
    ∃ l : List Int, (l.length : Int) = s.xInt rc ∧ (∀ z ∈ l, s.xInt ra ≤ z ∧ z < s.xInt rb) ∧
      exec (.rndUni rd ra rb rc) s = .next { s.writeV rd ⟨l.map u64, max s.v[rd].cap l.length⟩
        with draws := s.draws + 1, cseq := s.cseq + 1 } := by
  obtain ⟨hlen, hentries⟩ := isInRange_drawRange s.source hhi (s.xInt rc).toNat
  refine ⟨_, by omega, hentries, ?_⟩
  rw [exec_rndUni, finish_require_of_pos hlo, finish_require_of_pos hhi, finish_require_of_pos hn,
    finish_require_of_pos hroom, finish_storeDraw_of_le _ rd (by omega)]

end

/-- Settles O55: the checks come in the rules' order, and behind them a draw of the rule's set fits the buffer. -/
theorem samplesLieInTheRulesSet : Obligations.SamplesLieInTheRulesSet := by
  intro s rd ra rb rc
  refine ⟨decode_rndHwt rd ra rb, exec_rndHwt_of_bad rd, fun hh hle => ⟨fun hover => ?_, exec_rndHwt_of_room rd hh hle⟩,
    decode_rndTri rd ra, fun hneg => ?_, fun hover => ?_, exec_rndTri_of_room rd, decode_rndUni rd ra rb rc,
    exec_rndUni_of_bad rd, fun hlo hhi hover => ?_, exec_rndUni_of_room rd⟩
  · rw [exec_rndHwt, finish_require_of_pos (by omega), finish_require_of_pos ⟨hh, hle⟩,
      finish_require_of_neg (not_le.mpr hover), u64_xInt]
  · rw [exec_rndTri, finish_require_of_neg (not_le.mpr hneg)]
  · rw [exec_rndTri, finish_require_of_pos (by omega), finish_require_of_neg (not_le.mpr hover), u64_xInt]
  · rw [exec_rndUni, finish_require_of_pos hlo, finish_require_of_pos hhi, finish_require_of_pos (by omega),
      finish_require_of_neg (not_le.mpr hover), u64_xInt]

end Machine

end Sys2Proof

/-! DynArray: what the commands of family 8 answer, and what a buffer keeps through them (rules R340 to R349). -/

namespace Sys2Proof

theorem decode_vsize (rd : XReg) (ra : VReg) : decode (formatR 0x80 rd ra 0 0 0) = .ok (.vsize rd ra) :=
  decode_formatR rfl (by simp [build, xOf]) (by simp [Shape.firstBad])

theorem decode_vcap (rd : XReg) (ra : VReg) : decode (formatR 0x81 rd ra 0 0 0) = .ok (.vcap rd ra) :=
  decode_formatR rfl (by simp [build, xOf]) (by simp [Shape.firstBad])

theorem decode_vempty (rd : XReg) (ra : VReg) : decode (formatR 0x82 rd ra 0 0 0) = .ok (.vempty rd ra) :=
  decode_formatR rfl (by simp [build, xOf]) (by simp [Shape.firstBad])

theorem decode_vresize (rd : VReg) (ra : XReg) : decode (formatR 0x83 rd ra 0 0 0) = .ok (.vresize rd ra) :=
  decode_formatR rfl (by simp [build, xOf]) (by simp [Shape.firstBad])

theorem decode_vreserve (rd : VReg) (ra : XReg) : decode (formatR 0x84 rd ra 0 0 0) = .ok (.vreserve rd ra) :=
  decode_formatR rfl (by simp [build, xOf]) (by simp [Shape.firstBad])

theorem decode_vshrink (rd : VReg) : decode (formatR 0x85 rd 0 0 0 0) = .ok (.vshrink rd) :=
  decode_formatR rfl (by simp [build]) (by simp [Shape.firstBad])

theorem decode_vat (rd : XReg) (ra : VReg) (rb : XReg) : decode (formatR 0x86 rd ra rb 0 0) = .ok (.vat rd ra rb) :=
  decode_formatR rfl (by simp [build, xOf]) (by simp [Shape.firstBad])

theorem decode_vset (rd : VReg) (ra rb : XReg) : decode (formatR 0x87 rd ra rb 0 0) = .ok (.vset rd ra rb) :=
  decode_formatR rfl (by simp [build, xOf]) (by simp [Shape.firstBad])

namespace Machine

/-! ### The extents of a buffer -/

theorem exec_vsize (rd : XReg) (ra : VReg) (s : State) :
    exec (.vsize rd ra) s = .next (s.writeX rd (u64 s.v[ra].size)).retire := rfl

theorem exec_vcap (rd : XReg) (ra : VReg) (s : State) :
    exec (.vcap rd ra) s = .next (s.writeX rd (u64 s.v[ra].cap)).retire := rfl

theorem exec_vempty (rd : XReg) (ra : VReg) (s : State) :
    exec (.vempty rd ra) s = .next (s.writeX rd (boolWord (s.v[ra].size == 0))).retire := rfl

/-- Settles O57: none of the three has a check. -/
theorem bufferExtents : Obligations.BufferExtents := by
  intro s xd ra
  refine ⟨decode_vsize xd ra, ?_, decode_vcap xd ra, ?_, decode_vempty xd ra, ?_⟩
  · rw [exec_vsize, u64, BitVec.ofInt_natCast]
    rfl
  · rw [exec_vcap, u64, BitVec.ofInt_natCast]
    rfl
  · rw [exec_vempty, boolWord]
    simp only [beq_iff_eq]
    rfl

/-! ### Resizing -/

/-- A register that does not hold a negative number holds that number's pattern (rule R7). -/
theorem State.toNat_xInt {s : State} {r : XReg} (h : 0 ≤ s.xInt r) : (s.xInt r).toNat = s.x[r].toNat :=
  toNat_eq_of_sint_nonneg h

theorem exec_vresize (rd : VReg) (ra : XReg) (s : State) :
    exec (.vresize rd ra) s = finish (.vresize rd ra) s (do
      require (0 ≤ s.xInt ra) .badOperand
      require (s.xInt ra ≤ s.build.vcapMax) .capacityExceeded (u64 (s.xInt ra))
      return s.writeV rd (s.v[rd].resize (s.xInt ra).toNat)) := rfl

theorem exec_vreserve (rd : VReg) (ra : XReg) (s : State) :
    exec (.vreserve rd ra) s = finish (.vreserve rd ra) s (do
      require (0 ≤ s.xInt ra) .badOperand
      require (s.xInt ra ≤ s.build.vcapMax) .capacityExceeded (u64 (s.xInt ra))
      return s.writeV rd (s.v[rd].reserve (s.xInt ra).toNat)) := rfl

theorem exec_vshrink (rd : VReg) (s : State) :
    exec (.vshrink rd) s = .next (s.writeV rd s.v[rd].shrink).retire := rfl

section

variable {s : State} {ra : XReg} (rd : VReg)

theorem exec_vresize_of_room (h0 : 0 ≤ s.xInt ra) (hroom : s.xInt ra ≤ s.build.vcapMax) :
    exec (.vresize rd ra) s = .next (s.writeV rd (s.v[rd].resize s.x[ra].toNat)).retire := by
  rw [exec_vresize, finish_require_of_pos h0, finish_require_of_pos hroom, State.toNat_xInt h0]
  rfl

theorem exec_vreserve_of_room (h0 : 0 ≤ s.xInt ra) (hroom : s.xInt ra ≤ s.build.vcapMax) :
    exec (.vreserve rd ra) s = .next (s.writeV rd (s.v[rd].reserve s.x[ra].toNat)).retire := by
  rw [exec_vreserve, finish_require_of_pos h0, finish_require_of_pos hroom, State.toNat_xInt h0]
  rfl

end

/-- Settles O58: the two checks, and a resized buffer element by element. -/
theorem bufferResizing : Obligations.BufferResizing := by
  intro s rd xa
  refine ⟨decode_vresize rd xa, decode_vreserve rd xa, decode_vshrink rd, fun hneg => ⟨?_, ?_⟩,
    fun hover => ⟨?_, ?_⟩, fun h0 hroom => ⟨⟨s.v[rd].resize s.x[xa].toNat, Buffer.size_resize _ _, max_def_lt _ _,
      Buffer.read_resize _ _, exec_vresize_of_room rd h0 hroom⟩, ?_⟩, rfl⟩
  · rw [exec_vresize, finish_require_of_neg (not_le.mpr hneg)]
  · rw [exec_vreserve, finish_require_of_neg (not_le.mpr hneg)]
  · rw [exec_vresize, finish_require_of_pos (by omega), finish_require_of_neg (not_le.mpr hover), u64_xInt]
  · rw [exec_vreserve, finish_require_of_pos (by omega), finish_require_of_neg (not_le.mpr hover), u64_xInt]
  · rw [exec_vreserve_of_room rd h0 hroom, ← max_def_lt]
    rfl

/-! ### Elements -/

theorem finish_boundedIndex_of_in {b : Buffer} {i : Word} (h : 0 ≤ sint i ∧ sint i < b.size) (c : Instr) (s : State)
    (f : Nat → Except Exn State) : finish c s (boundedIndex b i >>= f) = finish c s (f i.toNat) := by
  rw [boundedIndex, require_of_pos h, ← toNat_eq_of_sint_nonneg h.1]
  rfl

/-- An index outside `[0, size)` rejects the command with its pattern (rule R346). -/
theorem finish_boundedIndex_of_out {b : Buffer} {i : Word} (h : ¬ (0 ≤ sint i ∧ sint i < b.size)) (c : Instr)
    (s : State) (f : Nat → Except Exn State) :
    finish c s (boundedIndex b i >>= f) = .next (s.rejected c .indexOutOfRange i) := by
  rw [boundedIndex, require_of_neg h]
  rfl

theorem exec_vat (rd : XReg) (ra : VReg) (rb : XReg) (s : State) :
    exec (.vat rd ra rb) s = finish (.vat rd ra rb) s (do
      let k ← boundedIndex s.v[ra] s.x[rb]
      return s.writeX rd ((s.v[ra].read k).getD 0)) := rfl

theorem exec_vset (rd : VReg) (ra rb : XReg) (s : State) :
    exec (.vset rd ra rb) s = finish (.vset rd ra rb) s (do
      let k ← boundedIndex s.v[rd] s.x[ra]
      return s.writeV rd (s.v[rd].write k s.x[rb])) := rfl

theorem exec_vset_of_in {s : State} {rd : VReg} {ra : XReg} (h : 0 ≤ s.xInt ra ∧ s.xInt ra < s.v[rd].size)
    (rb : XReg) :
    exec (.vset rd ra rb) s = .next (s.writeV rd (s.v[rd].write s.x[ra].toNat s.x[rb])).retire := by
  rw [exec_vset, finish_boundedIndex_of_in h]
  rfl

/-- An index in `[0, size)` is that of an element (rules R29, R346). -/
theorem exists_read_of_in {b : Buffer} {i : Word} (h : 0 ≤ sint i ∧ sint i < b.size) :
    ∃ d, b.read i.toNat = some d := by
  have hnat := toNat_eq_of_sint_nonneg h.1
  have hlt : i.toNat < b.elems.length := by
    rw [← Buffer.size]
    omega
  exact ⟨_, List.getElem?_eq_getElem hlt⟩

/-- Settles O59: both commands check the same bound, and behind it the element exists. -/
theorem elementAccess : Obligations.ElementAccess := by
  intro s xd xa xb vd va
  refine ⟨decode_vat xd va xb, decode_vset vd xa xb, fun hout => ?_, fun h0 hlt => ?_, fun hout => ?_,
    fun h0 hlt => exec_vset_of_in ⟨h0, hlt⟩ xb⟩
  · rw [exec_vat, finish_boundedIndex_of_out hout]
  · obtain ⟨d, hd⟩ := exists_read_of_in ⟨h0, hlt⟩
    refine ⟨d, hd, ?_⟩
    rw [exec_vat, finish_boundedIndex_of_in ⟨h0, hlt⟩, hd]
    rfl
  · rw [exec_vset, finish_boundedIndex_of_out hout]

/-! ### A set element through later resizing -/

section

variable {s : State} {rd : VReg}

/-- A command that writes a buffer and retires is one step of a program (rule R430). -/
theorem runProgram_writeV {i : Instr} {b : Buffer} (h : exec i s = .next (s.writeV rd b).retire) (hrun : s.run = .idle)
    (rest : List Instr) : runProgram (i :: rest) s = runProgram rest (s.writeV rd b).retire :=
  runProgram_cons h (by simp [hrun]) rest

theorem State.writeV_get_same (b : Buffer) : (s.writeV rd b).v[rd] = b := by
  rw [State.writeV_get, if_pos rfl]

/-- The buffer after `VSET` at `k`, `VRESIZE` to `n` and `VRESERVE` of `c` (rules R343, R344, R348). -/
def Buffer.setResizeReserve (b : Buffer) (k : Nat) (d : Word) (n c : Nat) : Buffer :=
  ((b.write k d).resize n).reserve c

theorem Buffer.read_setResizeReserve {b : Buffer} {k n : Nat} (d : Word) (c : Nat) (hk : k < b.size) (hn : k < n) :
    (b.setResizeReserve k d n c).read k = some d := by
  rw [Buffer.setResizeReserve, Buffer.read_reserve, Buffer.read_resize_of_lt hn (by rwa [Buffer.size_write]),
    Buffer.read_write_same b k d hk]

/-- Where the operands pass the checks the three commands retire one after the other, and what follows them runs on
their buffer (rule R430). -/
theorem exists_runProgram_setResizeReserve {xi xn xc : XReg} (xv : XReg) (hrun : s.run = .idle)
    (hwf : s.v.wf s.build) (hi : 0 ≤ s.xInt xi ∧ s.xInt xi < s.v[rd].size)
    (hn : 0 ≤ s.xInt xn ∧ s.xInt xn ≤ s.build.vcapMax) (hc : 0 ≤ s.xInt xc ∧ s.xInt xc ≤ s.build.vcapMax) :
    ∃ t : State, (∀ rest, runProgram (.vset rd xi xv :: .vresize rd xn :: .vreserve rd xc :: rest) s =
        runProgram rest t) ∧ t.run = .idle ∧ t.build = s.build ∧ t.v.wf s.build ∧
      t.v[rd] = s.v[rd].setResizeReserve s.x[xi].toNat s.x[xv] s.x[xn].toNat s.x[xc].toNat := by
  have hnmax : s.x[xn].toNat ≤ s.build.vcapMax := State.toNat_xInt hn.1 ▸ Int.toNat_le.mpr hn.2
  have hcmax : s.x[xc].toNat ≤ s.build.vcapMax := State.toNat_xInt hc.1 ▸ Int.toNat_le.mpr hc.2
  let s1 := (s.writeV rd (s.v[rd].write s.x[xi].toNat s.x[xv])).retire
  let s2 := (s1.writeV rd (s1.v[rd].resize s.x[xn].toNat)).retire
  let s3 := (s2.writeV rd (s2.v[rd].reserve s.x[xc].toNat)).retire
  have hwf1 : s1.v.wf s.build := s.writeElement_wf rd _ _ hwf
  have hwf2 : s2.v.wf s.build := s1.resize_wf rd _ hwf1 hnmax
  refine ⟨s3, fun rest => ?_, hrun, rfl, s2.reserve_wf rd _ hwf2 hcmax, ?_⟩
  · rw [runProgram_writeV (exec_vset_of_in hi xv) hrun]
    exact (runProgram_writeV (s := s1) (exec_vresize_of_room rd hn.1 hn.2) hrun _).trans
      (runProgram_writeV (s := s2) (exec_vreserve_of_room rd hc.1 hc.2) hrun _)
  · simp only [s3, s2, s1, State.retire_v, State.writeV_get_same, Buffer.setResizeReserve]

end

/-- Settles O60: the three commands leave the buffer that the element survives in, and the shrink changes its capacity
only. -/
theorem bufferKeepsSetElement : Obligations.BufferKeepsSetElement := by
  intro s rd xi xv xn xc hrun hwf hi0 hi hin hnmax hc0 hcmax
  have hn0 : 0 ≤ s.xInt xn := by omega
  have hinat := State.toNat_xInt hi0
  have hnnat := State.toNat_xInt hn0
  obtain ⟨t, ht, htrun, htbuild, htwf, htv⟩ :=
    exists_runProgram_setResizeReserve xv hrun hwf ⟨hi0, hi⟩ ⟨hn0, hnmax⟩ ⟨hc0, hcmax⟩
  have hread : t.v[rd].read s.x[xi].toNat = some s.x[xv] := by
    rw [htv]
    exact Buffer.read_setResizeReserve _ _ (by omega) (by omega)
  have hsize : t.v[rd].size = s.x[xn].toNat := by
    rw [htv, Buffer.setResizeReserve, Buffer.size_reserve, Buffer.size_resize]
  have hcap : t.v[rd].size ≤ t.v[rd].cap := (htwf rd).1
  have hu : runProgram [.vshrink rd] t = (t.writeV rd t.v[rd].shrink).retire :=
    runProgram_writeV (exec_vshrink rd t) htrun []
  dsimp only
  rw [ht, ht, hu, runProgram_nil]
  simp only [State.retire_run, State.retire_v, State.writeV_run, State.writeV_get_same]
  exact ⟨htrun, hread, by omega, by omega, htwf, htrun, hread, rfl, rfl, htbuild ▸ t.shrink_wf rd (htbuild ▸ htwf)⟩

end Machine

end Sys2Proof

/-! Faults and the ports: which action the CORE takes up, the acknowledge, the reset signal, the reset state, and the
codes of the causes (rules R371 to R376, R410 to R412). -/

namespace Sys2Proof.Machine

/-! ### The first action that is let through -/

section

variable {p : HostAction → Bool} {front back : List HostAction} {a : HostAction}

theorem takeFirst_append (hfront : ∀ b ∈ front, p b = false) (ha : p a = true) :
    takeFirst p (front ++ a :: back) = some (a, front ++ back) := by
  induction front with
  | nil => exact if_pos ha
  | cons b front ih =>
    obtain ⟨hb, hfront⟩ := List.forall_mem_cons.mp hfront
    rw [List.cons_append, takeFirst, if_neg (by simp [hb]), ih hfront]
    rfl

theorem takeFirst_eq_none (h : ∀ b ∈ back, p b = false) : takeFirst p back = none := by
  induction back with
  | nil => rfl
  | cons b back ih =>
    obtain ⟨hb, hback⟩ := List.forall_mem_cons.mp h
    rw [takeFirst, if_neg (by simp [hb]), ih hback]

/-- The actions in front of the one taken, and those behind it, stay in their order. -/
theorem exists_append_of_takeFirst {l rest : List HostAction} (h : takeFirst p l = some (a, rest)) :
    ∃ front back, l = front ++ a :: back ∧ rest = front ++ back ∧ p a = true ∧ ∀ b ∈ front, p b = false := by
  cases hfind : l.find? p with
  | none =>
    rw [takeFirst_eq_none (by simpa using hfind)] at h
    cases h
  | some b =>
    obtain ⟨hb, front, back, rfl, hfront⟩ := List.find?_eq_some_iff_append.mp hfind
    have hfront : ∀ c ∈ front, p c = false := by simpa using hfront
    rw [takeFirst_append hfront hb] at h
    cases h
    exact ⟨front, back, rfl, rfl, hb, hfront⟩

end

/-- While FAULTED the CORE takes up everything but commands (rule R375). -/
theorem HostAction.takenWhileFaulted_eq (a : HostAction) : a.takenWhileFaulted = !a.isCommand := by
  cases a <;> rfl

/-! ### What a faulted CORE takes up -/

section

variable {s : State} {cmds rest : List HostAction} {a : HostAction}

theorem nextAction_of_faulted (hrun : s.run = .faulted) (hcmds : ∀ c ∈ cmds, c.isCommand = true)
    (ha : a.isCommand = false) (hhost : s.host = cmds ++ a :: rest) :
    s.nextAction = some (a, { s with host := cmds ++ rest }) := by
  rw [State.nextAction, hrun, hhost]
  dsimp only
  rw [takeFirst_append (by simpa [HostAction.takenWhileFaulted_eq] using hcmds)
    (by simp [HostAction.takenWhileFaulted_eq, ha])]

/-- With nothing but commands pending a faulted CORE waits (rule R375). -/
theorem step_of_commands (hrun : s.run = .faulted) (h : ∀ c ∈ s.host, c.isCommand = true) : step s = .next s := by
  have hnone : s.nextAction = none := by
    rw [State.nextAction, hrun]
    dsimp only
    rw [takeFirst_eq_none (by simpa [HostAction.takenWhileFaulted_eq] using h)]
  rw [step, hnone]

theorem exists_of_nextAction_faulted (hrun : s.run = .faulted) {u : State} (h : s.nextAction = some (a, u)) :
    ∃ cmds rest, (∀ c ∈ cmds, c.isCommand = true) ∧ a.isCommand = false ∧ s.host = cmds ++ a :: rest ∧
      u = { s with host := cmds ++ rest } := by
  rw [State.nextAction] at h
  split at h
  case h_2 => cases h
  case h_1 htaken =>
    cases h
    rw [hrun] at htaken
    obtain ⟨cmds, rest, hhost, rfl, ha, hcmds⟩ := exists_append_of_takeFirst htaken
    simp only [HostAction.takenWhileFaulted_eq, Bool.not_eq_true', Bool.not_eq_false'] at ha hcmds
    exact ⟨cmds, rest, hcmds, ha, hhost, rfl⟩

end

/-! ### What a host access leaves alone -/

theorem State.acknowledge_ports (s : State) : s.acknowledge.host = s.host ∧ s.acknowledge.cseq = s.cseq := by
  unfold State.acknowledge
  split <;> exact ⟨rfl, rfl⟩

theorem writeMapped_ports (s : State) (n : Nat) (d : Word) :
    (writeMapped s n d).host = s.host ∧ (writeMapped s n d).cseq = s.cseq := by
  rw [writeMapped]
  generalize 0x10000000 = b1, 0x20000000 = b2, 0x30000000 = b3, 0x01000000 = b4
  dsimp only
  split_ifs
  any_goals exact ⟨rfl, rfl⟩
  exact s.acknowledge_ports

/-- A host access leaves the pending actions and the count of retired commands alone (rules R36, R72). -/
theorem hostRead_ports (s : State) (a : BitVec 32) : (hostRead s a).host = s.host ∧ (hostRead s a).cseq = s.cseq := by
  unfold hostRead
  split <;> exact ⟨rfl, rfl⟩

theorem hostWrite_ports (s : State) (a : BitVec 32) (d : Word) :
    (hostWrite s a d).host = s.host ∧ (hostWrite s a d).cseq = s.cseq := by
  unfold hostWrite
  split
  · exact writeMapped_ports s a.toNat d
  · exact ⟨rfl, rfl⟩

/-- Taking an action that is no command out of the list leaves the commands of the list. -/
theorem filter_isCommand_append {a : HostAction} (ha : a.isCommand = false) (cmds rest : List HostAction) :
    (cmds ++ rest).filter HostAction.isCommand = (cmds ++ a :: rest).filter HostAction.isCommand := by
  simp [ha]

/-- Settles O7: a faulted CORE takes up the first action behind the pending commands, and only a reset among these
changes the count. -/
theorem faultedCoreHoldsCommands : Obligations.FaultedCoreHoldsCommands := by
  intro s hrun
  refine ⟨fun t ht => ?_, step_of_commands hrun, fun cmds rest a d hcmds => ⟨fun hhost => ?_, fun hhost => ?_⟩⟩
  · obtain ⟨-, rfl⟩ | ⟨c, u, hu, -⟩ | ⟨a, u, hu, rfl⟩ | ⟨a, d, u, hu, rfl⟩ | ⟨u, hu, rfl⟩ := step_cases s t ht
    case inl => exact ⟨rfl, .inl rfl⟩
    all_goals obtain ⟨cmds, rest, hcmds, ha, hhost, rfl⟩ := exists_of_nextAction_faulted hrun hu
    · cases ha
    · obtain ⟨hports, hcseq⟩ := hostRead_ports { s with host := cmds ++ rest } a
      rw [hports, hhost]
      exact ⟨filter_isCommand_append ha cmds rest, .inl hcseq⟩
    · obtain ⟨hports, hcseq⟩ := hostWrite_ports { s with host := cmds ++ rest } a d
      rw [hports, hhost]
      exact ⟨filter_isCommand_append ha cmds rest, .inl hcseq⟩
    · exact ⟨hhost ▸ filter_isCommand_append ha cmds rest, .inr ⟨cmds, rest, hcmds, hhost, rfl⟩⟩
  · rw [step, nextAction_of_faulted hrun hcmds rfl hhost]
  · rw [step, nextAction_of_faulted hrun hcmds rfl hhost]

/-! ### Words outside the table -/

theorem runCommand_of_decode_error {c : CmdWord} {e : Illegal} (h : decode c = .error e) (s : State) :
    runCommand c s = .next (s.raise c ⟨.illegalCommand, 0⟩) := by
  rw [runCommand, h]

/-- Settles O6: a word that decodes is covered by a row. -/
theorem stepRejectsWordsOutsideTheTable : Obligations.StepRejectsWordsOutsideTheTable := by
  intro s c rest hrun hhost hout
  obtain ⟨-, -, -, hcovered⟩ := opcodeTableDecoding
  rw [step_command hrun hhost]
  cases hc : decode c with
  | ok i =>
    obtain ⟨row, hrow, hcovers⟩ := (hcovered c).mp ⟨i, hc⟩
    exact absurd hcovers (by simp [hout row hrow])
  | error e => exact runCommand_of_decode_error hc _

/-! ### The acknowledge and the reset signal -/

/-- A write to the number of `FCAUSE` is the acknowledge (rules R75, R374). -/
theorem hostWrite_fcause (s : State) (d : Word) : hostWrite s 0x00000011 d = { s.acknowledge with answer := .done } :=
  hostWrite_of_isSome d rfl

/-- Settles O8: the number of `FCAUSE` is mapped, and a write to it is the acknowledge. -/
theorem acknowledgeReturnsFromFault : Obligations.AcknowledgeReturnsFromFault := by
  intro s d rest hhost
  refine ⟨fun hrun => ?_, fun hrun => ?_⟩
  · rw [step_write (by simp [hrun]) hhost, hostWrite_fcause, State.acknowledge_of_faulted { s with host := rest } hrun]
  · rw [step_write (by simp [hrun]) hhost, hostWrite_fcause, 
      State.acknowledge_of_not_faulted { s with host := rest } (by simp [hrun])]

/-- The reset signal is taken up in every run state (rules R71, R410). -/
theorem nextAction_of_rst {s : State} {rest : List HostAction} (hhost : s.host = .rst :: rest) :
    s.nextAction = some (.rst, { s with host := rest }) := by
  rw [State.nextAction, hhost]
  cases s.run <;> rfl

/-- Settles O9: the signal is the next action. -/
theorem resetSignalRestoresResetState : Obligations.ResetSignalRestoresResetState := by
  intro s rest hhost
  rw [step, nextAction_of_rst hhost]
  rfl

/-- Settles O18: in a good state the record of a faulted CORE holds the code of a cause, and no code is 0. -/
theorem faultCodes : Obligations.FaultCodes := by
  have hbounds : ∀ cause : FaultCause, 1 ≤ cause.code.toNat ∧ cause.code.toNat ≤ 12 := by
    intro cause
    cases cause <;> decide
  refine ⟨rfl, rfl, rfl, rfl, rfl, rfl, rfl, rfl, rfl, rfl, rfl, rfl, hbounds, fun s hs => ?_⟩
  have hrecord := hs.faultRecord
  unfold State.FaultRecordOk at hrecord
  split at hrecord
  case isTrue hrun =>
    obtain ⟨⟨cause, hcause⟩, -⟩ := hrecord
    obtain ⟨hlow, hhigh⟩ := hbounds cause
    rw [hcause]
    refine ⟨hhigh, fun hzero => ?_, fun hne => absurd hrun hne⟩
    rw [hzero] at hlow
    exact absurd hlow (by decide)
  case isFalse hrun =>
    obtain ⟨hcause, -, -⟩ := hrecord
    rw [hcause]
    exact ⟨by decide, fun _ => hrun, fun _ => rfl⟩

/-! ### Every step has a next state -/

theorem runCommand_next (c : CmdWord) (s : State) : ∃ t, runCommand c s = .next t := by
  cases hc : decode c with
  | ok i =>
    rw [runCommand, hc]
    exact exec_next i s
  | error e => exact ⟨_, runCommand_of_decode_error hc s⟩

theorem step_next (s : State) : ∃ t, step s = .next t := by
  unfold step
  split
  case h_2 c t _ => exact runCommand_next c t
  all_goals exact ⟨_, rfl⟩

theorem run_succ {M : Host.Core} {s t : M.State} (h : M.step s = .next t) (k : Nat) :
    M.run (k + 1) s = M.run k t := by
  rw [Host.Core.run, h]

/-- Settles O16: a step has a next state, so a run has one of each length. -/
theorem everyRunGoesOn : Obligations.EveryRunGoesOn := by
  intro s k
  induction k generalizing s with
  | zero => exact ⟨s, rfl⟩
  | succ k ih =>
    obtain ⟨t, ht⟩ := step_next s
    rw [run_succ (M := core) ht]
    exact ih t

/-! ### The reset state -/

theorem State.x_resetOf (b : Build) {n : Nat} (h : n < 16) : (State.resetOf b).x[n] = 0 := Vector.getElem_replicate h

theorem State.w_resetOf (b : Build) {n : Nat} (h : n < 4) : (State.resetOf b).w[n] = 0 := Vector.getElem_replicate h

theorem State.v_resetOf (b : Build) {n : Nat} (h : n < 8) : (State.resetOf b).v[n] = ⟨[], 0⟩ :=
  Vector.getElem_replicate h

theorem limb_zero (l : Nat) : limb 0 l = 0 := BitVec.extractLsb'_zero

section

variable {b : Build} {n : Nat} {d : Word}

/-- In region 0 only the two identification registers are not 0 (rules R48, R411). -/
theorem eq_zero_of_readScalars_resetOf (h16 : n ≠ 0x16) (h17 : n ≠ 0x17)
    (h : readScalars (State.resetOf b) n = some d) : d = 0 := by
  rw [readScalars] at h
  split_ifs at h
  · rw [State.x_resetOf] at h
    exact (Option.some.inj h).symm
  · rw [State.v_resetOf] at h
    exact (Option.some.inj h).symm
  · rw [State.v_resetOf] at h
    exact (Option.some.inj h).symm
  · split at h
    case h_7 => exact absurd rfl h16
    case h_8 => exact absurd rfl h17
    all_goals cases h
    all_goals rfl

theorem eq_zero_of_readWideLimb_resetOf (h : readWideLimb (State.resetOf b) n = some d) : d = 0 := by
  rw [readWideLimb] at h
  split_ifs at h
  rw [State.w_resetOf, limb_zero] at h
  exact (Option.some.inj h).symm

theorem readElement_resetOf (b : Build) (n : Nat) : readElement (State.resetOf b) n = none := by
  rw [readElement]
  split
  · rw [State.v_resetOf]
    rfl
  · rfl

theorem eq_zero_of_readBigM_resetOf (h : readBigM (State.resetOf b) n = some d) : d = 0 :=
  have ⟨_, hread⟩ := Option.ite_none_right_eq_some.mp h
  (Option.some.inj hread).symm

theorem readCofactor_resetOf (b : Build) (n : Nat) : readCofactor (State.resetOf b) n = none := by
  rw [readCofactor]
  split <;> rfl

/-- After reset every number but those of the two identification registers reads 0, or nothing (rules R48, R411). -/
theorem eq_zero_of_readWord_resetOf {a : BitVec 32} (h16 : a ≠ 0x00000016) (h17 : a ≠ 0x00000017)
    (h : readWord (State.resetOf b) a = some d) : d = 0 := by
  simp only [readWord] at h
  split_ifs at h
  · exact eq_zero_of_readScalars_resetOf (by bv_omega) (by bv_omega) h
  · exact eq_zero_of_readWideLimb_resetOf h
  · rw [readElement_resetOf] at h
    cases h
  · cases h
  · cases h
  · cases h
  · cases h
  · exact eq_zero_of_readBigM_resetOf h
  · rw [readCofactor_resetOf] at h
    cases h

end

/-- Settles O10: the fields are those of `State.resetOf`, and the default build's identification register is computed. -/
theorem resetStateValues : Obligations.ResetStateValues := by
  refine ⟨?_, ?_⟩
  · rintro b s rfl
    refine ⟨fun r => ?_, fun r => ?_, fun r => ⟨?_, ?_⟩, rfl, rfl, rfl, rfl, rfl, rfl, rfl, rfl, rfl, rfl,
      fun a d => eq_zero_of_readWord_resetOf⟩
    · exact State.x_resetOf b r.isLt
    · exact State.w_resetOf b r.isLt
    · exact congrArg Buffer.size (State.v_resetOf b r.isLt)
    · exact congrArg Buffer.cap (State.v_resetOf b r.isLt)
  · rfl

end Sys2Proof.Machine

/-! Programs: a program ends at its last command or at its first faulting one, and the steps of a presented program give
the state of its end (rules R375, R430). No command looks at what the host has pending, so it does the same while the
rest of the program waits in the list as it does alone. -/

namespace Sys2Proof.Machine

/-! ### No command looks at the pending actions -/

/-- A meaning, as a function of the pending actions, does not look at them and leaves them alone. -/
def HostFree (g : List HostAction → Except Exn State) : Prop :=
  ∀ l m, g m = (g l).map fun t => { t with host := m }

namespace HostFree

theorem ok {g : List HostAction → State} (h : ∀ l m, g m = { g l with host := m } := by intros; rfl) :
    HostFree fun l => .ok (g l) :=
  fun l m => congrArg Except.ok (h l m)

/-- A part in front of a write that does not look at the pending actions. -/
theorem bind {α : Type} {m : List HostAction → Except Exn α} {f : List HostAction → α → Except Exn State}
    (h : ∀ a, HostFree fun l => f l a) (hm : ∀ k l, m k = m l := by intros; rfl) :
    HostFree fun l => m l >>= f l := by
  intro k l
  dsimp only
  rw [hm l k]
  cases m k with
  | ok a => exact h a k l
  | error e => rfl

variable (s : State)

theorem vecAssign (r : VReg) {x : List HostAction → List Int} (hx : ∀ k l, x k = x l := by intros; rfl) :
    HostFree fun l => vecAssign { s with host := l } r (x l) := by
  rw [show x = fun _ => x [] from funext fun l => hx l []]
  exact .bind fun _ => .ok

theorem storeWide (r : WReg) {n : List HostAction → Int} (hn : ∀ k l, n k = n l := by intros; rfl) :
    HostFree fun l => storeWide { s with host := l } r (n l) := by
  rw [show n = fun _ => n [] from funext fun l => hn l []]
  exact .bind fun _ => .ok

theorem storeDraw (r : VReg) {x : List HostAction → List Int} (hx : ∀ k l, x k = x l := by intros; rfl) :
    HostFree fun l => storeDraw { s with host := l } r (x l) := by
  intro k l
  have hassign := vecAssign s r hx k l
  dsimp only [Machine.storeDraw] at hassign ⊢
  rw [hassign]
  cases Machine.vecAssign { s with host := k } r (x k) <;> rfl

end HostFree

/-- Every meaning is the end of a command that does not look at the pending actions. -/
theorem exec_hostFree (i : Instr) (s : State) :
    ∃ g, (∀ l, exec i { s with host := l } = finish i { s with host := l } (g l)) ∧ HostFree g := by
  cases i with
  | nop | li | lsi | mov | wmov | wsetx | ntIsprime | polyEq | vsize | vcap | vempty | vshrink =>
    exact ⟨_, fun _ => rfl, .ok⟩
  | wgetx | zpAdd | zpSub | zpMul | vat | vset | crtMod | galInit => exact ⟨_, fun _ => rfl, .bind fun _ => .ok⟩
  | galElt | galIdx | vresize | vreserve | zpInit => exact ⟨_, fun _ => rfl, .bind fun _ => .bind fun _ => .ok⟩
  | zpExp | zpInv | zpGen => exact ⟨_, fun _ => rfl, .bind fun _ => .bind fun _ => .bind fun _ => .ok⟩
  | zpRoot | crtInit => exact ⟨_, fun _ => rfl, .bind fun _ => .bind fun _ => .bind fun _ => .bind fun _ => .ok⟩
  | nttInit =>
    exact ⟨_, fun _ => rfl, .bind fun _ => .bind fun _ => .bind fun _ => .bind fun _ => .bind fun _ => .ok⟩
  | ntModinv | ntModexp | ntRoot | ntFindgen => exact ⟨_, fun _ => rfl, .bind fun _ => .storeWide s _⟩
  | crtDec => exact ⟨_, fun _ => rfl, .bind fun _ => .bind fun _ => .storeWide s _⟩
  | vmov => exact ⟨_, fun _ => rfl, .vecAssign s _⟩
  | crtEnc | crtPrimes | galAll | polyAdd | polySub | polyMul =>
    exact ⟨_, fun _ => rfl, .bind fun _ => .vecAssign s _⟩
  | nttRaw | nttFwd | nttInv | galElts => exact ⟨_, fun _ => rfl, .bind fun _ => .bind fun _ => .vecAssign s _⟩
  | nttPmul | polyMuln =>
    exact ⟨_, fun _ => rfl, .bind fun _ => .bind fun _ => .bind fun _ => .vecAssign s _⟩
  | polyMulc =>
    exact ⟨_, fun _ => rfl, .bind fun _ => .bind fun _ => .bind fun _ => .bind fun _ => .vecAssign s _⟩
  | rndTri => exact ⟨_, fun _ => rfl, .bind fun _ => .bind fun _ => .storeDraw s _⟩
  | rndHwt => exact ⟨_, fun _ => rfl, .bind fun _ => .bind fun _ => .bind fun _ => .storeDraw s _⟩
  | rndUni =>
    exact ⟨_, fun _ => rfl, .bind fun _ => .bind fun _ => .bind fun _ => .bind fun _ => .storeDraw s _⟩

/-- A command does the same whatever the host has pending, and leaves it pending (rule R430). -/
theorem exec_withHost {i : Instr} {s t : State} (h : exec i s = .next t) (l : List HostAction) :
    exec i { s with host := l } = .next { t with host := l } := by
  obtain ⟨g, hg, hfree⟩ := exec_hostFree i s
  rw [hg l, hfree s.host l]
  obtain ⟨u, hu, rfl⟩ | ⟨e, he, rfl⟩ := finish_cases i s t _ ((hg s.host).symm.trans h)
  · rw [hu]
    rfl
  · rw [he]
    rfl

/-! ### How a program ends -/

/-- From IDLE a command retires and leaves the CORE IDLE, or is rejected (rules R36, R370). -/
theorem exec_of_idle (i : Instr) {s : State} (hrun : s.run = .idle) :
    (∃ t, exec i s = .next t ∧ t.run = .idle ∧ t.cseq = s.cseq + 1 ∧ t.host = s.host) ∨
      ∃ cause info, exec i s = .next (s.rejected i cause info) := by
  obtain ⟨t, ht, hcseq, htrun, -, -, -, hhost, -⟩ | hrej := commandRetiresOrIsRejectedWhole i s
  · exact .inl ⟨t, ht, htrun.trans hrun, hcseq, hhost⟩
  · exact .inr hrej

theorem runProgram_cons_of_idle {i : Instr} {s t : State} (h : exec i s = .next t) (hrun : t.run = .idle)
    (rest : List Instr) : runProgram (i :: rest) s = runProgram rest t :=
  runProgram_cons h (by simp [hrun]) rest

theorem runProgram_cons_of_faulted {i : Instr} {s t : State} (h : exec i s = .next t) (hrun : t.run = .faulted)
    (rest : List Instr) : runProgram (i :: rest) s = t := by
  rw [runProgram, h]
  exact if_pos hrun

/-- One command more has retired than the `n` behind it. -/
theorem cseq_succ (c : Word) (n : Nat) : c + 1 + .ofNat 64 n = c + .ofNat 64 (n + 1) := by
  rw [add_assoc, add_comm 1, BitVec.ofNat_add]
  rfl

/-- Settles O23, by induction over the commands: the first one retires, or it is the faulting one. -/
theorem programEndsAtLastOrFaultingCommand : Obligations.ProgramEndsAtLastOrFaultingCommand := by
  intro p s hrun
  induction p generalizing s with
  | nil => exact .inl ⟨hrun, (BitVec.add_zero _).symm⟩
  | cons i p ih =>
    obtain ⟨t, ht, htrun, hcseq, -⟩ | ⟨cause, info, hrej⟩ := exec_of_idle i hrun
    · have hcons := runProgram_cons_of_idle ht htrun
      obtain ⟨hend, hcount⟩ | ⟨done, rest, j, cause, info, rfl, hdone, hcount, hrej, hend⟩ := ih t htrun
      · rw [hcons]
        exact .inl ⟨hend, by rw [hcount, hcseq, cseq_succ, List.length_cons]⟩
      · refine .inr ⟨i :: done, rest, j, cause, info, rfl, ?_⟩
        rw [hcons, hcons]
        exact ⟨hdone, by rw [hcount, hcseq, cseq_succ, List.length_cons], hrej, hend⟩
    · exact .inr ⟨[], p, i, cause, info, rfl, hrun, (BitVec.add_zero _).symm, hrej,
        runProgram_cons_of_faulted hrej rfl p⟩

/-! ### The steps of a presented program -/

/-- What the host presents for a program, one word for each command (rule R430). -/
abbrev commandWords (p : List Instr) : List HostAction := p.map fun i => .command (encode i)

theorem run_of_commands {s : State} (hrun : s.run = .faulted) (h : ∀ c ∈ s.host, c.isCommand = true) (k : Nat) :
    core.run k s = .next s := by
  induction k with
  | zero => rfl
  | succ k ih => rw [run_succ (M := core) (step_of_commands hrun h), ih]

theorem isCommand_of_mem_commandWords {p : List Instr} : ∀ c ∈ commandWords p, c.isCommand = true := by
  simp [commandWords, HostAction.isCommand]

theorem step_commandWords {i : Instr} {p : List Instr} {s : State} (hrun : s.run = .idle)
    (hhost : s.host = commandWords (i :: p)) : step s = exec i { s with host := commandWords p } :=
  stepRunsDecodedCommand s (encode i) (commandWords p) i hrun hhost (decodeOfEncodedCommand i)

/-- Settles O24, by induction over the commands: a step takes up the first one; behind a faulting one the CORE waits. -/
theorem programRunsStepByStep : Obligations.ProgramRunsStepByStep := by
  intro p s hrun hhost
  induction p generalizing s with
  | nil =>
    exact ⟨s, 0, rfl, rfl, hrun, (BitVec.add_zero _).symm, .inl ⟨hrun, rfl, hhost⟩⟩
  | cons i p ih =>
    have hstep := step_commandWords hrun hhost
    obtain ⟨u, hu, hurun, hcseq, huhost⟩ | ⟨cause, info, hrej⟩ :=
      exec_of_idle i (s := { s with host := commandWords p }) hrun
    · have hcons := runProgram_cons_of_idle (exec_withHost hu []) hurun
      obtain ⟨t, retired, ht, hend, hdone, hcount, hcase⟩ := ih u hurun huhost
      refine ⟨t, retired + 1, ?_, ?_, ?_, ?_, ?_⟩
      · rw [List.length_cons, run_succ (M := core) (hstep.trans hu), ht]
      · exact hend.trans (hcons p).symm
      · exact (congrArg State.run (hcons _)).trans hdone
      · rw [hcount, hcseq, cseq_succ]
      · obtain ⟨htrun, hall, hempty⟩ | ⟨htrun, hlt, hfault, hpending⟩ := hcase
        · exact .inl ⟨htrun, congrArg (· + 1) hall, hempty⟩
        · exact .inr ⟨htrun, Nat.succ_lt_succ hlt, (congrArg State.run (hcons _)).trans hfault, hpending⟩
    · have hcons := runProgram_cons_of_faulted (exec_withHost hrej []) rfl
      refine ⟨_, 0, ?_, (hcons p).symm, hrun, (BitVec.add_zero _).symm,
        .inr ⟨rfl, Nat.succ_pos _, congrArg State.run (hcons []), rfl⟩⟩
      rw [List.length_cons, run_succ (M := core) (hstep.trans hrej)]
      exact run_of_commands rfl isCommand_of_mem_commandWords _

end Sys2Proof.Machine

/-! The causes a command raises and their information words (rules R371 to R388): each check of a command fails with a
cause of its list and the word that rule R373 gives it, and in a good state what stands behind the checks succeeds. -/

namespace Sys2Proof.Machine

/-! ### Faults that the rules list -/

/-- The information word that rule R373 gives a cause. -/
def InformationWord (i : Instr) (s : State) (info : Word) : FaultCause → Prop
  | .noContext => ∃ k, i.neededSlot = some k ∧ s.slotValid k = false ∧ info.toNat = k.val
  | .badParameter => ¬ s.ParameterOk i info.toNat ∧ ∀ k < info.toNat, s.ParameterOk i k
  | .noPrimeFound => ∃ (ra rb rc : XReg) (found : List Int), i = .crtInit ra rb rc ∧
      found.Pairwise (· < ·) ∧ (∀ q, CrtPrime (s.xInt rb) (s.xInt rc) q ↔ q ∈ found) ∧
      (found.length : Int) < s.xInt ra ∧ info.toNat = found.length
  | .lengthMismatch => ∃ e, (s.sizeChecks i).find? (fun e => s.v[e.1].size ≠ e.2) = some e ∧
      info.toNat = s.v[e.1].size
  | .indexOutOfRange => ∃ r, i.indexOperand = some r ∧ info = s.x[r]
  | .capacityExceeded => ∃ n, s.requestedCount i = some n ∧ s.build.vcapMax < n ∧ (info.toNat : Int) = n
  | _ => info = 0

/-- The one cause outside a command's list: the prime list of the slot does not fit a buffer (log entry 17). -/
def PrimesDoNotFit (i : Instr) (s : State) (cause : FaultCause) : Prop :=
  cause = .capacityExceeded ∧ s.build.vcapMax < s.crtSize ∧ ∃ rd, i = .crtPrimes rd ∨ ∃ ra, i = .crtEnc rd ra

/-- A fault that the rules give the command, with the word they give the fault. -/
structure ListedFault (i : Instr) (s : State) (e : Exn) : Prop where
  cause : e.cause ∈ i.causes ∨ PrimesDoNotFit i s e.cause
  info : InformationWord i s e.info e.cause

/-- The causes whose information word is 0 (rule R373). -/
abbrev plainCauses : List FaultCause := [.modulusNotPrime, .noRoot, .notInvertible, .wideOverflow, .badOperand]

theorem ListedFault.plain {i : Instr} {s : State} {cause : FaultCause} (hmem : cause ∈ i.causes)
    (hplain : cause ∈ plainCauses) : ListedFault i s ⟨cause, 0⟩ where
  cause := .inl hmem
  info := by
    simp only [plainCauses, List.mem_cons, List.not_mem_nil, or_false] at hplain
    obtain rfl | rfl | rfl | rfl | rfl := hplain <;> rfl

/-- A command ends as the rules list: its writes do not touch the count of retired commands, or it fails with a fault
they give it. -/
structure EndsAsListed (i : Instr) (s : State) (r : Except Exn State) : Prop where
  keepsCount : ∀ u, r = .ok u → u.cseq = s.cseq
  listed : ∀ e, r = .error e → ListedFault i s e

theorem toNat_u64_natCast {n : Nat} (h : n < 2 ^ 64) : (u64 n).toNat = n := by
  rw [u64, BitVec.ofInt_natCast, BitVec.toNat_ofNat, Nat.mod_eq_of_lt h]

theorem State.Inv.size_le {s : State} (hs : s.Inv) (r : VReg) : s.v[r].size ≤ s.build.vcapMax :=
  (hs.memory r).1.trans (hs.memory r).2

theorem State.Inv.size_lt {s : State} (hs : s.Inv) (r : VReg) : s.v[r].size < 2 ^ 64 := by
  have hsize := hs.size_le r
  have hmax := s.build.vcapMax_le
  omega

/-! ### The parts of a meaning -/

namespace EndsAsListed

variable {i : Instr} {s : State}

theorem ok {u : State} (h : u.cseq = s.cseq := by rfl) : EndsAsListed i s (.ok u) where
  keepsCount := by
    rintro _ ⟨⟩
    exact h
  listed := by rintro _ ⟨⟩

theorem error {e : Exn} (h : ListedFault i s e) : EndsAsListed i s (.error e) where
  keepsCount := by rintro _ ⟨⟩
  listed := by
    rintro _ ⟨⟩
    exact h

/-- A part that succeeds, with what comes behind it. -/
theorem ofOk {α : Type} {m : Except Exn α} {f : α → Except Exn State} {a : α} (hm : m = .ok a)
    (h : EndsAsListed i s (f a)) : EndsAsListed i s (m >>= f) := by
  rw [hm]
  exact h

theorem require {c : Prop} [Decidable c] {cause : FaultCause} {info : Word} {f : Unit → Except Exn State}
    (hbad : ¬ c → ListedFault i s ⟨cause, info⟩) (h : c → EndsAsListed i s (f ())) :
    EndsAsListed i s (Machine.require c cause info >>= f) := by
  by_cases hc : c
  · exact ofOk (require_of_pos hc cause info) (h hc)
  · rw [require_of_neg hc]
    exact error (hbad hc)

/-- A check whose cause has no information. -/
theorem check {c : Prop} [Decidable c] {cause : FaultCause} {f : Unit → Except Exn State}
    (h : c → EndsAsListed i s (f ())) (hmem : cause ∈ i.causes := by simp [Instr.causes])
    (hplain : cause ∈ plainCauses := by simp) : EndsAsListed i s (Machine.require c cause >>= f) :=
  require (fun _ => .plain hmem hplain) h

theorem needSlot {α : Type} {slot : Option α} {index : Word} {f : α → Except Exn State} (k : Fin 4)
    (h : ∀ c, slot = some c → EndsAsListed i s (f c)) (hslot : slot.isSome = s.slotValid k := by rfl)
    (hneed : i.neededSlot = some k := by rfl) (hindex : index.toNat = k.val := by rfl)
    (hmem : .noContext ∈ i.causes := by simp [Instr.causes]) :
    EndsAsListed i s (Machine.needSlot slot index >>= f) := by
  cases slot with
  | none => exact error ⟨.inl hmem, k, hneed, hslot.symm, hindex⟩
  | some c => exact h c rfl

/-- A check of an INIT's parameter, which the ones in front of it have left to decide (rule R378). -/
theorem parameter {c : Prop} [Decidable c] {info : Word} {f : Unit → Except Exn State} (k : Nat)
    (hiff : c ↔ s.ParameterOk i k) (hearlier : ∀ j < k, s.ParameterOk i j) (h : c → EndsAsListed i s (f ()))
    (hinfo : info.toNat = k := by rfl) (hmem : .badParameter ∈ i.causes := by simp [Instr.causes]) :
    EndsAsListed i s (Machine.require c .badParameter info >>= f) := by
  subst hinfo
  exact require (fun hc => ⟨.inl hmem, mt hiff.mpr hc, hearlier⟩) h

/-- A size check fails at the first entry of the list that is wrong (rule R383). -/
theorem size (hs : s.Inv) {c : Prop} [Decidable c] {r : VReg} {n : Nat} {f : Unit → Except Exn State}
    (front rest : List (VReg × Nat)) (hchecks : s.sizeChecks i = front ++ (r, n) :: rest)
    (hfront : ∀ e ∈ front, s.v[e.1].size = e.2) (hiff : c ↔ s.v[r].size = n) (h : c → EndsAsListed i s (f ()))
    (hmem : .lengthMismatch ∈ i.causes := by simp [Instr.causes]) :
    EndsAsListed i s (Machine.require c .lengthMismatch (u64 s.v[r].size) >>= f) := by
  refine require (fun hc => ⟨.inl hmem, (r, n), ?_, toNat_u64_natCast (hs.size_lt r)⟩) h
  rw [hchecks, List.find?_append, List.find?_eq_none.mpr (by simpa using hfront), Option.none_or]
  exact List.find?_cons_of_pos (by simpa using mt hiff.mpr hc)

/-- The modulus check of rule R291 behind the size check. -/
theorem polyModulus (hs : s.Inv) {ra rb : VReg} {rc : XReg} {f : Int → Except Exn State}
    (h : ∀ m, EndsAsListed i s (f m)) (hchecks : s.sizeChecks i = [(rb, s.v[ra].size)] := by rfl)
    (hsize : .lengthMismatch ∈ i.causes := by simp [Instr.causes])
    (hoperand : .badOperand ∈ i.causes := by simp [Instr.causes]) :
    EndsAsListed i s (Machine.polyModulus s ra rb rc >>= f) := by
  simp only [Machine.polyModulus, bind_assoc, pure_bind]
  exact size hs [] [] hchecks nofun eq_comm (fun _ => check (fun _ => h _) hoperand) hsize

/-- A check that the count in a register fits a buffer (rules R31, R386). -/
theorem room {r : XReg} {f : Unit → Except Exn State} (h0 : 0 ≤ s.xInt r)
    (h : s.xInt r ≤ s.build.vcapMax → EndsAsListed i s (f ()))
    (hcount : s.requestedCount i = some (s.xInt r) := by rfl)
    (hmem : .capacityExceeded ∈ i.causes := by simp [Instr.causes]) :
    EndsAsListed i s (Machine.require (s.xInt r ≤ s.build.vcapMax) .capacityExceeded (u64 (s.xInt r)) >>= f) :=
  require (fun hc => ⟨.inl hmem, _, hcount, not_le.mp hc, by rw [u64_xInt, ← State.toNat_xInt h0]; omega⟩) h

theorem boundedIndex {r : XReg} {b : Buffer} {f : Nat → Except Exn State} (h : ∀ k, EndsAsListed i s (f k))
    (hoperand : i.indexOperand = some r := by rfl) (hmem : .indexOutOfRange ∈ i.causes := by simp [Instr.causes]) :
    EndsAsListed i s (Machine.boundedIndex b s.x[r] >>= f) := by
  simp only [Machine.boundedIndex, bind_assoc, pure_bind]
  exact require (fun _ => ⟨.inl hmem, r, hoperand, rfl⟩) fun _ => h _

theorem vecAssign {l : List Int} (hl : l.length ≤ s.build.vcapMax) (r : VReg) :
    EndsAsListed i s (Machine.vecAssign s r l) := by
  rw [(vecAssign_eq_ok s _ r l).mpr ⟨hl, rfl⟩]
  exact ok

theorem storeDraw {l : List Int} (hl : l.length ≤ s.build.vcapMax) (r : VReg) :
    EndsAsListed i s (Machine.storeDraw s r l) :=
  ofOk ((vecAssign_eq_ok s _ r l).mpr ⟨hl, rfl⟩) ok

theorem storeWide {n : Int} (hn : fitsWide s.build n = true) (r : WReg) :
    EndsAsListed i s (Machine.storeWide s r n) := by
  rw [(storeWide_eq_ok s _ r n).mpr ⟨hn, rfl⟩]
  exact ok

end EndsAsListed

/-! ### The functions of NumberTheory -/

/-- The function answers a residue of `p`, or fails with one of these causes and no information. -/
def AnswersResidue (causes : List FaultCause) (p : Int) (m : Except Exn Int) : Prop :=
  (∃ t, m = .ok t ∧ 0 ≤ t ∧ t < p) ∨ ∃ k ∈ causes, m = .error ⟨k, 0⟩

theorem modInv_answersResidue (a m : Int) : AnswersResidue [.badOperand, .notInvertible] m (modInv a m) := by
  by_cases hm : 1 ≤ m
  · by_cases hg : Int.gcd a m = 1
    · obtain ⟨t, ht, h0, hlt, -⟩ := modInv_of_coprime a m hm hg
      exact .inl ⟨t, ht, h0, hlt⟩
    · exact .inr ⟨_, by simp, modInv_of_not_coprime a m hm hg⟩
  · exact .inr ⟨_, by simp, modInv_of_modulus_lt_one a m (by omega)⟩

theorem modExp_answersResidue (b e m : Int) : AnswersResidue [.badOperand] m (modExp b e m) := by
  by_cases hm : 1 ≤ m
  · by_cases he : 0 ≤ e
    · exact .inl ⟨_, modExp_eq b e m hm he, fmod_bounds _ m hm⟩
    · exact .inr ⟨_, by simp, modExp_of_exponent_neg b e m (by omega)⟩
  · exact .inr ⟨_, by simp, modExp_of_modulus_lt_one b e m (by omega)⟩

/-- A prime above 2 has a generator below it (rule R154). -/
theorem exists_findGenerator_lt {p : Int} (hp : p.toNat.Prime) (h2 : p ≠ 2) :
    ∃ g, findGenerator p = .ok g ∧ 0 ≤ g ∧ g < p := by
  obtain ⟨q, rfl⟩ : ∃ q : Nat, p = q := ⟨_, eq_toNat_of_prime hp⟩
  obtain ⟨g, hg, hlt, -⟩ := exists_findGenerator hp (by exact_mod_cast h2)
  exact ⟨g, hg, by omega, by omega⟩

/-- A prime above 2 has a root of every order that divides `p − 1` (rule R155). -/
theorem exists_rootOfUnity_lt {n p : Int} (hp : p.toNat.Prime) (h2 : p ≠ 2) (hn : 1 ≤ n) (hdvd : n ∣ p - 1) :
    ∃ r, rootOfUnity n p = .ok r ∧ 0 ≤ r ∧ r < p := by
  obtain ⟨q, rfl⟩ : ∃ q : Nat, p = q := ⟨_, eq_toNat_of_prime hp⟩
  obtain ⟨r, -, hr, hlt, -⟩ := exists_rootOfUnity hp (by exact_mod_cast h2) hn hdvd
  exact ⟨r, hr, by omega, by omega⟩

theorem findGenerator_answersResidue (p : Int) : AnswersResidue [.modulusNotPrime, .noRoot] p (findGenerator p) := by
  by_cases hp : p.toNat.Prime
  · obtain rfl | h2 := eq_or_ne p 2
    · exact .inr ⟨_, by simp, findGenerator_two⟩
    · exact .inl (exists_findGenerator_lt hp h2)
  · exact .inr ⟨_, by simp, findGenerator_of_not_prime p hp⟩

theorem rootOfUnity_answersResidue (n p : Int) :
    AnswersResidue [.modulusNotPrime, .noRoot] p (rootOfUnity n p) := by
  by_cases hp : p.toNat.Prime
  · obtain rfl | h2 := eq_or_ne p 2
    · exact .inr ⟨_, by simp, rootOfUnity_two n⟩
    · by_cases hn : 1 ≤ n ∧ fmod (p - 1) n = 0
      · exact .inl (exists_rootOfUnity_lt hp h2 hn.1 ((fmod_eq_zero_iff_dvd _ _).mp hn.2))
      · exact .inr ⟨_, by simp, rootOfUnity_of_bad_order n p hp hn⟩
  · exact .inr ⟨_, by simp, rootOfUnity_of_not_prime n hp⟩

/-- A command of the family: its function fails with a cause of its list, or its residue fits the wide register. -/
theorem EndsAsListed.storeResidue {i : Instr} {s : State} {causes : List FaultCause} {m : Except Exn Int} {r : WReg}
    (hm : AnswersResidue causes (s.wInt r) m) (rd : WReg) (hcauses : i.causes = causes := by rfl)
    (hplain : ∀ k ∈ causes, k ∈ plainCauses := by simp) : EndsAsListed i s (m >>= Machine.storeWide s rd) := by
  obtain ⟨t, rfl, h0, hlt⟩ | ⟨k, hk, rfl⟩ := hm
  · exact .storeWide (fitsWide_of_lt_wInt h0 hlt) rd
  · exact .error (.plain (hcauses ▸ hk) (hplain k hk))

/-! ### Lengths of what is written to buffers -/

theorem length_transform (p : Int) (table a : List Int) : (transform p table a).length = a.length := by
  simp [transform]

theorem length_pointwise_le (p : Int) (a b : List Int) : (pointwise p a b).length ≤ a.length := by
  simp [pointwise]

theorem length_nttForward_le (c : NttCtx) (a : List Int) : (nttForward c a).length ≤ a.length := by
  rw [nttForward, length_transform]
  exact length_pointwise_le _ _ _

theorem length_nttInverse_le (c : NttCtx) (y : List Int) : (nttInverse c y).length ≤ y.length := by
  simp [nttInverse, length_transform]

theorem length_negacyclic (a b : List Int) (m : Int) : (negacyclic a b m).length = a.length := by
  simp [negacyclic, negacyclicZ]

theorem length_crtProduct_limbs (c : CrtCtx) (a b : List Int) (l : Nat) :
    ((crtProduct c a b).flatMap fun z => limbsOf l z.toNat).length = a.length * l := by
  simp [crtProduct, limbsOf, List.length_flatMap, Function.comp_def]

theorem mapM_eltFromStep {n : Int} (hn : 2 ≤ n) (steps : List Int) :
    (steps.mapM fun step => eltFromStep step n) = .ok (steps.map (galoisElement n)) := by
  simp only [eltFromStep_eq hn]
  exact List.mapM_pure

/-! ### Behind the checks -/

/-- `NTT.INIT` builds a slot wherever its checks pass (rules R211, R214). -/
theorem exists_buildNtt_of_checks {x y : Word} (hn : 1 ≤ sint x) (hp : isPrime (sint y) = true)
    (hd : fmod (sint y - 1) (2 * sint x) = 0) : ∃ c, buildNtt (sint x) (sint y) = .ok c := by
  obtain ⟨_, _, _, -, -, -, -, -, -, -, -, hbuild⟩ :=
    exists_buildNtt hn ((isPrime_iff _).mp hp) ((fmod_eq_zero_iff_dvd _ _).mp hd)
  exact ⟨_, hbuild⟩

/-- `CRT.INIT` behind its checks: it builds a slot, or its primes run out, or their product is too large (rules R241,
R242). -/
theorem EndsAsListed.buildCrt {s : State} {ra rb rc : XReg} {f : CrtCtx → Except Exn State}
    (hn : 1 ≤ s.xInt ra ∧ s.xInt ra ≤ s.build.nPrimeMax) (hd : 1 ≤ s.xInt rc)
    (h : ∀ c, EndsAsListed (.crtInit ra rb rc) s (f c)) :
    EndsAsListed (.crtInit ra rb rc) s
      (Machine.buildCrt s.build (s.xInt ra) (s.xInt rb) (s.xInt rc) >>= f) := by
  obtain ⟨l, hl, ⟨hgen, -⟩ | ⟨hgen, hlt, hall⟩⟩ :=
    generatePrimes_firstPrimes (n := s.xInt ra) (size := s.xInt rb) hd
  · have hprimes := hl.primeList (by omega)
    by_cases hfits : l.prod < 2 ^ (s.build.wideW - 1)
    · obtain ⟨c, hc, -⟩ := exists_buildCrt hprimes hgen hfits
      exact .ofOk hc (h c)
    · rw [buildCrt_of_overflow hprimes hgen hfits]
      exact .error (.plain (by simp [Instr.causes]) (by simp))
  · rw [buildCrt_of_error hgen]
    have hmax := s.build.nPrimeMax_bounds
    refine .error ⟨.inl (by simp [Instr.causes]), ra, rb, rc, l.map (↑), rfl, hl.sorted,
      fun q => ⟨hall q, hl.prime q⟩, ?_, ?_⟩
    · rw [List.length_map]
      omega
    · rw [List.length_map, BitVec.toNat_ofNat, Nat.mod_eq_of_lt (by omega)]

section

variable {s : State}

theorem nttSize_of_some {c : NttCtx} (hc : s.ntt = some c) : s.nttSize = c.n.toNat := by
  rw [State.nttSize, hc, slotField]

theorem crtSize_of_some {c : CrtCtx} (hc : s.crt = some c) : s.crtSize = c.numPrimes.toNat := by
  rw [State.crtSize, hc, slotField]

theorem crtDegree_of_some {c : CrtCtx} (hc : s.crt = some c) :
    (slotField s.crt CrtCtx.degree).toNat = c.degree.toNat := by
  rw [hc, slotField]

/-- `CRT.ENC` and `CRT.PRIMES` write one element a prime, which may be more than a buffer holds (log entry 17). -/
theorem EndsAsListed.assignPrimes {i : Instr} {c : CrtCtx} (hs : s.Inv) (hc : s.crt = some c) {l : List Int}
    (hl : l.length = c.primes.length) (r : VReg) (hi : ∃ rd, i = .crtPrimes rd ∨ ∃ ra, i = .crtEnc rd ra) :
    EndsAsListed i s (Machine.vecAssign s r l) := by
  obtain ⟨hprimes, -, -, hlt⟩ := hs.crt_lengths hc
  rw [hprimes] at hl
  by_cases hfit : l.length ≤ s.build.vcapMax
  · exact .vecAssign hfit r
  · rw [(vecAssign_eq_error s r l _).mpr ⟨hfit, rfl⟩]
    rw [hl] at hfit ⊢
    refine .error ⟨.inr ⟨rfl, not_le.mp hfit, hi⟩, s.crtSize, ?_, by exact_mod_cast not_le.mp hfit, ?_⟩
    · obtain ⟨rd, rfl | ⟨ra, rfl⟩⟩ := hi <;> rfl
    · exact_mod_cast toNat_u64_natCast (hlt.trans (by norm_num))

/-- The size check of the first buffer of a command with an `NTT` source (rules R210, R383). -/
theorem EndsAsListed.nttSize {i : Instr} {c : NttCtx} (hs : s.Inv) (hc : s.ntt = some c) {r : VReg}
    {f : Unit → Except Exn State} (rest : List (VReg × Nat)) (hchecks : s.sizeChecks i = (r, s.nttSize) :: rest)
    (h : s.v[r].size = c.n.toNat → EndsAsListed i s (f ()))
    (hmem : .lengthMismatch ∈ i.causes := by simp [Instr.causes]) :
    EndsAsListed i s (needSize s.v[r] c.n.toNat >>= f) :=
  .size hs [] rest (hchecks.trans (by rw [nttSize_of_some hc]; rfl)) nofun Iff.rfl h hmem

/-- The size checks of the two sources of a command, each for the same size (rule R383). -/
theorem EndsAsListed.sizes {i : Instr} (hs : s.Inv) {ra rb : VReg} {n : Nat} {f : Unit → Except Exn State}
    (hchecks : s.sizeChecks i = [(ra, n), (rb, n)])
    (h : s.v[ra].size = n → EndsAsListed i s (f ()))
    (hmem : .lengthMismatch ∈ i.causes := by simp [Instr.causes]) :
    EndsAsListed i s (needSize s.v[ra] n >>= fun _ => needSize s.v[rb] n >>= f) :=
  .size hs [] _ hchecks nofun Iff.rfl (hmem := hmem) fun ha =>
    .size hs [(ra, n)] [] hchecks (by simpa using ha) Iff.rfl (hmem := hmem) fun _ => h ha

theorem State.Inv.length_elems_le (hs : s.Inv) (r : VReg) : (s.elems r).length ≤ s.build.vcapMax :=
  (s.length_elems r).trans_le (hs.size_le r)

end

/-! ### Every command -/

/-- In a good state every meaning ends as the rules list: at each check with the fault the rules give it, and behind
the checks with a write. -/
theorem exec_endsAsListed (i : Instr) {s : State} (hs : s.Inv) :
    ∃ r, exec i s = finish i s r ∧ EndsAsListed i s r := by
  cases i with
  | nop | li | lsi | mov | wmov | wsetx | ntIsprime | polyEq | vsize | vcap | vempty | vshrink =>
    exact ⟨_, rfl, .ok⟩
  | wgetx => exact ⟨_, rfl, .check fun _ => .ok⟩
  | vmov rd ra => exact ⟨_, rfl, .vecAssign (hs.length_elems_le ra) rd⟩
  | ntModinv rd => exact ⟨_, rfl, .storeResidue (modInv_answersResidue _ _) rd⟩
  | ntModexp rd => exact ⟨_, rfl, .storeResidue (modExp_answersResidue _ _ _) rd⟩
  | ntRoot rd => exact ⟨_, rfl, .storeResidue (rootOfUnity_answersResidue _ _) rd⟩
  | ntFindgen rd => exact ⟨_, rfl, .storeResidue (findGenerator_answersResidue _) rd⟩
  | zpInit => exact ⟨_, rfl, .parameter 0 Iff.rfl nofun fun _ => .check fun _ => .ok⟩
  | zpAdd | zpSub | zpMul => exact ⟨_, rfl, .needSlot 0 fun _ _ => .ok⟩
  | zpExp =>
    refine ⟨_, rfl, .needSlot 0 fun c hc => .check fun he => ?_⟩
    obtain ⟨-, h2, -⟩ := ZpCtx.Valid.modulus c (hs.zp c hc)
    exact .ofOk (modExp_eq _ _ c.modulus (by rw [ZpCtx.modulus]; omega) he) .ok
  | zpInv _ ra =>
    refine ⟨_, rfl, .needSlot 0 fun c hc => .check fun hne => ?_⟩
    obtain ⟨t, ht, -⟩ := (hs.zp c hc).exists_modInv (mt Int.emod_eq_zero_of_dvd hne)
    exact .ofOk ht .ok
  | zpRoot _ ra =>
    refine ⟨_, rfl, .needSlot 0 fun c hc => .check fun ⟨hn, hdvd⟩ => .check fun h2 => ?_⟩
    obtain ⟨hp, -⟩ := ZpCtx.Valid.modulus c (hs.zp c hc)
    obtain ⟨t, ht, -⟩ := exists_rootOfUnity_lt hp h2 hn ((fmod_eq_zero_iff_dvd _ _).mp hdvd)
    exact .ofOk ht .ok
  | zpGen =>
    refine ⟨_, rfl, .needSlot 0 fun c hc => .check fun h2 => ?_⟩
    obtain ⟨hp, -⟩ := ZpCtx.Valid.modulus c (hs.zp c hc)
    obtain ⟨t, ht, -⟩ := exists_findGenerator_lt hp h2
    exact .ofOk ht .ok
  | nttInit =>
    refine ⟨_, rfl, .parameter 0 (dimension_check _ _) nofun fun hn => .parameter 1 Iff.rfl ?_ fun _ =>
      .check fun hp => .check fun hd => ?_⟩
    · rintro (_ | _) hj
      · exact (dimension_check _ _).mp hn
      · omega
    · obtain ⟨c, hc⟩ := exists_buildNtt_of_checks hn.1 hp hd
      exact .ofOk hc .ok
  | nttRaw rd =>
    exact ⟨_, rfl, .needSlot 1 fun c hc => .nttSize hs hc [] rfl fun _ =>
      .vecAssign ((length_transform _ _ _).trans_le (hs.length_elems_le rd)) rd⟩
  | nttFwd rd =>
    exact ⟨_, rfl, .needSlot 1 fun c hc => .nttSize hs hc [] rfl fun _ =>
      .vecAssign ((length_nttForward_le _ _).trans (hs.length_elems_le rd)) rd⟩
  | nttInv rd =>
    exact ⟨_, rfl, .needSlot 1 fun c hc => .nttSize hs hc [] rfl fun _ =>
      .vecAssign ((length_nttInverse_le _ _).trans (hs.length_elems_le rd)) rd⟩
  | nttPmul rd ra rb =>
    exact ⟨_, rfl, .needSlot 1 fun c hc => .sizes hs (by rw [← nttSize_of_some hc]; rfl) fun _ =>
      .vecAssign ((length_pointwise_le _ _ _).trans (hs.length_elems_le ra)) rd⟩
  | crtInit =>
    refine ⟨_, rfl, .parameter 0 Iff.rfl nofun fun hn => .parameter 1 Iff.rfl ?_ fun hsize =>
      .parameter 2 (dimension_check _ _) ?_ fun hd => .buildCrt hn hd.1 fun _ => .ok⟩
    · rintro (_ | _) hj
      · exact hn
      · omega
    · rintro (_ | _ | _) hj
      · exact hn
      · exact hsize
      · omega
  | crtEnc rd ra =>
    exact ⟨_, rfl, .needSlot 2 fun c hc => .assignPrimes hs hc (length_residues _ _) rd ⟨rd, .inr ⟨ra, rfl⟩⟩⟩
  | crtPrimes rd =>
    exact ⟨_, rfl, .needSlot 2 fun c hc => .assignPrimes hs hc (List.length_map _) rd ⟨rd, .inl rfl⟩⟩
  | crtDec rd =>
    refine ⟨_, rfl, .needSlot 2 fun c hc => .size hs [] [] (by rw [← crtSize_of_some hc]; rfl) nofun Iff.rfl
      fun _ => ?_⟩
    obtain ⟨h0, hlt⟩ := (hs.crt c hc).reconstruct_bounds (s.elems _)
    exact .storeWide ((hs.crt c hc).fitsWide h0 hlt) rd
  | crtMod => exact ⟨_, rfl, .needSlot 2 fun _ _ => .ok⟩
  | galInit => exact ⟨_, rfl, .parameter 0 (galois_dimension_check _ _) nofun fun _ => .ok⟩
  | galElt =>
    exact ⟨_, rfl, .needSlot 3 fun c hc => .ofOk (eltFromStep_eq (hs.gal c hc).dimension.1 _) .ok⟩
  | galElts rd ra =>
    exact ⟨_, rfl, .needSlot 3 fun c hc => .ofOk (mapM_eltFromStep (hs.gal c hc).dimension.1 _)
      (.vecAssign ((List.length_map _).trans_le (hs.length_elems_le ra)) rd)⟩
  | galIdx _ ra =>
    exact ⟨_, rfl, .needSlot 3 fun c hc =>
      .require (fun _ => ⟨.inl (by simp [Instr.causes]), ra, rfl, rfl⟩) fun _ => .ok⟩
  | galAll rd =>
    exact ⟨_, rfl, .needSlot 3 fun c hc =>
      .vecAssign ((List.length_map _).trans_le (hs.gal c hc).length_galoisEltsAll_le) rd⟩
  | polyAdd rd ra | polySub rd ra =>
    exact ⟨_, rfl, .polyModulus hs fun _ => .vecAssign
      (List.length_zipWith.trans_le ((min_le_left _ _).trans (hs.length_elems_le ra))) rd⟩
  | polyMul rd ra =>
    exact ⟨_, rfl, .polyModulus hs fun _ => .vecAssign
      ((length_negacyclic _ _ _).trans_le (hs.length_elems_le ra)) rd⟩
  | polyMuln rd ra =>
    exact ⟨_, rfl, .needSlot 1 fun c hc => .sizes hs (by rw [← nttSize_of_some hc]; rfl) fun _ =>
      .vecAssign ((length_nttInverse_le _ _).trans ((length_pointwise_le _ _ _).trans
        ((length_nttForward_le _ _).trans (hs.length_elems_le ra)))) rd⟩
  | polyMulc rd ra =>
    refine ⟨_, rfl, .needSlot 2 fun c hc => .sizes hs (by rw [← crtDegree_of_some hc]; rfl) fun hra => ?_⟩
    have hroom := (hs.crt c hc).degree_mul_limbs_le
    refine .ofOk (require_of_pos hroom _ _) (.vecAssign ?_ rd)
    rwa [length_crtProduct_limbs, s.length_elems, hra]
  | rndHwt rd =>
    refine ⟨_, rfl, .check fun h0 => .check fun hh => .room h0 fun hroom => .storeDraw ?_ rd⟩
    rw [(isTernary_drawTernary s.source (by omega)).length]
    omega
  | rndTri rd =>
    refine ⟨_, rfl, .check fun h0 => .room h0 fun hroom => .storeDraw ?_ rd⟩
    rw [(isInRange_drawCentered s.source _ _).length]
    omega
  | rndUni rd =>
    refine ⟨_, rfl, .check fun _ => .check fun hlt => .check fun h0 => .room h0 fun hroom => .storeDraw ?_ rd⟩
    rw [(isInRange_drawRange s.source hlt _).length]
    omega
  | vresize | vreserve => exact ⟨_, rfl, .check fun h0 => .room h0 fun _ => .ok⟩
  | vat | vset => exact ⟨_, rfl, .boundedIndex fun _ => .ok⟩

/-- No two causes have one code (rule R371). -/
theorem FaultCause.code_injective : Function.Injective FaultCause.code :=
  Function.LeftInverse.injective (g := fun d => FaultCause.ofNat (d.toNat - 1)) fun k => by cases k <;> rfl

/-- A rejection reports a fault that the rules list: a retired command counts one more. -/
theorem listedFault_of_rejected {i : Instr} {s : State} (hs : s.Inv) {cause : FaultCause} {info : Word}
    (h : exec i s = .next (s.rejected i cause info)) : ListedFault i s ⟨cause, info⟩ := by
  obtain ⟨r, hr, hkeeps, hlisted⟩ := exec_endsAsListed i hs
  obtain ⟨u, hu, hret⟩ | ⟨e, he, hraise⟩ := finish_cases i s _ r (hr.symm.trans h)
  · have hcseq : s.cseq = s.cseq + 1 := (congrArg State.cseq hret).trans (congrArg (· + 1) (hkeeps u hu))
    exact absurd hcseq (by bv_omega)
  · have hcause := FaultCause.code_injective (congrArg State.fcause hraise)
    have hinfo : info = e.info := congrArg State.finfo hraise
    rw [show cause = e.cause from hcause, hinfo]
    exact hlisted e he

/-- Settles O19: the fault is a listed one, and a command without one is not rejected. -/
theorem raisedCausesOfEachCommand : Obligations.RaisedCausesOfEachCommand := by
  intro i s hs
  refine ⟨fun cause info h => (listedFault_of_rejected hs h).cause, fun hnone => ?_⟩
  obtain ⟨t, ht, hcseq, hrun, -⟩ | ⟨cause, info, hrej⟩ := commandRetiresOrIsRejectedWhole i s
  · exact ⟨t, ht, hcseq, hrun⟩
  · obtain hmem | ⟨-, -, rd, rfl | ⟨ra, rfl⟩⟩ := (listedFault_of_rejected hs hrej).cause
    · rw [hnone] at hmem
      cases hmem
    · cases hnone
    · cases hnone

/-- Settles O20: the word is the one listed with the fault. -/
theorem faultInformationWords : Obligations.FaultInformationWords := by
  intro i s cause info hs h
  have hinfo := (listedFault_of_rejected hs h).info
  cases cause <;> exact hinfo

end Sys2Proof.Machine
